-- ==== Sys2Proof/Word.lean ====
section
/-! DEFINITION. The plain values the core moves: bytes, packets, frames and requester ids (spec 00_scope.md R5,
R7, R8). -/

namespace Sys2Proof

/-- A byte is an 8-bit unsigned value (R5). -/
abbrev Byte := BitVec 8

/-- A packet: an ordered, finite sequence of arbitrary bytes, of any length including zero (R5). -/
abbrev Packet := List Byte

/-- A frame: the byte sequence of one output-channel write (R52, R71). -/
abbrev Frame := List Byte

/-- A requester of one instance (`Req_ENC` or `Req_DEC`, R7), named by a number (log entry 5). -/
abbrev ReqId := Nat

end Sys2Proof
end

