-- ==== Sys2Proof/Config.lean ====
section
/-! DEFINITION. What is fixed for one machine: the four hardwired byte values (00_scope.md R6), the
parameters of R7, and the values the spec leaves open (93_implementation_defined.md), which have no body. -/

namespace Sys2Proof

/-- END, the frame delimiter: 0xC0 (R6, R70). -/
abbrev END : Byte := 0xC0#8

/-- ESC, the escape introducer: 0xDB (R6, R70). -/
abbrev ESC : Byte := 0xDB#8

/-- ESC_END, the second byte of an escaped END: 0xDC (R6, R70). -/
abbrev ESC_END : Byte := 0xDC#8

/-- ESC_ESC, the second byte of an escaped ESC: 0xDD (R6, R70). -/
abbrev ESC_ESC : Byte := 0xDD#8

namespace Config

/-- Which numbers name a member of `ChanErr` other than `EOS`: open (R7, D5, I7), so any set at all, empty,
finite or infinite (log entry 7). -/
opaque isOtherErr : Nat → Bool

/-- The largest requester of the finite, non-empty set `Req_ENC` = 0 .. lastReqEnc (R7, OPEN; D23). -/
opaque lastReqEnc : Nat

/-- The largest requester of the finite, non-empty set `Req_DEC` = 0 .. lastReqDec (R7, OPEN; D23). -/
opaque lastReqDec : Nat

/-- Membership in `Req_ENC`; requester 0 is in every such set (non-empty, R7). -/
def isReqEnc (r : ReqId) : Bool := r == 0 || decide (r ≤ lastReqEnc)

/-- Membership in `Req_DEC`; requester 0 is in every such set (non-empty, R7). -/
def isReqDec (r : ReqId) : Bool := r == 0 || decide (r ≤ lastReqDec)

/-- `MAX_FRAME` of R7: `none`, unbounded (§4.1; log entry 8). The meanings take the bound as an
argument of the operations they share, so that R114 is stated for every bound. -/
def maxFrame : Option Nat := none

/-- `MAX_PACKET` of R7: `none`, unbounded (§4.2; log entry 8). -/
def maxPacket : Option Nat := none

/-- A buffer of `n` bytes respects a bound: always without one, else `n` is at most it (R114, R146). -/
def fits (bound : Option Nat) (n : Nat) : Bool :=
  match bound with
  | none => true
  | some m => decide (n ≤ m)

/-- The bytes that the `n`-th failed write of a run left on the wire: any value at all (R57, D3, I4). -/
opaque freeWire : Nat → List Byte

end Config

/-- A channel error condition, a member of the parameter `ChanErr` (R7, OPEN; D5, I7): `EOS`, or one of the
others, of which nothing is known but that each has a name (log entry 7). The core creates, changes and
classifies none (R171). -/
inductive ChanErr where
  /-- `EOS`, the distinguished member the input channel reports for a clean end of stream (R7, R51). -/
  | eos
  /-- Any other member, by its name. -/
  | other (name : Nat) (member : Config.isOtherErr name = true)
  deriving DecidableEq, Repr, Inhabited

/-- `EOS` as the parameter of R7. No step looks at it: the core treats all members alike (D5). -/
abbrev Config.eos : ChanErr := .eos

end Sys2Proof
end

