-- ==== Sys2Proof/Syntax.lean ====
section
/-! DEFINITION. The channel answers and response fields (20_memory.md R51, R52; 30_encoding.md R81), the
instructions of the core, one constructor per row of spec/opcode_table.json, and what selects one
(30_encoding.md R76 to R78, R83). -/

namespace Sys2Proof

/-- The output channel's answer to a write: `OK` or `FAIL(e)` (R52). -/
inductive WriteResp where
  | ok
  | fail (e : ChanErr)
  deriving DecidableEq, Repr

/-- The input channel's answer to a read: `DATA(b)` or `NODATA(e)`, `e : Option ChanErr` (R51). A byte
and an error together cannot be expressed (R51, D7; log entry 22). -/
inductive ReadResp where
  | data (b : Byte)
  | nodata (e : Option ChanErr)
  deriving DecidableEq, Repr

/-- `EncStatus`, the status an ENCODE returns: `OK` or `FAIL(e)` (R81, R171). -/
inductive EncStatus where
  | ok
  | fail (e : ChanErr)
  deriving DecidableEq, Repr

/-- The fields of a READ_PACKET response, without its requester: `pkt`, `isPrefix`, `err` (R81). -/
structure DecResult where
  pkt : Packet
  isPrefix : Bool
  err : Option ChanErr
  deriving DecidableEq, Repr

/-- The steps and operations of the two agents, one constructor per row of spec/opcode_table.json
(30_encoding.md R83). -/
inductive Instr where
  /-- ENC.ENCODE, the whole operation for requester `r` and packet `p` (R100). -/
  | encEncode (r : ReqId) (p : Packet)
  /-- ENC.ACCEPT of the pending request of `r`, a free choice (R101). -/
  | encAccept (r : ReqId)
  /-- ENC.OPEN (R102). -/
  | encOpen
  /-- ENC.STUFF_END (R103). -/
  | encStuffEnd
  /-- ENC.STUFF_ESC (R104). -/
  | encStuffEsc
  /-- ENC.LIT, `b` any byte but END and ESC (R105). -/
  | encLit (b : Byte)
  /-- ENC.CLOSE (R106). -/
  | encClose
  /-- ENC.WRITE (R107). -/
  | encWrite
  /-- ENC.DONE_OK (R108). -/
  | encDoneOk
  /-- ENC.DONE_FAIL with the error `e` of the write response (R109). -/
  | encDoneFail (e : ChanErr)
  /-- DEC.READ_PACKET, the whole operation for requester `r` (R130). -/
  | decReadPacket (r : ReqId)
  /-- DEC.ACCEPT of the pending request of `r`, a free choice (R131). -/
  | decAccept (r : ReqId)
  /-- DEC.READ (R132). -/
  | decRead
  /-- DEC.N_FAIL with the error/condition `e` of the read response (R133). -/
  | decNFail (e : Option ChanErr)
  /-- DEC.N_END_SKIP (R134). -/
  | decNEndSkip
  /-- DEC.N_END_DONE (R135). -/
  | decNEndDone
  /-- DEC.N_ESC (R136). -/
  | decNEsc
  /-- DEC.N_LIT, `b` any byte but END and ESC (R137). -/
  | decNLit (b : Byte)
  /-- DEC.E_FAIL with the error/condition `e` of the read response (R138). -/
  | decEFail (e : Option ChanErr)
  /-- DEC.E_END (R139). -/
  | decEEnd
  /-- DEC.E_ESC (R140). -/
  | decEEsc
  /-- DEC.E_LIT, `b` any byte but ESC_END and ESC_ESC (R141). -/
  | decELit (b : Byte)
  deriving DecidableEq, Repr

/-- What selects a step: a request, a control state, a byte or a channel response. It is what a decoder
of this hardware reads in place of an instruction word (30_encoding.md, opening; R83 "selected when"). -/
inductive Select where
  /-- The request `ENC_REQ(r, p)` (R81). -/
  | encRequest (r : ReqId) (p : Packet)
  /-- `enc_phase = IDLE` and requester `r`, pending, is chosen. -/
  | encPending (r : ReqId)
  /-- `enc_phase = OPEN`. -/
  | encOpened
  /-- `enc_phase = STUFF`, `enc_i < |p|`, and `b = p[enc_i]` (R76). -/
  | encByte (b : Byte)
  /-- `enc_phase = STUFF` and `enc_i = |p|`. -/
  | encAtEnd
  /-- `enc_phase = CLOSE`. -/
  | encClosed
  /-- `enc_phase = WAIT` and the write response `w`. -/
  | encAnswer (w : WriteResp)
  /-- The request `DEC_REQ(r)` (R81). -/
  | decRequest (r : ReqId)
  /-- `dec_phase = IDLE` and requester `r`, pending, is chosen. -/
  | decPending (r : ReqId)
  /-- `dec_phase` is NORMAL or ESCAPED and `dec_rd = false`. -/
  | decUnread
  /-- NORMAL, `dec_rd`, the read response `x`, and whether `acc = []` (R77). -/
  | decNormal (accEmpty : Bool) (x : ReadResp)
  /-- ESCAPED, `dec_rd`, the read response `x` (R78). -/
  | decEscaped (x : ReadResp)
  deriving DecidableEq, Repr

/-- The `format` field of a row of spec/opcode_table.json (R83): what kind of thing selects the row. -/
inductive Format where
  | op
  | encFrame
  | encByte
  | decNormal
  | decEscaped
  deriving DecidableEq, Repr

/-- The `format` the table gives the row of each instruction. -/
def Instr.format : Instr → Format
  | .encEncode _ _ => .op
  | .encAccept _ => .op
  | .encOpen => .encFrame
  | .encStuffEnd => .encByte
  | .encStuffEsc => .encByte
  | .encLit _ => .encByte
  | .encClose => .encFrame
  | .encWrite => .encFrame
  | .encDoneOk => .encFrame
  | .encDoneFail _ => .encFrame
  | .decReadPacket _ => .op
  | .decAccept _ => .op
  | .decRead => .op
  | .decNFail _ => .decNormal
  | .decNEndSkip => .decNormal
  | .decNEndDone => .decNormal
  | .decNEsc => .decNormal
  | .decNLit _ => .decNormal
  | .decEFail _ => .decEscaped
  | .decEEnd => .decEscaped
  | .decEEsc => .decEscaped
  | .decELit _ => .decEscaped

/-- The format of the rows a selection can select (R83). -/
def Select.format : Select → Format
  | .encRequest _ _ => .op
  | .encPending _ => .op
  | .encOpened => .encFrame
  | .encByte _ => .encByte
  | .encAtEnd => .encFrame
  | .encClosed => .encFrame
  | .encAnswer _ => .encFrame
  | .decRequest _ => .op
  | .decPending _ => .op
  | .decUnread => .op
  | .decNormal _ _ => .decNormal
  | .decEscaped _ => .decEscaped

/-- The steps of ENC inside an operation, apart from ACCEPT's choice: R102 to R109. -/
def Instr.isEncStep : Instr → Bool
  | .encOpen | .encStuffEnd | .encStuffEsc | .encLit _ | .encClose | .encWrite
  | .encDoneOk | .encDoneFail _ => true
  | .encEncode _ _ | .encAccept _ | .decReadPacket _ | .decAccept _ | .decRead | .decNFail _
  | .decNEndSkip | .decNEndDone | .decNEsc | .decNLit _ | .decEFail _ | .decEEnd | .decEEsc
  | .decELit _ => false

/-- The steps of DEC inside an operation, apart from ACCEPT's choice: R132 to R141. -/
def Instr.isDecStep : Instr → Bool
  | .decRead | .decNFail _ | .decNEndSkip | .decNEndDone | .decNEsc | .decNLit _ | .decEFail _
  | .decEEnd | .decEEsc | .decELit _ => true
  | .encEncode _ _ | .encAccept _ | .encOpen | .encStuffEnd | .encStuffEsc | .encLit _ | .encClose
  | .encWrite | .encDoneOk | .encDoneFail _ | .decReadPacket _ | .decAccept _ => false

/-- The agent of an instruction is ENC (the rows whose mnemonic begins `ENC.`), else it is DEC. -/
def Instr.isEnc : Instr → Bool
  | .encEncode _ _ | .encAccept _ | .encOpen | .encStuffEnd | .encStuffEsc | .encLit _ | .encClose
  | .encWrite | .encDoneOk | .encDoneFail _ => true
  | .decReadPacket _ | .decAccept _ | .decRead | .decNFail _ | .decNEndSkip | .decNEndDone
  | .decNEsc | .decNLit _ | .decEFail _ | .decEEnd | .decEEsc | .decELit _ => false

end Sys2Proof
end

