-- ==== Sys2Proof/WellFormed.lean ====
section
/-! DEFINITION. Which instructions are rows of the table with legal operands: a literal row's byte is none
of the bytes the row excludes (30_encoding.md R76 to R78), and a requester is one of the agent's set (R7). -/

namespace Sys2Proof

/-- The instruction is a row of the table: its byte is not one the row `excludes`, its requester is of
the agent's set. -/
abbrev Instr.wf : Instr → Bool
  | .encEncode r _ => Config.isReqEnc r
  | .encAccept r => Config.isReqEnc r
  | .encLit b => b != END && b != ESC
  | .decReadPacket r => Config.isReqDec r
  | .decAccept r => Config.isReqDec r
  | .decNLit b => b != END && b != ESC
  | .decELit b => b != ESC_END && b != ESC_ESC
  | .encOpen | .encStuffEnd | .encStuffEsc | .encClose | .encWrite | .encDoneOk | .encDoneFail _
  | .decRead | .decNFail _ | .decNEndSkip | .decNEndDone | .decNEsc | .decEFail _ | .decEEnd
  | .decEEsc => true

/-- A selection is legal when its requester, if it has one, is of the agent's set (R7). Every byte and
every channel response is legal (R79). -/
abbrev Select.wf : Select → Bool
  | .encRequest r _ => Config.isReqEnc r
  | .encPending r => Config.isReqEnc r
  | .decRequest r => Config.isReqDec r
  | .decPending r => Config.isReqDec r
  | .encOpened | .encByte _ | .encAtEnd | .encClosed | .encAnswer _ | .decUnread | .decNormal _ _
  | .decEscaped _ => true

end Sys2Proof
end

