-- ==== Sys2Proof/Decode.lean ====
section
/-! DEFINITION. Decoding: from what selects a step to the step (30_encoding.md R76 to R78, R83), total: no
byte, response or control state is illegal (R79), so nothing is rejected. Then the encoder, from the same
tables, the byte rows of spec/opcode_table.json as data, and the host's reading of a table word. -/

namespace Sys2Proof

/-- The stuffing step a payload byte selects (R76; the first matching row applies). -/
def decodePayloadByte (b : Byte) : Instr :=
  if b = END then .encStuffEnd
  else if b = ESC then .encStuffEsc
  else .encLit b

/-- The DONE step a write response selects in WAIT (R83). -/
def decodeWriteResp : WriteResp → Instr
  | .ok => .encDoneOk
  | .fail e => .encDoneFail e

/-- The step a read response selects in NORMAL (R77; the first matching row applies). -/
def decodeNormal (accEmpty : Bool) : ReadResp → Instr
  | .nodata e => .decNFail e
  | .data b =>
    if b = END then (if accEmpty then .decNEndSkip else .decNEndDone)
    else if b = ESC then .decNEsc
    else .decNLit b

/-- The step a read response selects in ESCAPED (R78; the first matching row applies). -/
def decodeEscaped : ReadResp → Instr
  | .nodata e => .decEFail e
  | .data b =>
    if b = ESC_END then .decEEnd
    else if b = ESC_ESC then .decEEsc
    else .decELit b

/-- The step decoder: the instruction a selection selects (R83). -/
def decode : Select → Instr
  | .encRequest r p => .encEncode r p
  | .encPending r => .encAccept r
  | .encOpened => .encOpen
  | .encByte b => decodePayloadByte b
  | .encAtEnd => .encClose
  | .encClosed => .encWrite
  | .encAnswer w => decodeWriteResp w
  | .decRequest r => .decReadPacket r
  | .decPending r => .decAccept r
  | .decUnread => .decRead
  | .decNormal e x => decodeNormal e x
  | .decEscaped x => decodeEscaped x

/-- The encoder: the selection that the row of an instruction stands for (R83, R76 to R78). -/
def encode : Instr → Select
  | .encEncode r p => .encRequest r p
  | .encAccept r => .encPending r
  | .encOpen => .encOpened
  | .encStuffEnd => .encByte 0xC0#8
  | .encStuffEsc => .encByte 0xDB#8
  | .encLit b => .encByte b
  | .encClose => .encAtEnd
  | .encWrite => .encClosed
  | .encDoneOk => .encAnswer .ok
  | .encDoneFail e => .encAnswer (.fail e)
  | .decReadPacket r => .decRequest r
  | .decAccept r => .decPending r
  | .decRead => .decUnread
  | .decNFail e => .decNormal false (.nodata e)
  | .decNEndSkip => .decNormal true (.data 0xC0#8)
  | .decNEndDone => .decNormal false (.data 0xC0#8)
  | .decNEsc => .decNormal false (.data 0xDB#8)
  | .decNLit b => .decNormal false (.data b)
  | .decEFail e => .decEscaped (.nodata e)
  | .decEEnd => .decEscaped (.data 0xDC#8)
  | .decEEsc => .decEscaped (.data 0xDD#8)
  | .decELit b => .decEscaped (.data b)

/-- Two selections that differ only in an `acc = []` the row does not look at select the same row: this
is the one with that field as the encoder writes it (R77: only the two END rows look at `acc`). -/
def Select.canonical : Select → Select
  | .decNormal e (.data b) => .decNormal (e && b == END) (.data b)
  | .decNormal _ (.nodata e) => .decNormal false (.nodata e)
  | .encRequest r p => .encRequest r p
  | .encPending r => .encPending r
  | .encOpened => .encOpened
  | .encByte b => .encByte b
  | .encAtEnd => .encAtEnd
  | .encClosed => .encClosed
  | .encAnswer w => .encAnswer w
  | .decRequest r => .decRequest r
  | .decPending r => .decPending r
  | .decUnread => .decUnread
  | .decEscaped x => .decEscaped x

/-! ## The byte rows of spec/opcode_table.json -/

/-- A byte row of spec/opcode_table.json: its `format`, `mask`, `match`, `excludes` and `condition` on
`acc` (`some true`: acc = []; `some false`: acc != []), and the instruction it stands for. -/
structure ByteRow where
  format : Format
  mask : Byte
  pattern : Byte
  excludes : List Byte
  accEmpty : Option Bool
  instr : Byte → Instr

/-- The ten byte rows, in the table's order, each field as the table has it. -/
def byteRows : List ByteRow :=
  [⟨.encByte, 0xFF#8, 0xC0#8, [], none, fun _ => .encStuffEnd⟩,
   ⟨.encByte, 0xFF#8, 0xDB#8, [], none, fun _ => .encStuffEsc⟩,
   ⟨.encByte, 0x00#8, 0x00#8, [0xC0#8, 0xDB#8], none, .encLit⟩] ++
  [⟨.decNormal, 0xFF#8, 0xC0#8, [], some true, fun _ => .decNEndSkip⟩,
   ⟨.decNormal, 0xFF#8, 0xC0#8, [], some false, fun _ => .decNEndDone⟩,
   ⟨.decNormal, 0xFF#8, 0xDB#8, [], none, fun _ => .decNEsc⟩,
   ⟨.decNormal, 0x00#8, 0x00#8, [0xC0#8, 0xDB#8], none, .decNLit⟩] ++
  [⟨.decEscaped, 0xFF#8, 0xDC#8, [], none, fun _ => .decEEnd⟩,
   ⟨.decEscaped, 0xFF#8, 0xDD#8, [], none, fun _ => .decEEsc⟩,
   ⟨.decEscaped, 0x00#8, 0x00#8, [0xDC#8, 0xDD#8], none, .decELit⟩]

/-- The row matches the byte `b` in its format, `e` saying whether `acc = []` (R83: match and mask, the
excludes list, the condition). -/
def ByteRow.hits (row : ByteRow) (f : Format) (e : Bool) (b : Byte) : Bool :=
  row.format == f && (b &&& row.mask) == row.pattern && !row.excludes.contains b
    && (row.accEmpty == none || row.accEmpty == some e)

/-! ## The host's table words -/

/-- The selection an 8-bit word of the table stands for where only its bits are given: rows of three
formats share words, so the first row of the table that the byte matches exactly is taken, and
else the first row with mask 0x00 (log entry 15). 0xDC and 0xDD match only the escape rows exactly. -/
def tableSelect (b : Byte) : Select :=
  if b = ESC_END ∨ b = ESC_ESC then .decEscaped (.data b) else .encByte b

/-- The instruction the decoder reads from a table word: a byte, taken as `tableSelect` says. The rows
that have no bits in the table are selected by a control state or a request and have no word. -/
def decodeTableWord (nbits w : Nat) : Option Instr :=
  if nbits = 8 ∧ w < 256 then some (decode (tableSelect (BitVec.ofNat 8 w))) else none

end Sys2Proof
end

