-- ==== Sys2Proof/Machine/State.lean ====
section
/-! DEFINITION. The state of the core (10_state.md R20 to R32) as plain data: the elements of ENC and DEC,
and beside them the model's own record of the environment (60_exceptions.md R185, R188). -/

namespace Sys2Proof.Machine

/-- `enc_phase` (R21). `opening` is the spec's OPEN. No step enters `write` (R27; log entry 23). -/
inductive EncPhase where
  | idle
  | opening
  | stuff
  | close
  | write
  | wait
  deriving DecidableEq, Repr

/-- `dec_phase` (R22, R23). -/
inductive DecPhase where
  | idle
  | normal
  | escaped
  deriving DecidableEq, Repr

/-- The state elements of ENC (R21, R25). Its lock is held exactly when `phase` is not `idle` (R25). -/
structure Enc where
  /-- `enc_phase`. -/
  phase : EncPhase
  /-- `enc_cur`: the requester being served and its packet. -/
  cur : Option (ReqId × Packet)
  /-- `enc_i`: index of the next payload byte to stuff. -/
  i : Nat
  /-- `fbuf`: the assembly buffer. -/
  fbuf : List Byte
  /-- `enc_pend`: the pending requests, by rising requester (log entry 14). -/
  pend : List (ReqId × Packet)
  deriving DecidableEq, Repr

/-- The state elements of DEC (R23, R25). Its lock is held exactly when `phase` is not `idle` (R25). -/
structure Dec where
  /-- `dec_phase`. -/
  phase : DecPhase
  /-- `dec_rd`: one read is outstanding. -/
  rd : Bool
  /-- `dec_cur`: the requester being served. -/
  cur : Option ReqId
  /-- `acc`: the accumulation buffer. -/
  acc : List Byte
  /-- `dec_pend`: the requesters with a pending request, rising (log entry 14). -/
  pend : List ReqId
  deriving DecidableEq, Repr

/-- One scheduled move: who moves next, and the free choice it makes (R60 to R62, R101, R131, R185;
93_implementation_defined.md I1, I2; log entry 2). -/
inductive Move where
  /-- Requester `r` issues `ENC_REQ(r, p)` (R185). -/
  | issueEncode (r : ReqId) (p : Packet)
  /-- Requester `r` issues `DEC_REQ(r)` (R185). -/
  | issueRead (r : ReqId)
  /-- The whole operation ENC.ENCODE of `r` and `p` in one step (R100). -/
  | encode (r : ReqId) (p : Packet)
  /-- The whole operation DEC.READ_PACKET of `r` in one step (R130). -/
  | readPacket (r : ReqId)
  /-- ENC accepts the pending request of `r` (R101: any such r). -/
  | encAccept (r : ReqId)
  /-- DEC accepts the pending request of `r` (R131: any such r). -/
  | decAccept (r : ReqId)
  /-- ENC takes the step its control state selects (R102 to R109). -/
  | enc
  /-- DEC takes the step its control state selects (R132 to R141). -/
  | dec
  deriving DecidableEq, Repr

/-- A transaction on ENC's ports (R50, R81, R107 to R109), or an acceptance. -/
inductive EncEvent where
  | req (r : ReqId) (p : Packet)
  | accept (r : ReqId) (p : Packet)
  | write (f : Frame)
  | answer (w : WriteResp)
  | rsp (r : ReqId) (st : EncStatus)
  deriving DecidableEq, Repr

/-- A transaction on DEC's ports (R50, R81, R132), or an acceptance. -/
inductive DecEvent where
  | req (r : ReqId)
  | accept (r : ReqId)
  | read
  | answer (x : ReadResp)
  | rsp (r : ReqId) (v : DecResult)
  deriving DecidableEq, Repr

/-- The state: the two agents, which share no element (R26), and the model's own record of the
environment (log entries 2, 4, 12): the answers the channels will give, who moves next, and the
transactions on the ports so far. -/
structure State where
  enc : Enc
  dec : Dec
  /-- The answers of the output channel to the coming writes, in order (R52; log entry 4). -/
  outAns : List WriteResp
  /-- The answers of the input channel to the coming reads, in order (R51, R53; log entry 4). -/
  inAns : List ReadResp
  /-- The moves to come (log entry 2). -/
  sched : List Move
  /-- ENC's transactions so far, oldest first (log entry 12). -/
  encLog : List EncEvent
  /-- DEC's transactions so far, oldest first (log entry 12). -/
  decLog : List DecEvent
  deriving DecidableEq, Repr

/-- The core has no fault condition: no behaviour of it is a fault (93_implementation_defined.md; R174:
errors are responses). So this type has no value and no step faults; that is the spec's own (log entry 21). -/
inductive Fault
  deriving DecidableEq, Repr

/-- Why a step has no meaning. All are safe: the model stops where the spec gives the case no meaning or
where the instruction is not selected. -/
inductive Refusal where
  /-- An instruction without a meaning yet, by name, raised by `exec` alone. Safe. -/
  | notModelled (mnemonic : String)
  /-- Raised by a step run in a state where its selecting condition does not hold (R83 "selected when"),
  or whose control state is none that R21 or R23 calls legal. `step` runs only selected steps. Safe. -/
  | notSelected
  /-- Raised when a requester outside `Req_ENC` or `Req_DEC` issues a request (R7). Safe. -/
  | unknownRequester
  /-- Raised when a requester issues a request while it has one outstanding (R25, R188, I12). Safe. -/
  | secondRequest
  /-- Raised when a frame exceeds a finite `MAX_FRAME` (R114, I10). Safe. -/
  | frameCapacity
  /-- Raised when `acc` would exceed a finite `MAX_PACKET` (R146, I10). Safe. -/
  | packetCapacity
  deriving DecidableEq, Repr

/-- ENC after reset (R32). -/
def Enc.reset : Enc := { phase := .idle, cur := none, i := 0, fbuf := [], pend := [] }

/-- DEC after reset (R32). -/
def Dec.reset : Dec := { phase := .idle, rd := false, cur := none, acc := [], pend := [] }

/-- The machine right after reset (R32, R190): both agents idle and empty, no request pending, no
transaction outstanding. The model's own fields are empty (DESIGN CHOICE, log entry 18). -/
def State.reset : State :=
  { enc := Enc.reset, dec := Dec.reset, outAns := [], inAns := [], sched := [],
    encLog := [], decLog := [] }

/-! ## Updates, one per field -/

/-- Replace ENC's elements. -/
def State.setEnc (s : State) (e : Enc) : State := { s with enc := e }

/-- Replace DEC's elements. -/
def State.setDec (s : State) (d : Dec) : State := { s with dec := d }

/-- The output channel gives its next `n` answers. -/
def State.dropOutAns (s : State) (n : Nat) : State := { s with outAns := s.outAns.drop n }

/-- The input channel gives its next `n` answers. -/
def State.dropInAns (s : State) (n : Nat) : State := { s with inAns := s.inAns.drop n }

/-- Replace the moves to come. -/
def State.setSched (s : State) (ms : List Move) : State := { s with sched := ms }

/-- Record transactions on ENC's ports. -/
def State.logEnc (s : State) (evs : List EncEvent) : State := { s with encLog := s.encLog ++ evs }

/-- Record transactions on DEC's ports. -/
def State.logDec (s : State) (evs : List DecEvent) : State := { s with decLog := s.decLog ++ evs }

end Sys2Proof.Machine
end

