-- ==== Sys2Proof/Machine/Flags.lean ====
section
/-! DEFINITION. The core has no status flags (10_state.md R28): `isPrefix`, `err` and `st` are fields of a
response, computed at the step that ends the operation and not kept (30_encoding.md R81, 60_exceptions.md R171). -/

namespace Sys2Proof.Machine

/-- The status of an ENCODE whose write was answered `w`: the answer, unmodified (R109, R171). -/
def statusOf : WriteResp → EncStatus
  | .ok => .ok
  | .fail e => .fail e

/-- `COMPLETE`: the packet `acc`, `isPrefix = false`, no error (R81, R171). -/
def complete (acc : Packet) : DecResult := { pkt := acc, isPrefix := false, err := none }

/-- `PREFIX(e)`: the bytes so far, `isPrefix = true`, and `e` as the channel gave it (R81, R171). -/
def prefixOf (acc : Packet) (e : Option ChanErr) : DecResult :=
  { pkt := acc, isPrefix := true, err := e }

end Sys2Proof.Machine
end

