-- ==== Sys2Proof/Machine/Operands.lean ====
section
/-! DEFINITION. Operand and result assembly (30_encoding.md R71 to R73, R82): byte stuffing, the frame of a
packet, unescaping, and the payload byte the encoder is at. -/

namespace Sys2Proof.Machine

/-- Byte stuffing (R72). -/
def stuff (b : Byte) : List Byte :=
  if b = END then [ESC, ESC_END]
  else if b = ESC then [ESC, ESC_ESC]
  else [b]

/-- The stuffed payload bytes of a packet, in order (R71). -/
def stuffAll (p : Packet) : List Byte := p.flatMap stuff

/-- The frame of a packet: END, the stuffed payload bytes, END (R71). -/
def frame (p : Packet) : Frame := [END] ++ stuffAll p ++ [END]

/-- The payload byte of an escape sequence ESC, `x` (R73). -/
def unescape (x : Byte) : Byte :=
  if x = ESC_END then END
  else if x = ESC_ESC then ESC
  else x

/-- `p[enc_i]`, the payload byte that selects the next stuffing step, if `enc_i < |p|` (R76, R83). -/
def Enc.payloadByte (e : Enc) : Option Byte :=
  match e.cur with
  | some (_, p) => p[e.i]?
  | none => none

/-- `enc_i = |p|`: every payload byte is stuffed (R83, ENC.CLOSE). -/
def Enc.atEnd (e : Enc) : Bool :=
  match e.cur with
  | some (_, p) => e.i == p.length
  | none => false

end Sys2Proof.Machine
end

