-- ==== Sys2Proof/Machine/Ops.lean ====
section
/-! DEFINITION. The operations the meanings share: the pending-request sets (10_state.md R25), issuing a
request, assembling into `fbuf`, appending to `acc`, and the two ways an operation ends with its response,
which stand where another machine takes an exception (60_exceptions.md R170, R171, R174, R177). -/

namespace Sys2Proof.Machine

/-- The outcome of a step of this machine. -/
abbrev Result := Host.Outcome State Fault Refusal

/-! ## Pending requests (R25; log entry 14) -/

/-- `enc_pend r <- some p`, keeping the requesters rising. -/
def pendSet (r : ReqId) (p : Packet) : List (ReqId × Packet) → List (ReqId × Packet)
  | [] => [(r, p)]
  | c :: t =>
    if r < c.1 then (r, p) :: c :: t
    else if r = c.1 then (r, p) :: t
    else c :: pendSet r p t

/-- `enc_pend r <- none`. -/
def pendClear (r : ReqId) (l : List (ReqId × Packet)) : List (ReqId × Packet) :=
  l.filter (fun c => c.1 != r)

/-- `dec_pend r <- true`, keeping the requesters rising. -/
def readPendSet (r : ReqId) : List ReqId → List ReqId
  | [] => [r]
  | k :: t =>
    if r < k then r :: k :: t
    else if r = k then k :: t
    else k :: readPendSet r t

/-- `dec_pend r <- false`. -/
def readPendClear (r : ReqId) (l : List ReqId) : List ReqId := l.filter (fun k => k != r)

/-- `enc_pend r`. -/
def Enc.pending (e : Enc) (r : ReqId) : Option Packet := e.pend.lookup r

/-- `dec_pend r`. -/
def Dec.pending (d : Dec) (r : ReqId) : Bool := d.pend.contains r

/-- Requester `r` has an ENCODE outstanding: pending or in service (R25). -/
def Enc.outstanding (e : Enc) (r : ReqId) : Bool :=
  (e.pending r).isSome || (e.cur.map Prod.fst == some r)

/-- Requester `r` has a READ_PACKET outstanding: pending or in service (R25). -/
def Dec.outstanding (d : Dec) (r : ReqId) : Bool := d.pending r || d.cur == some r

/-! ## Requests -/

/-- Requester `r` issues `ENC_REQ(r, p)`: allowed when it has none outstanding (R185, R188); a second one
has no move (I12), nor has a requester outside the set (R7). -/
def issueEncode (r : ReqId) (p : Packet) (s : State) : Result :=
  if !Config.isReqEnc r then .refused .unknownRequester
  else if s.enc.outstanding r then .refused .secondRequest
  else .next ((s.setEnc { s.enc with pend := pendSet r p s.enc.pend }).logEnc [.req r p])

/-- Requester `r` issues `DEC_REQ(r)` (R185, R188, I12, R7). -/
def issueRead (r : ReqId) (s : State) : Result :=
  if !Config.isReqDec r then .refused .unknownRequester
  else if s.dec.outstanding r then .refused .secondRequest
  else .next ((s.setDec { s.dec with pend := readPendSet r s.dec.pend }).logDec [.req r])

/-! ## ENC -/

/-- ENC between operations, its pending set kept (R24, R108, R109). -/
def Enc.toIdle (e : Enc) : Enc := { e with phase := .idle, cur := none, i := 0, fbuf := [] }

/-- The assembly buffer takes a new content, within its bound; past a finite bound the operation is
refused (R110, R114). -/
def assemble (bound : Option Nat) (e : Enc) (s : State) : Result :=
  if Config.fits bound e.fbuf.length then .next (s.setEnc e) else .refused .frameCapacity

/-- A stuffing step: in STUFF at payload byte `b`, `fbuf <- fbuf ++ out; enc_i <- enc_i + 1`
(R103, R104, R105). -/
def stuffByte (bound : Option Nat) (b : Byte) (out : List Byte) (s : State) : Result :=
  if s.enc.phase = .stuff ∧ s.enc.payloadByte = some b then
    assemble bound { s.enc with fbuf := s.enc.fbuf ++ out, i := s.enc.i + 1 } s
  else .refused .notSelected

/-- The end of an ENCODE: in WAIT, the write answered `w`, `respond(r, st)` and ENC is idle, empty, its
lock free (R108, R109, R177). -/
def finishEncode (w : WriteResp) (s : State) : Result :=
  match s.enc.cur with
  | none => .refused .notSelected
  | some (r, _) =>
    if s.enc.phase = .wait ∧ s.outAns.head? = some w then
      .next (((s.setEnc s.enc.toIdle).dropOutAns 1).logEnc [.answer w, .rsp r (statusOf w)])
    else .refused .notSelected

/-! ## DEC -/

/-- DEC between operations, its pending set kept (R24, R142). -/
def Dec.toIdle (d : Dec) : Dec := { d with phase := .idle, rd := false, cur := none, acc := [] }

/-- DEC in escape state `ph` has a read outstanding and the input channel answers it `x` (R83). -/
abbrev State.readAnswered (s : State) (ph : DecPhase) (x : ReadResp) : Prop :=
  s.dec.phase = ph ∧ s.dec.rd = true ∧ s.inAns.head? = some x

/-- The input channel's answer is taken (R51, R58) and DEC becomes `d`. -/
def takeAnswer (x : ReadResp) (d : Dec) (s : State) : State :=
  ((s.setDec d).dropInAns 1).logDec [.answer x]

/-- One decoded byte is appended, the read is over, and the escape state is NORMAL; past a finite bound
the operation is refused (R137, R139 to R141, R146). -/
def appendByte (bound : Option Nat) (b : Byte) (x : ReadResp) (s : State) : Result :=
  if Config.fits bound (s.dec.acc.length + 1) then
    .next (takeAnswer x { s.dec with acc := s.dec.acc ++ [b], rd := false, phase := .normal } s)
  else .refused .packetCapacity

/-- The end of a READ_PACKET: the answer `x` is taken, `respond(r, v)`, and DEC is idle, empty, its lock
free (R133, R135, R138, R142, R177). -/
def finishRead (v : DecResult) (x : ReadResp) (s : State) : Result :=
  match s.dec.cur with
  | none => .refused .notSelected
  | some r => .next ((takeAnswer x s.dec.toIdle s).logDec [.rsp r v])

/-! ## Histories of the ports -/

/-- The completed write transactions `(f, res)` of a history, in order (R57, D3), and the frame of the
write not yet answered, if there is one; `f` is the one unanswered before the history. -/
def writesFrom (f : Option Frame) : List EncEvent → List (Frame × WriteResp) × Option Frame
  | [] => ([], f)
  | .write g :: t => writesFrom (some g) t
  | .answer w :: t =>
    let rest := writesFrom none t
    match f with
    | some g => ((g, w) :: rest.1, rest.2)
    | none => rest
  | .req _ _ :: t => writesFrom f t
  | .accept _ _ :: t => writesFrom f t
  | .rsp _ _ :: t => writesFrom f t

/-- The completed write transactions of a run (R57). -/
def State.writes (s : State) : List (Frame × WriteResp) := (writesFrom none s.encLog).1

/-- What the wire received from completed writes: the whole frame after `OK` (R57); after `FAIL`, any
bytes at all, a free value numbered by the failed writes before it (D3, I4; log entry 13). -/
def wireFrom (n : Nat) : List (Frame × WriteResp) → List Byte
  | [] => []
  | (f, .ok) :: t => f ++ wireFrom n t
  | (_, .fail _) :: t => Config.freeWire n ++ wireFrom (n + 1) t

/-- The bytes on the output channel's wire after the answered writes of a run (R53, R57). The spec leaves
open what the wire holds of a write that is issued and not yet, or never, answered; this counts no byte
of it (DESIGN CHOICE, unsafe to rely on; log entry 26). -/
def State.wire (s : State) : List Byte := wireFrom 0 s.writes

end Sys2Proof.Machine
end

