-- ==== Sys2Proof/Machine/Decoder.lean ====
section
/-! DEFINITION. The steps of the decoder, 42_decoder.md R131 to R141: one definition per instruction. -/

namespace Sys2Proof.Machine

/-- DEC.ACCEPT (R131): take the pending request of `r`, acquire the lock, start empty in NORMAL. -/
def execDecAccept (r : ReqId) (s : State) : Result :=
  if s.dec.phase = .idle ∧ s.dec.pending r = true then
    .next ((s.setDec { phase := .normal, rd := false, cur := some r, acc := [],
                       pend := readPendClear r s.dec.pend }).logDec [.accept r])
  else .refused .notSelected

/-- DEC.READ (R132): issue one single-byte read. -/
def execDecRead (s : State) : Result :=
  if s.dec.phase ≠ .idle ∧ s.dec.rd = false then
    .next ((s.setDec { s.dec with rd := true }).logDec [.read])
  else .refused .notSelected

/-- DEC.N_FAIL (R133): the read in NORMAL failed or returned zero bytes. -/
def execDecNFail (e : Option ChanErr) (s : State) : Result :=
  if s.readAnswered .normal (.nodata e) then finishRead (prefixOf s.dec.acc e) (.nodata e) s
  else .refused .notSelected

/-- DEC.N_END_SKIP (R134): an END with nothing accumulated is discarded. -/
def execDecNEndSkip (s : State) : Result :=
  if s.readAnswered .normal (.data END) ∧ s.dec.acc = [] then
    .next (takeAnswer (.data END) { s.dec with rd := false } s)
  else .refused .notSelected

/-- DEC.N_END_DONE (R135): an END after payload completes the packet. -/
def execDecNEndDone (s : State) : Result :=
  if s.readAnswered .normal (.data END) ∧ s.dec.acc ≠ [] then
    finishRead (complete s.dec.acc) (.data END) s
  else .refused .notSelected

/-- DEC.N_ESC (R136): an ESC enters the escape state. -/
def execDecNEsc (s : State) : Result :=
  if s.readAnswered .normal (.data ESC) then
    .next (takeAnswer (.data ESC) { s.dec with rd := false, phase := .escaped } s)
  else .refused .notSelected

/-- DEC.N_LIT (R137): any other byte is appended. -/
def execDecNLit (b : Byte) (s : State) : Result :=
  if s.readAnswered .normal (.data b) ∧ b ≠ END ∧ b ≠ ESC then
    appendByte Config.maxPacket b (.data b) s
  else .refused .notSelected

/-- DEC.E_FAIL (R138): the read after ESC failed or returned zero bytes. -/
def execDecEFail (e : Option ChanErr) (s : State) : Result :=
  if s.readAnswered .escaped (.nodata e) then finishRead (prefixOf s.dec.acc e) (.nodata e) s
  else .refused .notSelected

/-- DEC.E_END (R139): ESC, ESC_END decodes to END. -/
def execDecEEnd (s : State) : Result :=
  if s.readAnswered .escaped (.data ESC_END) then
    appendByte Config.maxPacket END (.data ESC_END) s
  else .refused .notSelected

/-- DEC.E_ESC (R140): ESC, ESC_ESC decodes to ESC. -/
def execDecEEsc (s : State) : Result :=
  if s.readAnswered .escaped (.data ESC_ESC) then
    appendByte Config.maxPacket ESC (.data ESC_ESC) s
  else .refused .notSelected

/-- DEC.E_LIT (R141): ESC followed by any other byte, which passes through. -/
def execDecELit (b : Byte) (s : State) : Result :=
  if s.readAnswered .escaped (.data b) ∧ b ≠ ESC_END ∧ b ≠ ESC_ESC then
    appendByte Config.maxPacket b (.data b) s
  else .refused .notSelected

end Sys2Proof.Machine
end

