-- ==== Sys2Proof/Machine/Encoder.lean ====
section
/-! DEFINITION. The steps of the encoder, 41_encoder.md R101 to R109: one definition per instruction. -/

namespace Sys2Proof.Machine

/-- ENC.ACCEPT (R101): take the pending request of `r` and acquire the lock. -/
def execEncAccept (r : ReqId) (s : State) : Result :=
  match s.enc.pending r with
  | none => .refused .notSelected
  | some p =>
    if s.enc.phase = .idle then
      .next ((s.setEnc { phase := .opening, cur := some (r, p), i := 0, fbuf := [],
                         pend := pendClear r s.enc.pend }).logEnc [.accept r p])
    else .refused .notSelected

/-- ENC.OPEN (R102): `fbuf <- [0xC0]; enc_phase <- STUFF`. -/
def execEncOpen (s : State) : Result :=
  if s.enc.phase = .opening then
    assemble Config.maxFrame { s.enc with fbuf := [END], phase := .stuff } s
  else .refused .notSelected

/-- ENC.STUFF_END (R103): a payload END becomes ESC, ESC_END. -/
def execEncStuffEnd (s : State) : Result := stuffByte Config.maxFrame END [ESC, ESC_END] s

/-- ENC.STUFF_ESC (R104): a payload ESC becomes ESC, ESC_ESC. -/
def execEncStuffEsc (s : State) : Result := stuffByte Config.maxFrame ESC [ESC, ESC_ESC] s

/-- ENC.LIT (R105): any other payload byte is copied. -/
def execEncLit (b : Byte) (s : State) : Result :=
  if b = END ∨ b = ESC then .refused .notSelected else stuffByte Config.maxFrame b [b] s

/-- ENC.CLOSE (R106): `fbuf <- fbuf ++ [0xC0]; enc_phase <- CLOSE`. -/
def execEncClose (s : State) : Result :=
  if s.enc.phase = .stuff ∧ s.enc.atEnd = true then
    assemble Config.maxFrame { s.enc with fbuf := s.enc.fbuf ++ [END], phase := .close } s
  else .refused .notSelected

/-- ENC.WRITE (R107): issue `ChanWrite(fbuf)` and wait. -/
def execEncWrite (s : State) : Result :=
  if s.enc.phase = .close then
    .next ((s.setEnc { s.enc with phase := .wait }).logEnc [.write s.enc.fbuf])
  else .refused .notSelected

/-- ENC.DONE_OK (R108): the write succeeded. -/
def execEncDoneOk (s : State) : Result := finishEncode .ok s

/-- ENC.DONE_FAIL (R109): the write failed with `e`, passed through unchanged. -/
def execEncDoneFail (e : ChanErr) (s : State) : Result := finishEncode (.fail e) s

end Sys2Proof.Machine
end

