-- ==== Sys2Proof/Machine/Operation.lean ====
section
/-! DEFINITION. The two whole operations, ENC.ENCODE (41_encoder.md R100) and DEC.READ_PACKET (42_decoder.md
R130, in the functional form R149), each run in one step as far as the channel answers (log entry 9). -/

namespace Sys2Proof.Machine

/-! ## ENC.ENCODE -/

/-- The operation of R100 once ENC is idle: assemble the frame, write it once, and respond with the
write's answer; with no answer, ENC stays in WAIT holding its lock (R112, R200). -/
def encodeIdle (bound : Option Nat) (r : ReqId) (p : Packet) (s : State) : Result :=
  if Config.fits bound (frame p).length then
    match s.outAns with
    | [] =>
      .next ((s.setEnc { s.enc with phase := .wait, cur := some (r, p), i := p.length,
                                    fbuf := frame p }).logEnc
        [.req r p, .accept r p, .write (frame p)])
    | w :: _ =>
      .next (((s.setEnc s.enc.toIdle).dropOutAns 1).logEnc
        [.req r p, .accept r p, .write (frame p), .answer w, .rsp r (statusOf w)])
  else .refused .frameCapacity

/-- ENCODE under a bound on the frame: while the lock is held the request queues (R101, R112); a second
request of a requester, or one of an unknown requester, has no move (I12, R7). -/
def encodeWhole (bound : Option Nat) (r : ReqId) (p : Packet) (s : State) : Result :=
  match issueEncode r p s with
  | .next t => if s.enc.phase = .idle then encodeIdle bound r p s else .next t
  | .fault f => .fault f
  | .refused x => .refused x

/-- ENC.ENCODE (R100): "Encode(packet) → error". -/
def execEncEncode (r : ReqId) (p : Packet) (s : State) : Result :=
  encodeWhole Config.maxFrame r p s

/-! ## DEC.READ_PACKET -/

/-- How a READ_PACKET goes on a sequence of read answers (R149): it responds after `k` reads; or the
answers run out with `acc` gathered in escape state `ph` after `k` reads; or `acc` would exceed the
bound (R146). -/
inductive RpResult where
  | done (v : DecResult) (k : Nat)
  | blocked (acc : Packet) (ph : DecPhase) (k : Nat)
  | overflow
  deriving DecidableEq, Repr

/-- The function `rp` of R149, with the bound of R146. -/
def rp (bound : Option Nat) (acc : Packet) (ph : DecPhase) : List ReadResp → Nat → RpResult
  | [], k => .blocked acc ph k
  | .nodata e :: _, k => .done (prefixOf acc e) (k + 1)
  | .data b :: t, k =>
    if ph = .normal then
      if b = END then
        if acc = [] then rp bound [] .normal t (k + 1) else .done (complete acc) (k + 1)
      else if b = ESC then rp bound acc .escaped t (k + 1)
      else if Config.fits bound (acc.length + 1) then rp bound (acc ++ [b]) .normal t (k + 1)
      else .overflow
    else if Config.fits bound (acc.length + 1) then
      rp bound (acc ++ [unescape b]) .normal t (k + 1)
    else .overflow

/-- The transactions of answered reads on the input channel. -/
def readEvents (xs : List ReadResp) : List DecEvent := xs.flatMap (fun x => [.read, .answer x])

/-- The operation of R130 once DEC is idle, in the form of R149; with no answer left, DEC has a read
outstanding and holds its lock (R145, R200). -/
def readIdle (bound : Option Nat) (r : ReqId) (s : State) : Result :=
  match rp bound [] .normal s.inAns 0 with
  | .done v k =>
    .next (((s.setDec s.dec.toIdle).dropInAns k).logDec
      ([.req r, .accept r] ++ readEvents (s.inAns.take k) ++ [.rsp r v]))
  | .blocked acc ph k =>
    .next (((s.setDec { s.dec with phase := ph, rd := true, cur := some r,
                                   acc := acc }).dropInAns k).logDec
      ([.req r, .accept r] ++ readEvents (s.inAns.take k) ++ [.read]))
  | .overflow => .refused .packetCapacity

/-- READ_PACKET under a bound on the packet: while the lock is held the request queues (R131, R145); a
second request of a requester, or one of an unknown requester, has no move (I12, R7). -/
def readWhole (bound : Option Nat) (r : ReqId) (s : State) : Result :=
  match issueRead r s with
  | .next t => if s.dec.phase = .idle then readIdle bound r s else .next t
  | .fault f => .fault f
  | .refused x => .refused x

/-- DEC.READ_PACKET (R130): "ReadPacket() → (packet, isPrefix, error)". -/
def execDecReadPacket (r : ReqId) (s : State) : Result := readWhole Config.maxPacket r s

end Sys2Proof.Machine
end

