-- ==== Sys2Proof/Machine/Dispatch.lean ====
section
/-! DEFINITION. One arm per instruction: its meaning. -/

namespace Sys2Proof.Machine

/-- What an instruction does in a state. -/
def exec (i : Instr) (s : State) : Host.Outcome State Fault Refusal :=
  match i with
  -- 41_encoder.md
  | .encEncode r p => Sys2Proof.Machine.execEncEncode r p s
  | .encAccept r => Sys2Proof.Machine.execEncAccept r s
  | .encOpen => Sys2Proof.Machine.execEncOpen s
  | .encStuffEnd => Sys2Proof.Machine.execEncStuffEnd s
  | .encStuffEsc => Sys2Proof.Machine.execEncStuffEsc s
  | .encLit b => Sys2Proof.Machine.execEncLit b s
  | .encClose => Sys2Proof.Machine.execEncClose s
  | .encWrite => Sys2Proof.Machine.execEncWrite s
  | .encDoneOk => Sys2Proof.Machine.execEncDoneOk s
  | .encDoneFail e => Sys2Proof.Machine.execEncDoneFail e s
  -- 42_decoder.md
  | .decReadPacket r => Sys2Proof.Machine.execDecReadPacket r s
  | .decAccept r => Sys2Proof.Machine.execDecAccept r s
  | .decRead => Sys2Proof.Machine.execDecRead s
  | .decNFail e => Sys2Proof.Machine.execDecNFail e s
  | .decNEndSkip => Sys2Proof.Machine.execDecNEndSkip s
  | .decNEndDone => Sys2Proof.Machine.execDecNEndDone s
  | .decNEsc => Sys2Proof.Machine.execDecNEsc s
  | .decNLit b => Sys2Proof.Machine.execDecNLit b s
  | .decEFail e => Sys2Proof.Machine.execDecEFail e s
  | .decEEnd => Sys2Proof.Machine.execDecEEnd s
  | .decEEsc => Sys2Proof.Machine.execDecEEsc s
  | .decELit b => Sys2Proof.Machine.execDecELit b s

end Sys2Proof.Machine
end

