-- ==== Sys2Proof/Machine/Fetch.lean ====
section
/-! DEFINITION. What takes the place of fetching an instruction: the control state of an agent, and the
response or byte it is at, select its next step (10_state.md R27, 30_encoding.md R83). -/

namespace Sys2Proof.Machine

/-- What ENC's control state selects inside an operation, if anything: nothing while it is idle or its
write is unanswered (R27, R83, R187). -/
def State.selectEnc (s : State) : Option Select :=
  match s.enc.phase with
  | .idle => none
  | .opening => some .encOpened
  | .stuff =>
    match s.enc.payloadByte with
    | some b => some (.encByte b)
    | none => if s.enc.atEnd then some .encAtEnd else none
  | .close => some .encClosed
  | .write => none
  | .wait =>
    match s.enc.cur, s.outAns with
    | some _, w :: _ => some (.encAnswer w)
    | _, _ => none

/-- What DEC's control state selects inside an operation, if anything: nothing while it is idle or its
read is unanswered (R27, R83, R187). A responding step needs the requester it answers (R23: `dec_cur`
is some requester outside IDLE). -/
def State.selectDec (s : State) : Option Select :=
  match s.dec.phase, s.dec.cur with
  | .normal, some _ =>
    if s.dec.rd then s.inAns.head?.map (.decNormal s.dec.acc.isEmpty) else some .decUnread
  | .escaped, some _ =>
    if s.dec.rd then s.inAns.head?.map .decEscaped else some .decUnread
  | .idle, _ => none
  | .normal, none => none
  | .escaped, none => none

/-- What a scheduled move selects: a request selects its whole operation, a choice its ACCEPT, an agent
the step of its control state. Issuing a request is the requester's own act and no step (R185). -/
def State.select (s : State) : Move → Option Select
  | .issueEncode _ _ => none
  | .issueRead _ => none
  | .encode r p => some (.encRequest r p)
  | .readPacket r => some (.decRequest r)
  | .encAccept r =>
    if s.enc.phase = .idle ∧ (s.enc.pending r).isSome then some (.encPending r) else none
  | .decAccept r =>
    if s.dec.phase = .idle ∧ s.dec.pending r = true then some (.decPending r) else none
  | .enc => s.selectEnc
  | .dec => s.selectDec

/-- One scheduled move. A requester issues its request; else the step the move selects runs; where it
selects none, the agent waits and its state survives (R187, R200; log entry 3). -/
def runMove (m : Move) (s : State) : Result :=
  match m with
  | .issueEncode r p => issueEncode r p s
  | .issueRead r => issueRead r s
  | .encode r p => runSelected (s.select (.encode r p)) s
  | .readPacket r => runSelected (s.select (.readPacket r)) s
  | .encAccept r => runSelected (s.select (.encAccept r)) s
  | .decAccept r => runSelected (s.select (.decAccept r)) s
  | .enc => runSelected (s.select .enc) s
  | .dec => runSelected (s.select .dec) s
where
  /-- Run the step a selection decodes to, or wait. -/
  runSelected (x : Option Select) (s : State) : Result :=
    match x with
    | some x => exec (decode x) s
    | none => .next s

/-- ENC placed so that payload byte `b` is next: in STUFF at index 0 of the packet `[b]` of requester 0. -/
def placePayloadByte (b : Byte) (e : Enc) : Enc :=
  { e with phase := .stuff, cur := some (0, [b]), i := 0, fbuf := [END] }

/-- DEC placed in escape state `ph` with a read outstanding for requester 0. -/
def placeRead (ph : DecPhase) (d : Dec) : Dec := { d with phase := ph, rd := true, cur := some 0 }

/-- The state in which the byte selection `x` is what the very next step runs (log entries 15, 16). -/
def State.place (s : State) (x : Select) : State :=
  match x with
  | .encByte b => (s.setEnc (placePayloadByte b s.enc)).setSched (.enc :: s.sched)
  | .decEscaped y =>
    { s.setSched (.dec :: s.sched) with dec := placeRead .escaped s.dec, inAns := y :: s.inAns }
  | _ => s

/-- Place the instruction of a table word (see `decodeTableWord`); a word it does not read changes
nothing. -/
def placeTableWord (s : State) (nbits w : Nat) : State :=
  if nbits = 8 ∧ w < 256 then s.place (tableSelect (BitVec.ofNat 8 w)) else s

end Sys2Proof.Machine
end

