-- ==== Sys2Proof/Machine/Step.lean ====
section
/-! DEFINITION. One step of the machine: the next scheduled move (log entry 2). -/

namespace Sys2Proof.Machine

/-- One step: the first scheduled move runs. With none scheduled nothing moves and all state survives
(60_exceptions.md R187). -/
def step (s : State) : Host.Outcome State Fault Refusal :=
  match s.sched with
  | [] => .next s
  | m :: ms => runMove m (s.setSched ms)

/-- `s` with the instruction of a table word placed so that the very next step runs it (log entries 15, 16). -/
def State.withFetchWord (s : State) (nbits w : Nat) : State := placeTableWord s nbits w

end Sys2Proof.Machine
end

