-- ==== Sys2Proof/Safety.lean ====
section
/-! DEFINITION. The invariants of the machine: the legal values of the state elements (10_state.md R21 to R25,
R27), and what the port histories say about the operations so far (20_memory.md R59 to R61, 41_encoder.md R111,
R113, 42_decoder.md R144, R149). -/

namespace Sys2Proof.Machine

/-! ## Legal states -/

/-- The legal values of `enc_cur`, `enc_i` and `fbuf` in each phase (R21, R24, R27): `fbuf` holds END and
the stuffed bytes so far, then the whole frame (R102 to R106). No run is in WRITE (R27). -/
def Enc.control (e : Enc) : Bool :=
  match e.phase, e.cur with
  | .idle, none => e.i == 0 && e.fbuf == []
  | .opening, some _ => e.i == 0 && e.fbuf == []
  | .stuff, some (_, p) => decide (e.i ≤ p.length) && e.fbuf == [END] ++ stuffAll (p.take e.i)
  | .close, some (_, p) => e.i == p.length && e.fbuf == frame p
  | .wait, some (_, p) => e.i == p.length && e.fbuf == frame p
  | _, _ => false

/-- ENC is in a legal state: its control state, its pending requests, and at most one outstanding request
of each requester, all of `Req_ENC` (R7, R21, R25). -/
abbrev Enc.Legal (e : Enc) : Prop :=
  e.control = true ∧ e.pend.Pairwise (fun a b => a.1 < b.1) ∧
    (∀ c ∈ e.pend, Config.isReqEnc c.1 = true) ∧
    (∀ c ∈ e.cur, Config.isReqEnc c.1 = true ∧ e.pending c.1 = none)

/-- The legal values of `dec_rd`, `dec_cur` and `acc` in each phase (R23, R24). -/
def Dec.control (d : Dec) : Bool :=
  match d.phase, d.cur with
  | .idle, none => d.rd == false && d.acc == []
  | .normal, some _ => true
  | .escaped, some _ => true
  | _, _ => false

/-- DEC is in a legal state (R7, R23, R25). -/
abbrev Dec.Legal (d : Dec) : Prop :=
  d.control = true ∧ d.pend.Pairwise (fun a b => a < b) ∧
    (∀ r ∈ d.pend, Config.isReqDec r = true) ∧
    (∀ r ∈ d.cur, Config.isReqDec r = true ∧ d.pending r = false)

/-- The invariant of the machine: both agents are in legal states. It says nothing about the environment,
so it holds whatever the channels answer and whatever is scheduled (R188). -/
abbrev State.Inv (s : State) : Prop := s.enc.Legal ∧ s.dec.Legal

/-- The move is one its maker may make (R185, R188): an issued request is by a requester of the set with
none outstanding. Every other move is always allowed. -/
def State.allows (s : State) : Move → Bool
  | .issueEncode r _ => Config.isReqEnc r && !s.enc.outstanding r
  | .encode r _ => Config.isReqEnc r && !s.enc.outstanding r
  | .issueRead r => Config.isReqDec r && !s.dec.outstanding r
  | .readPacket r => Config.isReqDec r && !s.dec.outstanding r
  | .encAccept _ => true
  | .decAccept _ => true
  | .enc => true
  | .dec => true

/-! ## What a history says about ENC -/

/-- The operations ENC has accepted, in order. -/
def acceptedOps : List EncEvent → List (ReqId × Packet)
  | [] => []
  | .accept r p :: t => (r, p) :: acceptedOps t
  | .req _ _ :: t => acceptedOps t
  | .write _ :: t => acceptedOps t
  | .answer _ :: t => acceptedOps t
  | .rsp _ _ :: t => acceptedOps t

/-- The frames ENC has issued, in order. -/
def issuedFrames : List EncEvent → List Frame
  | [] => []
  | .write f :: t => f :: issuedFrames t
  | .req _ _ :: t => issuedFrames t
  | .accept _ _ :: t => issuedFrames t
  | .answer _ :: t => issuedFrames t
  | .rsp _ _ :: t => issuedFrames t

/-- The answers ENC's writes have got, in order. -/
def writeAnswers : List EncEvent → List WriteResp
  | [] => []
  | .answer w :: t => w :: writeAnswers t
  | .req _ _ :: t => writeAnswers t
  | .accept _ _ :: t => writeAnswers t
  | .write _ :: t => writeAnswers t
  | .rsp _ _ :: t => writeAnswers t

/-- The responses ENC has given, in order. -/
def encReplies : List EncEvent → List (ReqId × EncStatus)
  | [] => []
  | .rsp r st :: t => (r, st) :: encReplies t
  | .req _ _ :: t => encReplies t
  | .accept _ _ :: t => encReplies t
  | .write _ :: t => encReplies t
  | .answer _ :: t => encReplies t

/-- The operation in service has issued its write: the phase is WAIT. -/
def Enc.written (e : Enc) : List (ReqId × Packet) := if e.phase = .wait then e.cur.toList else []

/-- ENC's history is that of whole operations in order of acceptance (R60, R111, R112, R113): with `done`
the operations that have responded, the accepted ones are `done` and the one in service; exactly the
frames of `done`, and of the one in service once it waits, were written, each once; and each operation
of `done` got one answer to its one write, and one response, to its own requester, with that status. -/
def State.EncHistory (s : State) : Prop :=
  ∃ done : List (ReqId × Packet),
    acceptedOps s.encLog = done ++ s.enc.cur.toList ∧
    issuedFrames s.encLog = (done ++ s.enc.written).map (fun c => frame c.2) ∧
    writesFrom none s.encLog =
      ((done.map (fun c => frame c.2)).zip (writeAnswers s.encLog),
        (s.enc.written.map (fun c => frame c.2)).head?) ∧
    encReplies s.encLog = (done.map Prod.fst).zip ((writeAnswers s.encLog).map statusOf) ∧
    (writeAnswers s.encLog).length = done.length

/-! ## What a history says about DEC -/

/-- The requesters whose READ_PACKET DEC has accepted, in order. -/
def acceptedReads : List DecEvent → List ReqId
  | [] => []
  | .accept r :: t => r :: acceptedReads t
  | .req _ :: t => acceptedReads t
  | .read :: t => acceptedReads t
  | .answer _ :: t => acceptedReads t
  | .rsp _ _ :: t => acceptedReads t

/-- The number of reads DEC has issued. -/
def issuedReads : List DecEvent → Nat
  | [] => 0
  | .read :: t => issuedReads t + 1
  | .req _ :: t => issuedReads t
  | .accept _ :: t => issuedReads t
  | .answer _ :: t => issuedReads t
  | .rsp _ _ :: t => issuedReads t

/-- The answers DEC's reads have got, in order. -/
def readAnswers : List DecEvent → List ReadResp
  | [] => []
  | .answer x :: t => x :: readAnswers t
  | .req _ :: t => readAnswers t
  | .accept _ :: t => readAnswers t
  | .read :: t => readAnswers t
  | .rsp _ _ :: t => readAnswers t

/-- The responses DEC has given, in order. -/
def decReplies : List DecEvent → List (ReqId × DecResult)
  | [] => []
  | .rsp r v :: t => (r, v) :: decReplies t
  | .req _ :: t => decReplies t
  | .accept _ :: t => decReplies t
  | .read :: t => decReplies t
  | .answer _ :: t => decReplies t

/-- What a decoder makes of a stream of read answers, read from `acc` and escape state `ph` on: the
results in order, and the bytes and escape state left over (R77, R78, one answer at a time). -/
def decodeStream (acc : Packet) (ph : DecPhase) : List ReadResp → List DecResult × Packet × DecPhase
  | [] => ([], acc, ph)
  | .nodata e :: t =>
    let rest := decodeStream [] .normal t
    (prefixOf acc e :: rest.1, rest.2)
  | .data b :: t =>
    if ph = .escaped then decodeStream (acc ++ [unescape b]) .normal t
    else if b = END then
      if acc = [] then decodeStream [] .normal t
      else
        let rest := decodeStream [] .normal t
        (complete acc :: rest.1, rest.2)
    else if b = ESC then decodeStream acc .escaped t
    else decodeStream (acc ++ [b]) .normal t

/-- The escape state of a decoder: ESCAPED, or NORMAL, in which every operation starts (R22, R131). -/
def Dec.escape (d : Dec) : DecPhase := if d.phase = .escaped then .escaped else .normal

/-- DEC's history is that of whole operations over one stream (R59, R61, R82, R144): its results are what
the stream of answers decodes to, in order, with `acc` and the escape state the bytes left over; each
went to the requester accepted for it; and every read but an outstanding one has been answered. -/
def State.DecHistory (s : State) : Prop :=
  decodeStream [] .normal (readAnswers s.decLog)
      = ((decReplies s.decLog).map Prod.snd, s.dec.acc, s.dec.escape) ∧
    acceptedReads s.decLog = (decReplies s.decLog).map Prod.fst ++ s.dec.cur.toList ∧
    issuedReads s.decLog = (readAnswers s.decLog).length + (if s.dec.rd then 1 else 0)

/-! ## Renaming payload bytes -/

/-- A renaming of bytes that keeps the four reserved values apart from all others (R6). -/
def KeepsReserved (f : Byte → Byte) : Prop :=
  ∀ b, (f b = END ↔ b = END) ∧ (f b = ESC ↔ b = ESC) ∧ (f b = ESC_END ↔ b = ESC_END) ∧
    (f b = ESC_ESC ↔ b = ESC_ESC)

/-- A read answer with its byte renamed. -/
def renameAnswer (f : Byte → Byte) : ReadResp → ReadResp
  | .data b => .data (f b)
  | .nodata e => .nodata e

/-- The outcome of a READ_PACKET with its bytes renamed. -/
def renameOutcome (f : Byte → Byte) : RpResult → RpResult
  | .done v k => .done { v with pkt := v.pkt.map f } k
  | .blocked acc ph k => .blocked (acc.map f) ph k
  | .overflow => .overflow

/-! ## Renaming channel errors -/

/-- A write answer with its error renamed. -/
def renameWriteErr (f : ChanErr → ChanErr) : WriteResp → WriteResp
  | .ok => .ok
  | .fail e => .fail (f e)

/-- A read answer with its error renamed. -/
def renameReadErr (f : ChanErr → ChanErr) : ReadResp → ReadResp
  | .data b => .data b
  | .nodata e => .nodata (e.map f)

/-- The status of an ENCODE with its error renamed. -/
def renameStatusErr (f : ChanErr → ChanErr) : EncStatus → EncStatus
  | .ok => .ok
  | .fail e => .fail (f e)

/-- The result of a READ_PACKET with its error renamed. -/
def renameResultErr (f : ChanErr → ChanErr) (v : DecResult) : DecResult :=
  { v with err := v.err.map f }

/-- A transaction of ENC with its error renamed. -/
def EncEvent.renameErr (f : ChanErr → ChanErr) : EncEvent → EncEvent
  | .req r p => .req r p
  | .accept r p => .accept r p
  | .write g => .write g
  | .answer w => .answer (renameWriteErr f w)
  | .rsp r st => .rsp r (renameStatusErr f st)

/-- A transaction of DEC with its error renamed. -/
def DecEvent.renameErr (f : ChanErr → ChanErr) : DecEvent → DecEvent
  | .req r => .req r
  | .accept r => .accept r
  | .read => .read
  | .answer x => .answer (renameReadErr f x)
  | .rsp r v => .rsp r (renameResultErr f v)

/-- The state with every channel error in it renamed: in the answers to come and in the histories. The
elements of the core hold no error (R21, R23, R180). -/
def State.renameErr (f : ChanErr → ChanErr) (s : State) : State :=
  { s with
    outAns := s.outAns.map (renameWriteErr f), inAns := s.inAns.map (renameReadErr f)
    encLog := s.encLog.map (EncEvent.renameErr f), decLog := s.decLog.map (DecEvent.renameErr f) }

/-! ## The two sides -/

/-- Everything ENC's steps read and write: its elements, its channel's answers, its history (R26, R62). -/
abbrev State.encSide (s : State) : Enc × List WriteResp × List EncEvent := (s.enc, s.outAns, s.encLog)

/-- Everything DEC's steps read and write: its elements, its channel's answers, its history (R26, R62). -/
abbrev State.decSide (s : State) : Dec × List ReadResp × List DecEvent := (s.dec, s.inAns, s.decLog)

/-- The phase changes R27 lists for ENC, with the step that makes each. -/
def encTransition : Instr → EncPhase → EncPhase → Bool
  | .encAccept _, .idle, .opening => true
  | .encOpen, .opening, .stuff => true
  | .encStuffEnd, .stuff, .stuff => true
  | .encStuffEsc, .stuff, .stuff => true
  | .encLit _, .stuff, .stuff => true
  | .encClose, .stuff, .close => true
  | .encWrite, .close, .wait => true
  | .encDoneOk, .wait, .idle => true
  | .encDoneFail _, .wait, .idle => true
  | _, _, _ => false

/-- The changes of phase and `dec_rd` that R27 lists for DEC, with the step that makes each. -/
def decTransition : Instr → DecPhase × Bool → DecPhase × Bool → Bool
  | .decAccept _, (.idle, _), (.normal, false) => true
  | .decRead, (.normal, false), (.normal, true) => true
  | .decRead, (.escaped, false), (.escaped, true) => true
  | .decNEndSkip, (.normal, true), (.normal, false) => true
  | .decNLit _, (.normal, true), (.normal, false) => true
  | .decNEsc, (.normal, true), (.escaped, false) => true
  | .decNFail _, (.normal, true), (.idle, false) => true
  | .decNEndDone, (.normal, true), (.idle, false) => true
  | .decEEnd, (.escaped, true), (.normal, false) => true
  | .decEEsc, (.escaped, true), (.normal, false) => true
  | .decELit _, (.escaped, true), (.normal, false) => true
  | .decEFail _, (.escaped, true), (.idle, false) => true
  | _, _, _ => false

end Sys2Proof.Machine
end

