-- ==== Sys2Proof/Certificates/Slice0/Obligations.lean ====
section
/-! DEFINITION. The statements about the SLIP codec core, each from the rules its docstring cites. -/

open Sys2Proof Sys2Proof.Machine

/-! ## Encoding -/

/-- R83, R76 to R78: decoding what an instruction encodes to gives it back, operands and all, for every row
of the table; encoding what a selection decodes to gives the selection back, up to the `acc = []` that
only the END rows look at; and a legal selection decodes to an instruction with legal operands. -/
def Obligations.DecodeEncodeAgree : Prop :=
  (∀ i : Instr, i.wf = true → decode (encode i) = i) ∧
  (∀ x : Select, encode (decode x) = x.canonical) ∧
  (∀ x : Select, x.wf = true → (decode x).wf = true)

/-- R76, R77, R78, R83: of the byte rows of spec/opcode_table.json (match, mask, excludes, condition), in
each of the three formats every byte matches exactly one, and it is the row the decoder selects. -/
def Obligations.EachByteHitsOneRow : Prop :=
  ∀ (b : Byte) (e : Bool),
    (byteRows.filter (fun row => row.hits .encByte e b)).map (fun row => row.instr b)
      = [decode (.encByte b)] ∧
    (byteRows.filter (fun row => row.hits .decNormal e b)).map (fun row => row.instr b)
      = [decode (.decNormal e (.data b))] ∧
    (byteRows.filter (fun row => row.hits .decEscaped e b)).map (fun row => row.instr b)
      = [decode (.decEscaped (.data b))]

/-- R76, R77, R78: words written out from the table decode to the instructions they stand for. -/
def Obligations.WrittenWordsDecode : Prop :=
  decode (.encByte 0b11000000#8) = .encStuffEnd ∧ decode (.encByte 0b11011011#8) = .encStuffEsc ∧
  decode (.encByte 0b11011100#8) = .encLit 0xDC#8 ∧
  decode (.decNormal true (.data 0b11000000#8)) = .decNEndSkip ∧
  decode (.decNormal false (.data 0b11000000#8)) = .decNEndDone ∧
  decode (.decNormal true (.data 0b11011011#8)) = .decNEsc ∧
  decode (.decNormal true (.data 0b11011101#8)) = .decNLit 0xDD#8 ∧
  decode (.decEscaped (.data 0b11011100#8)) = .decEEnd ∧
  decode (.decEscaped (.data 0b11011101#8)) = .decEEsc ∧
  decode (.decEscaped (.data 0b11000000#8)) = .decELit 0xC0#8

/-- R74: the length of a frame, its minimum, and its maximum for a packet of a length with the case that
attains it. -/
def Obligations.FrameLengthFormula : Prop :=
  (∀ p : Packet,
    (frame p).length = 2 + p.length + p.count 0xC0#8 + p.count 0xDB#8 ∧
    2 ≤ (frame p).length ∧ (frame p).length ≤ 2 + 2 * p.length ∧
    ((∀ b ∈ p, b = 0xC0#8 ∨ b = 0xDB#8) → (frame p).length = 2 + 2 * p.length)) ∧
  (frame []).length = 2

/-- R75: a frame begins and ends with END and holds no other; every ESC in it begins an escape pair inside;
its payload is recovered without ambiguity; 0xDC and 0xDD stand in it as literals anywhere. -/
def Obligations.FrameStructure : Prop :=
  (∀ p : Packet,
    (frame p)[0]? = some 0xC0#8 ∧ (frame p)[(frame p).length - 1]? = some 0xC0#8 ∧
    (∀ i, (frame p)[i]? = some 0xC0#8 → i = 0 ∨ i = (frame p).length - 1) ∧
    (∀ i, (frame p)[i]? = some 0xDB#8 → 0 < i ∧ i < (frame p).length - 2 ∧
      ((frame p)[i + 1]? = some 0xDC#8 ∨ (frame p)[i + 1]? = some 0xDD#8))) ∧
  (∀ p q : Packet, stuffAll p = stuffAll q → p = q) ∧
  (∀ (p q : Packet) (b : Byte), b = 0xDC#8 ∨ b = 0xDD#8 →
    frame (p ++ [b] ++ q) = [0xC0#8] ++ stuffAll p ++ [b] ++ stuffAll q ++ [0xC0#8])

/-! ## The steps of ENC -/

/-- R101 ENC.ACCEPT: any pending request may be taken while ENC is idle; its packet is latched and it is
pending no more. While ENC is not idle the step is not enabled, which is the lock; that a step not enabled
is refused under the name notSelected is the model's choice (log entry 10). -/
def Obligations.EncAcceptLatchesAnyPendingRequest : Prop :=
  ∀ (s : State) (r : ReqId),
    (∀ p, s.enc.phase = .idle → s.enc.pending r = some p →
      ∃ t, exec (.encAccept r) s = .next t ∧ t.enc.phase = .opening ∧ t.enc.cur = some (r, p) ∧
        t.enc.i = 0 ∧ t.enc.fbuf = [] ∧ t.enc.pending r = none ∧
        (∀ r', r' ≠ r → t.enc.pending r' = s.enc.pending r') ∧
        t.encLog = s.encLog ++ [.accept r p] ∧ t.outAns = s.outAns ∧ t.decSide = s.decSide ∧
        t.sched = s.sched) ∧
    (s.enc.phase ≠ .idle → exec (.encAccept r) s = .refused .notSelected) ∧
    (s.enc.pending r = none → exec (.encAccept r) s = .refused .notSelected)

/-- R102 ENC.OPEN: for every packet, `fbuf <- [0xC0]; enc_phase <- STUFF`, and nothing else changes. -/
def Obligations.EncOpenEmitsLeadingEnd : Prop :=
  ∀ s : State, s.enc.phase = .opening →
    exec .encOpen s = .next { s with enc := { s.enc with fbuf := [0xC0#8], phase := .stuff } }

/-- R103 ENC.STUFF_END: at a payload END, `fbuf <- fbuf ++ [0xDB, 0xDC]; enc_i <- enc_i + 1`, and nothing
else changes. -/
def Obligations.EncStuffEndEscapesEnd : Prop :=
  ∀ (s : State) (r : ReqId) (p : Packet), s.enc.phase = .stuff → s.enc.cur = some (r, p) →
    p[s.enc.i]? = some 0xC0#8 →
    exec .encStuffEnd s =
      .next { s with enc := { s.enc with fbuf := s.enc.fbuf ++ [0xDB#8, 0xDC#8],
                                         i := s.enc.i + 1 } }

/-- R104 ENC.STUFF_ESC: at a payload ESC, `fbuf <- fbuf ++ [0xDB, 0xDD]; enc_i <- enc_i + 1`, and nothing
else changes. -/
def Obligations.EncStuffEscEscapesEsc : Prop :=
  ∀ (s : State) (r : ReqId) (p : Packet), s.enc.phase = .stuff → s.enc.cur = some (r, p) →
    p[s.enc.i]? = some 0xDB#8 →
    exec .encStuffEsc s =
      .next { s with enc := { s.enc with fbuf := s.enc.fbuf ++ [0xDB#8, 0xDD#8],
                                         i := s.enc.i + 1 } }

/-- R105 ENC.LIT: any other payload byte, 0xDC and 0xDD among them, is copied:
`fbuf <- fbuf ++ [b]; enc_i <- enc_i + 1`, and nothing else changes. -/
def Obligations.EncLitCopiesOtherByte : Prop :=
  ∀ (s : State) (r : ReqId) (p : Packet) (b : Byte), s.enc.phase = .stuff →
    s.enc.cur = some (r, p) → p[s.enc.i]? = some b → b ≠ 0xC0#8 → b ≠ 0xDB#8 →
    exec (.encLit b) s =
      .next { s with enc := { s.enc with fbuf := s.enc.fbuf ++ [b], i := s.enc.i + 1 } }

/-- R106 ENC.CLOSE: with every payload byte stuffed (none for the empty packet),
`fbuf <- fbuf ++ [0xC0]; enc_phase <- CLOSE`, and nothing else changes. -/
def Obligations.EncCloseEmitsTrailingEnd : Prop :=
  ∀ (s : State) (r : ReqId) (p : Packet), s.enc.phase = .stuff → s.enc.cur = some (r, p) →
    s.enc.i = p.length →
    exec .encClose s =
      .next { s with enc := { s.enc with fbuf := s.enc.fbuf ++ [0xC0#8], phase := .close } }

/-- R107 ENC.WRITE: the whole frame is issued in one write and ENC waits; nothing else changes. In no other
phase does the step run (it is refused as notSelected, the model's choice, log entry 10), no other step of
ENC issues a write, and while the write is unanswered ENC goes on waiting, its lock held. -/
def Obligations.EncWriteIssuesWholeFrame : Prop :=
  ∀ s : State,
    (s.enc.phase = .close →
      exec .encWrite s =
        .next { s with enc := { s.enc with phase := .wait },
                       encLog := s.encLog ++ [.write s.enc.fbuf] }) ∧
    (s.enc.phase ≠ .close → exec .encWrite s = .refused .notSelected) ∧
    (∀ i t, i.isEncStep = true → i ≠ .encWrite → exec i s = .next t →
      t.encLog = s.encLog ∨ ∃ w r st, t.encLog = s.encLog ++ [.answer w, .rsp r st]) ∧
    (∀ t, s.enc.phase = .wait → s.outAns = [] → step s = .next t →
      t.enc = { s.enc with pend := t.enc.pend } ∧ t.outAns = [])

/-- R108 ENC.DONE_OK: `respond(r, OK)`, ENC is idle and empty, nothing else changes but the answer taken; the
lock is released, so the next ACCEPT may take any pending request. -/
def Obligations.EncDoneOkResponds : Prop :=
  ∀ (s : State) (r : ReqId) (p : Packet) (rest : List WriteResp), s.enc.phase = .wait →
    s.enc.cur = some (r, p) → s.outAns = .ok :: rest →
    ∃ t, exec .encDoneOk s = .next t ∧
      t = { s with enc := { phase := .idle, cur := none, i := 0, fbuf := [], pend := s.enc.pend },
                   outAns := rest, encLog := s.encLog ++ [.answer .ok, .rsp r .ok] } ∧
      ∀ r' q, t.enc.pending r' = some q → ∃ u, exec (.encAccept r') t = .next u

/-- R109 ENC.DONE_FAIL: `respond(r, FAIL(e))` with `e` unchanged, ENC is idle and empty, the frame is neither
kept nor rewritten; ENC is not left in an error state, so the next request is served normally. -/
def Obligations.EncDoneFailRespondsUnchanged : Prop :=
  ∀ (s : State) (r : ReqId) (p : Packet) (e : ChanErr) (rest : List WriteResp),
    s.enc.phase = .wait → s.enc.cur = some (r, p) → s.outAns = .fail e :: rest →
    ∃ t, exec (.encDoneFail e) s = .next t ∧
      t = { s with enc := { phase := .idle, cur := none, i := 0, fbuf := [], pend := s.enc.pend },
                   outAns := rest, encLog := s.encLog ++ [.answer (.fail e), .rsp r (.fail e)] } ∧
      ∀ r' q, t.enc.pending r' = some q → ∃ u, exec (.encAccept r') t = .next u

/-! ## The steps of DEC -/

/-- R131 DEC.ACCEPT: any pending request may be taken while DEC is idle; the operation starts in NORMAL with
an empty buffer whatever the elements held before. While DEC is not idle the step is not enabled; that a
step not enabled is refused under the name notSelected is the model's choice (log entry 10). -/
def Obligations.DecAcceptStartsEmpty : Prop :=
  ∀ (s : State) (r : ReqId),
    (s.dec.phase = .idle → s.dec.pending r = true →
      ∃ t, exec (.decAccept r) s = .next t ∧ t.dec.phase = .normal ∧ t.dec.cur = some r ∧
        t.dec.acc = [] ∧ t.dec.rd = false ∧ t.dec.pending r = false ∧
        (∀ r', r' ≠ r → t.dec.pending r' = s.dec.pending r') ∧
        t.decLog = s.decLog ++ [.accept r] ∧ t.inAns = s.inAns ∧ t.encSide = s.encSide ∧
        t.sched = s.sched) ∧
    (s.dec.phase ≠ .idle → exec (.decAccept r) s = .refused .notSelected) ∧
    (s.dec.pending r = false → exec (.decAccept r) s = .refused .notSelected)

/-- R132 DEC.READ: one single-byte read is issued, `dec_rd <- true`, and nothing else changes; no read is
issued in IDLE, nor while one is outstanding (the step is refused as notSelected, the model's choice, log
entry 10). In IDLE no step of the decoder takes an answer of the channel; while the read is unanswered the
decoder goes on waiting. -/
def Obligations.DecReadIssuesOneRead : Prop :=
  ∀ s : State,
    (s.dec.phase = .normal ∨ s.dec.phase = .escaped → s.dec.rd = false →
      exec .decRead s =
        .next { s with dec := { s.dec with rd := true }, decLog := s.decLog ++ [.read] }) ∧
    (s.dec.phase = .idle → exec .decRead s = .refused .notSelected) ∧
    (s.dec.rd = true → exec .decRead s = .refused .notSelected) ∧
    (∀ i t, s.dec.phase = .idle → i.isDecStep = true ∨ (∃ r, i = .decAccept r) →
      exec i s = .next t → t.inAns = s.inAns) ∧
    (∀ t, s.dec.phase ≠ .idle → s.dec.rd = true → s.inAns = [] → step s = .next t →
      t.dec = { s.dec with pend := t.dec.pend } ∧ t.inAns = [])

/-- R133 DEC.N_FAIL: `respond(r, (acc, true, e))`, `acc` possibly empty and `e` unchanged, and DEC is idle and
empty; nothing else changes but the answer taken. -/
def Obligations.DecNFailRespondsTruncated : Prop :=
  ∀ (s : State) (r : ReqId) (e : Option ChanErr) (rest : List ReadResp), s.dec.phase = .normal →
    s.dec.rd = true → s.dec.cur = some r → s.inAns = .nodata e :: rest →
    exec (.decNFail e) s =
      .next { s with dec := { phase := .idle, rd := false, cur := none, acc := [],
                              pend := s.dec.pend },
                     inAns := rest,
                     decLog := s.decLog ++ [.answer (.nodata e), .rsp r ⟨s.dec.acc, true, e⟩] }

/-- R134 DEC.N_END_SKIP: an END with nothing accumulated is discarded; the state stays NORMAL, `acc` stays
empty, no response is sent, and the next READ may be issued. -/
def Obligations.DecNEndSkipDiscardsEnd : Prop :=
  ∀ (s : State) (rest : List ReadResp), s.dec.phase = .normal → s.dec.rd = true →
    s.dec.acc = [] → s.inAns = .data 0xC0#8 :: rest →
    ∃ t, exec .decNEndSkip s = .next t ∧
      t = { s with dec := { s.dec with rd := false }, inAns := rest,
                   decLog := s.decLog ++ [.answer (.data 0xC0#8)] } ∧
      ∃ u, exec .decRead t = .next u

/-- R135 DEC.N_END_DONE: an END after payload, any payload of at least one byte, completes the packet:
`respond(r, (acc, false, none))`, and DEC is idle and empty; nothing else changes but the answer taken. -/
def Obligations.DecNEndDoneCompletesPacket : Prop :=
  ∀ (s : State) (r : ReqId) (rest : List ReadResp), s.dec.phase = .normal → s.dec.rd = true →
    s.dec.cur = some r → s.dec.acc ≠ [] → s.inAns = .data 0xC0#8 :: rest →
    exec .decNEndDone s =
      .next { s with dec := { phase := .idle, rd := false, cur := none, acc := [],
                              pend := s.dec.pend },
                     inAns := rest,
                     decLog := s.decLog ++ [.answer (.data 0xC0#8),
                       .rsp r ⟨s.dec.acc, false, none⟩] }

/-- R136 DEC.N_ESC: an ESC enters the escape state and is not appended; nothing else changes but the answer
taken. -/
def Obligations.DecNEscEntersEscape : Prop :=
  ∀ (s : State) (rest : List ReadResp), s.dec.phase = .normal → s.dec.rd = true →
    s.inAns = .data 0xDB#8 :: rest →
    exec .decNEsc s =
      .next { s with dec := { s.dec with rd := false, phase := .escaped }, inAns := rest,
                     decLog := s.decLog ++ [.answer (.data 0xDB#8)] }

/-- R137 DEC.N_LIT: any other byte, 0xDC and 0xDD among them, is appended; nothing else changes but the
answer taken. -/
def Obligations.DecNLitAppendsByte : Prop :=
  ∀ (s : State) (b : Byte) (rest : List ReadResp), s.dec.phase = .normal → s.dec.rd = true →
    s.inAns = .data b :: rest → b ≠ 0xC0#8 → b ≠ 0xDB#8 →
    exec (.decNLit b) s =
      .next { s with dec := { s.dec with acc := s.dec.acc ++ [b], rd := false }, inAns := rest,
                     decLog := s.decLog ++ [.answer (.data b)] }

/-- R138 DEC.E_FAIL: `respond(r, (acc, true, e))`, the pending ESC contributing nothing, and DEC is idle and
empty, so that the next operation starts in NORMAL; nothing else changes but the answer taken. -/
def Obligations.DecEFailDropsPendingEscape : Prop :=
  ∀ (s : State) (r : ReqId) (e : Option ChanErr) (rest : List ReadResp), s.dec.phase = .escaped →
    s.dec.rd = true → s.dec.cur = some r → s.inAns = .nodata e :: rest →
    ∃ t, exec (.decEFail e) s = .next t ∧
      t = { s with dec := { phase := .idle, rd := false, cur := none, acc := [],
                            pend := s.dec.pend },
                   inAns := rest,
                   decLog := s.decLog ++ [.answer (.nodata e), .rsp r ⟨s.dec.acc, true, e⟩] } ∧
      ∀ r' u, exec (.decAccept r') t = .next u → u.dec.phase = .normal ∧ u.dec.acc = []

/-- R139 DEC.E_END: ESC, ESC_END decodes to one END of payload, which never ends the packet; nothing else
changes but the answer taken. -/
def Obligations.DecEEndAppendsEnd : Prop :=
  ∀ (s : State) (rest : List ReadResp), s.dec.phase = .escaped → s.dec.rd = true →
    s.inAns = .data 0xDC#8 :: rest →
    exec .decEEnd s =
      .next { s with dec := { s.dec with acc := s.dec.acc ++ [0xC0#8], rd := false,
                                         phase := .normal },
                     inAns := rest, decLog := s.decLog ++ [.answer (.data 0xDC#8)] }

/-- R140 DEC.E_ESC: ESC, ESC_ESC decodes to one ESC of payload, which does not start an escape; nothing else
changes but the answer taken. -/
def Obligations.DecEEscAppendsEsc : Prop :=
  ∀ (s : State) (rest : List ReadResp), s.dec.phase = .escaped → s.dec.rd = true →
    s.inAns = .data 0xDD#8 :: rest →
    exec .decEEsc s =
      .next { s with dec := { s.dec with acc := s.dec.acc ++ [0xDB#8], rd := false,
                                         phase := .normal },
                     inAns := rest, decLog := s.decLog ++ [.answer (.data 0xDD#8)] }

/-- R141 DEC.E_LIT: ESC followed by any other byte, 0xC0 and 0xDB among them, appends that byte with no error
and goes back to NORMAL; the ESC is dropped, the packet does not end and no new escape starts. -/
def Obligations.DecELitPassesByteThrough : Prop :=
  ∀ (s : State) (x : Byte) (rest : List ReadResp), s.dec.phase = .escaped → s.dec.rd = true →
    s.inAns = .data x :: rest → x ≠ 0xDC#8 → x ≠ 0xDD#8 →
    exec (.decELit x) s =
      .next { s with dec := { s.dec with acc := s.dec.acc ++ [x], rd := false, phase := .normal },
                     inAns := rest, decLog := s.decLog ++ [.answer (.data x)] }

/-! ## The whole operations -/

/-- R100 ENC.ENCODE (as one step: log entry 9): with the write answered, the operation writes END, each payload byte stuffed, END, in
one write, and responds with the write's answer unchanged; ENC is idle and empty and nothing else
changes. -/
def Obligations.EncodeWritesFrameOnceAndResponds : Prop :=
  ∀ (s : State) (r : ReqId) (p : Packet) (w : WriteResp) (rest : List WriteResp),
    Config.isReqEnc r = true → s.enc.outstanding r = false → s.enc.phase = .idle →
    s.outAns = w :: rest →
    exec (.encEncode r p) s =
      .next { s with
        enc := { phase := .idle, cur := none, i := 0, fbuf := [], pend := s.enc.pend },
        outAns := rest,
        encLog := s.encLog ++
          [.req r p, .accept r p,
           .write ([0xC0#8] ++ p.flatMap (fun b =>
              if b = 0xC0#8 then [0xDB#8, 0xDC#8]
              else if b = 0xDB#8 then [0xDB#8, 0xDD#8] else [b]) ++ [0xC0#8]),
           .answer w, .rsp r (match w with | .ok => .ok | .fail e => .fail e)] }

/-- R130, R149 READ_PACKET (as one step: log entry 9): on the coming answers it is `rp([], NORMAL, answers, 0)`, whose
equations are given; where that responds after `k` reads, exactly `k` answers are taken, the requester
gets the response, DEC is idle and empty, and nothing else changes. -/
def Obligations.ReadPacketFollowsRp : Prop :=
  (∀ (acc : Packet) (ph : DecPhase) (k : Nat), rp none acc ph [] k = .blocked acc ph k) ∧
  (∀ acc ph e t k, rp none acc ph (.nodata e :: t) k = .done ⟨acc, true, e⟩ (k + 1)) ∧
  (∀ acc b t k, rp none acc .normal (.data b :: t) k =
    if b = 0xC0#8 then
      (if acc = [] then rp none [] .normal t (k + 1) else .done ⟨acc, false, none⟩ (k + 1))
    else if b = 0xDB#8 then rp none acc .escaped t (k + 1)
    else rp none (acc ++ [b]) .normal t (k + 1)) ∧
  (∀ acc b t k, rp none acc .escaped (.data b :: t) k =
    rp none (acc ++ [if b = 0xDC#8 then 0xC0#8 else if b = 0xDD#8 then 0xDB#8 else b])
      .normal t (k + 1)) ∧
  (∀ (s : State) (r : ReqId) (v : DecResult) (k : Nat), Config.isReqDec r = true →
    s.dec.outstanding r = false → s.dec.phase = .idle →
    rp none [] .normal s.inAns 0 = .done v k →
    exec (.decReadPacket r) s =
      .next { s with
        dec := { phase := .idle, rd := false, cur := none, acc := [], pend := s.dec.pend },
        inAns := s.inAns.drop k,
        decLog := s.decLog ++ ([.req r, .accept r] ++
          (s.inAns.take k).flatMap (fun x => [.read, .answer x]) ++ [.rsp r v]) })

/-- The model's choice of log entry 9, from R101, R112, R131, R145, R200: where the lock is held a whole
operation leaves its request pending; where its channel gives no further answer it leaves its agent
waiting, in service, with one transaction outstanding and the lock held. -/
def Obligations.WholeOperationQueuesOrWaits : Prop :=
  (∀ (s : State) (r : ReqId) (p : Packet), Config.isReqEnc r = true →
    s.enc.outstanding r = false →
    (s.enc.phase ≠ .idle → ∃ t, exec (.encEncode r p) s = .next t ∧ t.enc.pending r = some p ∧
      (∀ r', r' ≠ r → t.enc.pending r' = s.enc.pending r') ∧
      t = { s with enc := { s.enc with pend := t.enc.pend },
                   encLog := s.encLog ++ [.req r p] }) ∧
    (s.enc.phase = .idle → s.outAns = [] →
      exec (.encEncode r p) s =
        .next { s with enc := { phase := .wait, cur := some (r, p), i := p.length, fbuf := frame p,
                                pend := s.enc.pend },
                       encLog := s.encLog ++ [.req r p, .accept r p, .write (frame p)] })) ∧
  (∀ (s : State) (r : ReqId), Config.isReqDec r = true → s.dec.outstanding r = false →
    (s.dec.phase ≠ .idle → ∃ t, exec (.decReadPacket r) s = .next t ∧
      (∀ r', t.dec.pending r' = (r' == r || s.dec.pending r')) ∧
      t = { s with dec := { s.dec with pend := t.dec.pend },
                   decLog := s.decLog ++ [.req r] }) ∧
    (∀ acc ph k, s.dec.phase = .idle → rp none [] .normal s.inAns 0 = .blocked acc ph k →
      exec (.decReadPacket r) s =
        .next { s with dec := { phase := ph, rd := true, cur := some r, acc := acc,
                                pend := s.dec.pend },
                       inAns := [],
                       decLog := s.decLog ++ ([.req r, .accept r] ++
                         s.inAns.flatMap (fun x => [.read, .answer x]) ++ [.read]) }))

/-- R100 "the composition of rules R101 to R109": the whole operation is the request, ACCEPT, OPEN, a stuffing
step for each payload byte, CLOSE, WRITE and DONE, run one by one. -/
def Obligations.EncodeEqualsItsSteps : Prop :=
  ∀ (s : State) (r : ReqId) (p : Packet) (ms : List Move), Config.isReqEnc r = true →
    s.enc.outstanding r = false → s.enc.phase = .idle →
    Sys2Proof.core.run (p.length + 6)
        { s with sched := [.issueEncode r p, .encAccept r] ++ List.replicate (p.length + 4) .enc
                            ++ ms }
      = exec (.encEncode r p) { s with sched := ms }

/-- R149 "It is equal to the step rules R131 to R141": the whole operation is the request, ACCEPT, and then
READ and a response step for each read, run one by one (and one more READ where the answers run out). -/
def Obligations.ReadPacketEqualsItsSteps : Prop :=
  ∀ (s : State) (r : ReqId) (ms : List Move), Config.isReqDec r = true →
    s.dec.outstanding r = false → s.dec.phase = .idle →
    (∀ v k, rp none [] .normal s.inAns 0 = .done v k →
      Sys2Proof.core.run (2 * k + 2)
          { s with sched := [.issueRead r, .decAccept r] ++ List.replicate (2 * k) .dec ++ ms }
        = exec (.decReadPacket r) { s with sched := ms }) ∧
    (∀ acc ph k, rp none [] .normal s.inAns 0 = .blocked acc ph k →
      Sys2Proof.core.run (2 * k + 3)
          { s with sched := [.issueRead r, .decAccept r] ++ List.replicate (2 * k + 1) .dec ++ ms }
        = exec (.decReadPacket r) { s with sched := ms })

/-- R149, R131 to R141: from any point inside an operation at which a read is due, the steps that follow are
`rp` from its `acc` and escape state: where that responds after `k` reads, `2k` steps take `k` answers,
give the requester that response and leave DEC idle and empty. -/
def Obligations.RunningOperationFollowsRp : Prop :=
  ∀ (s : State) (r : ReqId) (v : DecResult) (k : Nat) (ms : List Move),
    s.dec.phase = .normal ∨ s.dec.phase = .escaped → s.dec.rd = false → s.dec.cur = some r →
    rp none s.dec.acc s.dec.phase s.inAns 0 = .done v k →
    Sys2Proof.core.run (2 * k) { s with sched := List.replicate (2 * k) .dec ++ ms }
      = .next { s with
          dec := { phase := .idle, rd := false, cur := none, acc := [], pend := s.dec.pend },
          inAns := s.inAns.drop k, sched := ms,
          decLog := s.decLog ++ ((s.inAns.take k).flatMap (fun x => [.read, .answer x])
            ++ [.rsp r v]) }

/-- R110: OPEN through CLOSE always succeed, touch only `fbuf`, `enc_i` and `enc_phase`, and together set
`fbuf <- frame(p)` and `enc_phase <- CLOSE`, for every packet. -/
def Obligations.AssemblyIsOneStepToFrame : Prop :=
  ∀ (s : State) (r : ReqId) (p : Packet) (ms : List Move), s.enc.phase = .opening →
    s.enc.cur = some (r, p) → s.enc.i = 0 →
    Sys2Proof.core.run (p.length + 2)
        { s with sched := List.replicate (p.length + 2) .enc ++ ms }
      = .next { s with enc := { s.enc with phase := .close, i := p.length, fbuf := frame p },
                       sched := ms }

/-! ## One step of the machine -/

/-- R83, R185, R187: the next step is that of the first scheduled move: the instruction its selection decodes
to runs, in the state without that move; a requester's own request is issued; where nothing is selected
the agent waits; with nothing scheduled all state survives (log entries 2, 3). -/
def Obligations.StepRunsTheSelectedInstruction : Prop :=
  ∀ s : State,
    (s.sched = [] → step s = .next s) ∧
    (∀ m ms, s.sched = m :: ms →
      (∀ x, s.select m = some x → step s = exec (decode x) { s with sched := ms }) ∧
      (∀ r p, m = .issueEncode r p → step s = issueEncode r p { s with sched := ms }) ∧
      (∀ r, m = .issueRead r → step s = issueRead r { s with sched := ms }) ∧
      (m = .enc ∨ m = .dec ∨ (∃ r, m = .encAccept r ∨ m = .decAccept r) → s.select m = none →
        step s = .next { s with sched := ms }))

/-- R83: what each control state selects, row by row ("selected when"), for the moves of both agents. -/
def Obligations.ControlStateSelectsTheRow : Prop :=
  ∀ s : State,
    (∀ r p, s.select (.encode r p) = some (.encRequest r p)) ∧
    (∀ r, s.select (.readPacket r) = some (.decRequest r)) ∧
    (∀ r p, s.enc.phase = .idle → s.enc.pending r = some p →
      s.select (.encAccept r) = some (.encPending r)) ∧
    (s.enc.phase = .opening → s.select .enc = some .encOpened) ∧
    (∀ r p b, s.enc.phase = .stuff → s.enc.cur = some (r, p) → p[s.enc.i]? = some b →
      s.select .enc = some (.encByte b)) ∧
    (∀ r p, s.enc.phase = .stuff → s.enc.cur = some (r, p) → s.enc.i = p.length →
      s.select .enc = some .encAtEnd) ∧
    (s.enc.phase = .close → s.select .enc = some .encClosed) ∧
    (∀ c w rest, s.enc.phase = .wait → s.enc.cur = some c → s.outAns = w :: rest →
      s.select .enc = some (.encAnswer w)) ∧
    (∀ r, s.dec.phase = .idle → s.dec.pending r = true →
      s.select (.decAccept r) = some (.decPending r)) ∧
    (∀ r, s.dec.phase = .normal ∨ s.dec.phase = .escaped → s.dec.cur = some r →
      s.dec.rd = false → s.select .dec = some .decUnread) ∧
    (∀ r x rest, s.dec.phase = .normal → s.dec.cur = some r → s.dec.rd = true →
      s.inAns = x :: rest → s.select .dec = some (.decNormal (decide (s.dec.acc = [])) x)) ∧
    (∀ r x rest, s.dec.phase = .escaped → s.dec.cur = some r → s.dec.rd = true →
      s.inAns = x :: rest → s.select .dec = some (.decEscaped x)) ∧
    (s.enc.phase = .idle ∨ (s.enc.phase = .wait ∧ s.outAns = []) → s.select .enc = none) ∧
    (s.dec.phase = .idle ∨ (s.dec.rd = true ∧ s.inAns = []) → s.select .dec = none)

/-- Log entries 15 and 16 (the model's choice): an 8-bit word of the table, placed by `withFetchWord`, is what
the very next step runs, and that step answers a next state. -/
def Obligations.PlacedWordRunsNext : Prop :=
  ∀ (s : State) (w : Nat), w < 256 →
    ∃ (i : Instr) (s' t : State), decodeTableWord 8 w = some i ∧
      step (s.withFetchWord 8 w) = exec i s' ∧
      s' = { s.withFetchWord 8 w with sched := s.sched } ∧
      (i.isEncStep = true ∨ i.isDecStep = true) ∧ exec i s' = .next t

/-- R79, R174 (no byte and no packet is illegal; no behaviour is a fault): in every state a step answers a
next state, unless the scheduled move is a request its requester may not make, and then it is refused. That
a step with nothing to run waits (R187) is log entries 2 and 3; refusing a second request (I12) and a
requester outside the set (read from R7) is log entry 11. -/
def Obligations.StepStopsOnlyOnForbiddenRequests : Prop :=
  ∀ s : State,
    (∀ m ms, s.sched = m :: ms → s.allows m = false →
      step s = .refused .unknownRequester ∨ step s = .refused .secondRequest) ∧
    ((∀ m ms, s.sched = m :: ms → s.allows m = true) → ∃ t, step s = .next t)

/-- R25, R185, R188, I12: a requester with none outstanding issues its request, which is then pending with
its packet and changes nothing else; a second one while one is outstanding is refused. A request of a
requester outside the set is refused as well, which is the model's inference from R7 (log entry 11). -/
def Obligations.RequestsPendOrAreRefused : Prop :=
  ∀ (s : State) (r : ReqId) (p : Packet),
    (Config.isReqEnc r = true → s.enc.outstanding r = false →
      ∃ t, issueEncode r p s = .next t ∧ t.enc.pending r = some p ∧
        (∀ r', r' ≠ r → t.enc.pending r' = s.enc.pending r') ∧
        t = { s with enc := { s.enc with pend := t.enc.pend },
                     encLog := s.encLog ++ [.req r p] }) ∧
    (Config.isReqEnc r = true → s.enc.outstanding r = true →
      issueEncode r p s = .refused .secondRequest ∧
      exec (.encEncode r p) s = .refused .secondRequest) ∧
    (Config.isReqEnc r = false → issueEncode r p s = .refused .unknownRequester ∧
      exec (.encEncode r p) s = .refused .unknownRequester) ∧
    (Config.isReqDec r = true → s.dec.outstanding r = false →
      ∃ t, issueRead r s = .next t ∧
        (∀ r', t.dec.pending r' = (r' == r || s.dec.pending r')) ∧
        t = { s with dec := { s.dec with pend := t.dec.pend },
                     decLog := s.decLog ++ [.req r] }) ∧
    (Config.isReqDec r = true → s.dec.outstanding r = true →
      issueRead r s = .refused .secondRequest ∧
      exec (.decReadPacket r) s = .refused .secondRequest) ∧
    (Config.isReqDec r = false → issueRead r s = .refused .unknownRequester ∧
      exec (.decReadPacket r) s = .refused .unknownRequester)

/-! ## Reset and invariants -/

/-- R32: the value of every element after reset. The locks are free and no escape is pending, since both
phases are IDLE. -/
def Obligations.ResetValuesOfEveryElement : Prop :=
  (State.reset.enc.phase = .idle ∧ State.reset.enc.cur = none ∧ State.reset.enc.i = 0 ∧
    State.reset.enc.fbuf = [] ∧ ∀ r, State.reset.enc.pending r = none) ∧
  (State.reset.dec.phase = .idle ∧ State.reset.dec.rd = false ∧ State.reset.dec.cur = none ∧
    State.reset.dec.acc = [] ∧ ∀ r, State.reset.dec.pending r = false)

/-- R21 to R25: the invariant of the machine, and the two history invariants, hold at reset. The histories and
the canonical form of the pending sets are the model's (log entries 12, 14, 18). -/
def Obligations.InvariantsHoldAtReset : Prop :=
  State.reset.Inv ∧ State.reset.EncHistory ∧ State.reset.DecHistory

/-- R21 to R25, R27: every step keeps both agents in legal states: each element legal for its phase, `fbuf`
the frame so far, an idle agent empty, and at most one outstanding request of each requester. Two parts are
the model's: that the pending sets are lists in canonical form (log entry 14, DESIGN CHOICE), and that
phase WRITE, which R21 lists, is excluded, no transition of R27 entering it (log entry 23, DEDUCED). -/
def Obligations.StepKeepsLegalStates : Prop :=
  ∀ s t : State, s.Inv → step s = .next t → t.Inv

/-- R60, R111, R112, R113: every step keeps ENC's history that of whole operations in acceptance order, with
exactly one write of `frame(p)` and one response to the right requester for each. The history is the
model's record (log entry 12). -/
def Obligations.StepKeepsEncHistory : Prop :=
  ∀ s t : State, s.Inv → s.EncHistory → step s = .next t → t.EncHistory

/-- R59, R61, R82, R144: every step keeps DEC's history that of whole operations over one stream of answers,
its results being what the stream decodes to, each given to the requester accepted for it. The history is
the model's record (log entry 12). -/
def Obligations.StepKeepsDecHistory : Prop :=
  ∀ s t : State, s.Inv → s.DecHistory → step s = .next t → t.DecHistory

/-! ## Rules of the whole machine -/

/-- R83, R176: inside an operation, once its channel has answered where it waits, exactly one step of an
agent is enabled; while the agent is idle, none is. -/
def Obligations.ExactlyOneStepEnabled : Prop :=
  ∀ s : State,
    (s.enc.Legal → s.enc.phase ≠ .idle → (s.enc.phase = .wait → s.outAns ≠ []) →
      ∃! i : Instr, i.isEncStep = true ∧ ∃ t, exec i s = .next t) ∧
    (s.dec.Legal → s.dec.phase ≠ .idle → (s.dec.rd = true → s.inAns ≠ []) →
      ∃! i : Instr, i.isDecStep = true ∧ ∃ t, exec i s = .next t) ∧
    (s.enc.phase = .idle → ∀ i t, i.isEncStep = true → exec i s ≠ .next t) ∧
    (s.dec.phase = .idle → ∀ i t, i.isDecStep = true → exec i s ≠ .next t)

/-- R112: an operation of ENC stays in service, its packet unchanged, until the step that takes the output
channel's answer, responds to its requester with that answer's status and leaves ENC idle. -/
def Obligations.EncLockHeldUntilResponse : Prop :=
  ∀ (s t : State) (c : ReqId × Packet), s.Inv → s.enc.cur = some c → step s = .next t →
    (t.enc.cur = some c ∧ t.enc.phase ≠ .idle) ∨
    (t.enc.cur = none ∧ t.enc.phase = .idle ∧
      ∃ w, s.outAns = w :: t.outAns ∧ t.encLog = s.encLog ++ [.answer w, .rsp c.1 (statusOf w)])

/-- R145, R142: an operation of DEC stays in service, across every read, until the step that responds to its
requester with the bytes gathered and leaves DEC idle and empty. -/
def Obligations.DecLockHeldUntilResponse : Prop :=
  ∀ (s t : State) (r : ReqId), s.Inv → s.dec.cur = some r → step s = .next t →
    (t.dec.cur = some r ∧ t.dec.phase ≠ .idle) ∨
    (t.dec.cur = none ∧ t.dec.phase = .idle ∧ t.dec.acc = [] ∧ t.dec.rd = false ∧
      ∃ x v, t.decLog = s.decLog ++ [.answer x, .rsp r v] ∧ v.pkt = s.dec.acc)

/-- R2, R26, R62 "No shared state between Encoder and Decoder": an instruction of one agent changes nothing of
the other's side and nothing of the moves to come, and what it does depends on its own side alone. -/
def Obligations.AgentsShareNoState : Prop :=
  ∀ (i : Instr) (s t : State), exec i s = .next t →
    (i.isEnc = true → t.decSide = s.decSide ∧ t.sched = s.sched ∧
      ∀ s' : State, s'.encSide = s.encSide → ∃ t', exec i s' = .next t' ∧ t'.encSide = t.encSide) ∧
    (i.isEnc = false → t.encSide = s.encSide ∧ t.sched = s.sched ∧
      ∀ s' : State, s'.decSide = s.decSide → ∃ t', exec i s' = .next t' ∧ t'.decSide = t.decSide)

/-- R62: steps of ENC and DEC may come in either order, with the same result. -/
def Obligations.AgentStepsCommute : Prop :=
  ∀ (i j : Instr) (s a b : State), i.isEnc = true → j.isEnc = false → exec i s = .next a →
    exec j s = .next b → ∃ u, exec j a = .next u ∧ exec i b = .next u

/-- R27: the phases move only as the table of legal transitions says, each change by the step it names. -/
def Obligations.PhasesMoveOnlyAsListed : Prop :=
  ∀ (i : Instr) (s t : State), exec i s = .next t →
    (i.isEncStep = true ∨ (∃ r, i = .encAccept r) →
      encTransition i s.enc.phase t.enc.phase = true) ∧
    (i.isDecStep = true ∨ (∃ r, i = .decAccept r) →
      decTransition i (s.dec.phase, s.dec.rd) (t.dec.phase, t.dec.rd) = true)

/-- R81: the legal DEC responses are exactly two shapes: complete, with at least one byte and no error; and
the cut-short one, whose error is that of the NODATA answer taken just before it. -/
def Obligations.DecResponsesHaveLegalShape : Prop :=
  ∀ s t : State, step s = .next t → ∃ evs, t.decLog = s.decLog ++ evs ∧
    ∀ before r v after, evs = before ++ [.rsp r v] ++ after →
      (v.isPrefix = false ∧ v.err = none ∧ 1 ≤ v.pkt.length) ∨
      (v.isPrefix = true ∧ ∃ before', before = before' ++ [.answer (.nodata v.err)])

/-- R200: a channel that never answers blocks its agent for good: no step of any move ends the operation,
changes what it holds, or releases its lock. -/
def Obligations.UnansweredChannelBlocksAgent : Prop :=
  ∀ s t : State, step s = .next t →
    (s.enc.phase = .wait → s.outAns = [] →
      t.enc = { s.enc with pend := t.enc.pend } ∧ t.outAns = []) ∧
    (s.dec.phase ≠ .idle → s.dec.rd = true → s.inAns = [] →
      t.dec = { s.dec with pend := t.dec.pend } ∧ t.inAns = [])

/-- R115, R150: payload content is never interpreted. Renaming bytes apart from the four reserved ones renames
frames and packets and changes nothing else; and an ENCODE's response does not depend on its payload. -/
def Obligations.PayloadNeverInterpreted : Prop :=
  (∀ f : Byte → Byte, KeepsReserved f →
    (∀ p, frame (p.map f) = (frame p).map f) ∧
    (∀ acc ph xs k, rp none (acc.map f) ph (xs.map (renameAnswer f)) k
      = renameOutcome f (rp none acc ph xs k))) ∧
  (∀ (r : ReqId) (p q : Packet) (s t : State), exec (.encEncode r p) s = .next t →
    ∃ u, exec (.encEncode r q) s = .next u ∧ encReplies u.encLog = encReplies t.encLog ∧
      u.outAns = t.outAns)

/-- R7, R171, D5: all channel errors are treated alike. Whatever renaming of errors is made, even one that
makes several errors one or makes another error `EOS`, a step of the renamed state is the renamed step: no
error is created, changed, classified or compared. So no result depends on which members `ChanErr` has
(log entry 7). -/
def Obligations.ChannelErrorsTreatedAlike : Prop :=
  ∀ (f : ChanErr → ChanErr) (s : State),
    (∀ t, step s = .next t → step (s.renameErr f) = .next (t.renameErr f)) ∧
    (∀ x, step s = .refused x → step (s.renameErr f) = .refused x)

/-- R114, R146, I10: under a finite bound, an operation whose frame or packet exceeds it is refused, and every
other goes as without a bound: ENCODE and READ_PACKET whole, `rp` from any point, and the assembling and
appending that their steps share. The model itself has no bound (log entry 8). -/
def Obligations.FiniteBoundsRefuse : Prop :=
  (∀ (n : Nat) (r : ReqId) (p : Packet) (s : State),
    encodeWhole (some n) r p s =
      if Config.isReqEnc r = true ∧ s.enc.outstanding r = false ∧ s.enc.phase = .idle ∧
          (frame p).length > n then .refused .frameCapacity
      else exec (.encEncode r p) s) ∧
  (∀ (n : Nat) (e : Enc) (s : State), assemble (some n) e s =
    if e.fbuf.length > n then .refused .frameCapacity else assemble none e s) ∧
  (∀ (n : Nat) (acc : Packet) (ph : DecPhase) (xs : List ReadResp) (k : Nat), acc.length ≤ n →
    rp (some n) acc ph xs k =
      match rp none acc ph xs k with
      | .done v k' => if v.pkt.length > n then .overflow else .done v k'
      | .blocked acc' ph' k' => if acc'.length > n then .overflow else .blocked acc' ph' k'
      | .overflow => .overflow) ∧
  (∀ (n : Nat) (r : ReqId) (s : State),
    readWhole (some n) r s =
      if Config.isReqDec r = true ∧ s.dec.outstanding r = false ∧ s.dec.phase = .idle ∧
          rp (some n) [] .normal s.inAns 0 = .overflow then .refused .packetCapacity
      else exec (.decReadPacket r) s) ∧
  (∀ (n : Nat) (b : Byte) (x : ReadResp) (s : State), appendByte (some n) b x s =
    if s.dec.acc.length + 1 > n then .refused .packetCapacity else appendByte none b x s)

/-! ## Streams of frames -/

/-- R148: an operation that starts at a frame of a non-empty packet returns the packet and consumes exactly
the frame; one that has gathered bytes is completed by the frame's leading END and the next returns the
packet; one in ESCAPED takes the leading END as payload and runs on to the trailing one; and the frame
of the empty packet gives no response. -/
def Obligations.FrameRecovery : Prop :=
  (∀ (s : State) (r : ReqId) (p : Packet) (rest : List ReadResp), p ≠ [] →
    Config.isReqDec r = true → s.dec.outstanding r = false → s.dec.phase = .idle →
    s.inAns = (frame p).map ReadResp.data ++ rest →
    exec (.decReadPacket r) s =
      .next { s with
        dec := { phase := .idle, rd := false, cur := none, acc := [], pend := s.dec.pend },
        inAns := rest,
        decLog := s.decLog ++ ([.req r, .accept r] ++
          (frame p).flatMap (fun b => [.read, .answer (.data b)]) ++ [.rsp r ⟨p, false, none⟩]) }) ∧
  (∀ (n p : Packet) (rest : List ReadResp) (k : Nat), n ≠ [] → p ≠ [] →
    rp none n .normal ((frame p).map ReadResp.data ++ rest) k = .done ⟨n, false, none⟩ (k + 1) ∧
    rp none [] .normal (((frame p).map ReadResp.data ++ rest).drop 1) 0
      = .done ⟨p, false, none⟩ ((frame p).length - 1)) ∧
  (∀ (n p : Packet) (rest : List ReadResp) (k : Nat),
    rp none n .escaped ((frame p).map ReadResp.data ++ rest) k
      = .done ⟨n ++ [0xC0#8] ++ p, false, none⟩ (k + (frame p).length)) ∧
  (∀ (rest : List ReadResp) (k : Nat),
    rp none [] .normal ((frame []).map ReadResp.data ++ rest) k = rp none [] .normal rest (k + 2))

/-- R147: a run of ENDs with nothing gathered produces no response: where the channel then answers NODATA(e)
the operation responds ([], true, e); where it gives no more answers the operation goes on waiting. -/
def Obligations.EmptyFramesSuppressed : Prop :=
  ∀ (s : State) (r : ReqId) (n : Nat), Config.isReqDec r = true → s.dec.outstanding r = false →
    s.dec.phase = .idle →
    (∀ e rest, s.inAns = List.replicate n (.data 0xC0#8) ++ .nodata e :: rest →
      ∃ t, exec (.decReadPacket r) s = .next t ∧ t.inAns = rest ∧
        decReplies t.decLog = decReplies s.decLog ++ [(r, ⟨[], true, e⟩)]) ∧
    (s.inAns = List.replicate n (.data 0xC0#8) →
      ∃ t, exec (.decReadPacket r) s = .next t ∧ t.dec.phase = .normal ∧ t.dec.acc = [] ∧
        t.dec.rd = true ∧ t.dec.cur = some r ∧ decReplies t.decLog = decReplies s.decLog)

/-- R60, R61, R148, R202: whatever was scheduled, if ENC has completed its operations with every write
answered OK and DEC has read exactly the bytes on the wire, DEC's results are the non-empty packets
accepted by ENC, whole and in order; the empty ones are never delivered. -/
def Obligations.EndToEndDelivery : Prop :=
  ∀ s s' : State, s.EncHistory → s.enc.cur = none →
    (∀ w ∈ writeAnswers s.encLog, w = .ok) → s'.DecHistory →
    readAnswers s'.decLog = s.wire.map ReadResp.data →
    (decReplies s'.decLog).map Prod.snd =
      (((acceptedOps s.encLog).map Prod.snd).filter (fun p => p ≠ [])).map
        (fun p => ⟨p, false, none⟩)

/-- R57 (and I4, a free value): after a write answered OK the wire has taken the whole frame; after one that
failed it has taken some bytes of which nothing is known. -/
def Obligations.WireAfterWrite : Prop :=
  ∀ (s t : State) (r : ReqId) (p : Packet) (w : WriteResp) (rest : List WriteResp),
    s.EncHistory → s.enc.cur = none → s.enc.phase = .idle → s.outAns = w :: rest →
    exec (.encEncode r p) s = .next t →
    (w = .ok → t.wire = s.wire ++ frame p) ∧
    (∀ e, w = .fail e → ∃ n, t.wire = s.wire ++ Config.freeWire n)

/-! ## Hazards -/

/-- R193: an escape pending at a failed read is lost: the first operation returns the bytes before it, and
when the stream goes on with 0xDC or 0xDD the next operation appends that byte as itself. -/
def Obligations.EscapeLostAtFailedRead : Prop :=
  ∀ (s : State) (r r' : ReqId) (q : Packet) (e : Option ChanErr) (b : Byte)
    (rest : List ReadResp),
    Config.isReqDec r = true → Config.isReqDec r' = true → s.dec.outstanding r = false →
    s.dec.outstanding r' = false → s.dec.phase = .idle →
    (∀ x ∈ q, x ≠ 0xC0#8 ∧ x ≠ 0xDB#8) → b = 0xDC#8 ∨ b = 0xDD#8 →
    s.inAns = q.map ReadResp.data ++ [.data 0xDB#8, .nodata e] ++ [.data b, .data 0xC0#8] ++ rest →
    ∃ t u, exec (.decReadPacket r) s = .next t ∧ exec (.decReadPacket r') t = .next u ∧
      decReplies u.decLog
        = decReplies s.decLog ++ [(r, ⟨q, true, e⟩), (r', ⟨[b], false, none⟩)] ∧
      u.inAns = rest

/-- R195, R196: ESC, END does not end the packet: the END is payload, the leading END of the next frame
completes the packet, and that frame is then decoded whole. ESC, ESC does not chain: the second ESC is
payload and the byte after it is read in NORMAL. -/
def Obligations.StrayEscapeHazards : Prop :=
  (∀ (q p : Packet) (rest : List ReadResp), p ≠ [] → (∀ x ∈ q, x ≠ 0xC0#8 ∧ x ≠ 0xDB#8) →
    rp none [] .normal
        (([0xC0#8] ++ q ++ [0xDB#8, 0xC0#8] ++ frame p).map ReadResp.data ++ rest) 0
      = .done ⟨q ++ [0xC0#8], false, none⟩ (q.length + 4) ∧
    rp none [] .normal
        ((([0xC0#8] ++ q ++ [0xDB#8, 0xC0#8] ++ frame p).map ReadResp.data ++ rest).drop (q.length + 4)) 0
      = .done ⟨p, false, none⟩ ((frame p).length - 1)) ∧
  (∀ (acc : Packet) (t : List ReadResp) (k : Nat),
    rp none acc .normal (.data 0xDB#8 :: .data 0xDB#8 :: .data 0xDC#8 :: t) k
      = rp none (acc ++ [0xDB#8, 0xDC#8]) .normal t (k + 3))

/-- R201: a stream with no END never completes: the decoder has gathered and is still waiting, however long the
stream, and with no escape in it what it has gathered is every byte. -/
def Obligations.StreamWithoutEndNeverCompletes : Prop :=
  ∀ (acc xs : Packet) (k : Nat), (∀ x ∈ xs, x ≠ 0xC0#8) →
    (∃ acc' ph', rp none acc .normal (xs.map ReadResp.data) k = .blocked acc' ph' (k + xs.length)) ∧
    ((∀ x ∈ xs, x ≠ 0xDB#8) →
      rp none acc .normal (xs.map ReadResp.data) k = .blocked (acc ++ xs) .normal (k + xs.length))
end

