-- ==== Sys2Proof/Laws/Bytes.lean ====
section
/-! SUPPORT. The four reserved byte values are distinct (00_scope.md R6). -/

namespace Sys2Proof

@[simp] theorem END_ne_ESC : (END = ESC) = False := by decide

@[simp] theorem END_ne_ESC_END : (END = ESC_END) = False := by decide

@[simp] theorem END_ne_ESC_ESC : (END = ESC_ESC) = False := by decide

@[simp] theorem ESC_ne_END : (ESC = END) = False := by decide

@[simp] theorem ESC_ne_ESC_END : (ESC = ESC_END) = False := by decide

@[simp] theorem ESC_ne_ESC_ESC : (ESC = ESC_ESC) = False := by decide

@[simp] theorem ESC_END_ne_END : (ESC_END = END) = False := by decide

@[simp] theorem ESC_END_ne_ESC : (ESC_END = ESC) = False := by decide

@[simp] theorem ESC_END_ne_ESC_ESC : (ESC_END = ESC_ESC) = False := by decide

@[simp] theorem ESC_ESC_ne_END : (ESC_ESC = END) = False := by decide

@[simp] theorem ESC_ESC_ne_ESC : (ESC_ESC = ESC) = False := by decide

@[simp] theorem ESC_ESC_ne_ESC_END : (ESC_ESC = ESC_END) = False := by decide

end Sys2Proof
end

