-- ==== Sys2Proof/Laws/State.lean ====
section
/-! SUPPORT. One lemma per field per update of State, so that no proof unfolds an update. -/

namespace Sys2Proof.Machine

/-! ## setEnc -/

@[simp] theorem State.setEnc_enc (s : State) (e : Enc) : (s.setEnc e).enc = e := rfl

@[simp] theorem State.setEnc_dec (s : State) (e : Enc) : (s.setEnc e).dec = s.dec := rfl

@[simp] theorem State.setEnc_outAns (s : State) (e : Enc) : (s.setEnc e).outAns = s.outAns := rfl

@[simp] theorem State.setEnc_inAns (s : State) (e : Enc) : (s.setEnc e).inAns = s.inAns := rfl

@[simp] theorem State.setEnc_sched (s : State) (e : Enc) : (s.setEnc e).sched = s.sched := rfl

@[simp] theorem State.setEnc_encLog (s : State) (e : Enc) : (s.setEnc e).encLog = s.encLog := rfl

@[simp] theorem State.setEnc_decLog (s : State) (e : Enc) : (s.setEnc e).decLog = s.decLog := rfl

/-! ## setDec -/

@[simp] theorem State.setDec_enc (s : State) (d : Dec) : (s.setDec d).enc = s.enc := rfl

@[simp] theorem State.setDec_dec (s : State) (d : Dec) : (s.setDec d).dec = d := rfl

@[simp] theorem State.setDec_outAns (s : State) (d : Dec) : (s.setDec d).outAns = s.outAns := rfl

@[simp] theorem State.setDec_inAns (s : State) (d : Dec) : (s.setDec d).inAns = s.inAns := rfl

@[simp] theorem State.setDec_sched (s : State) (d : Dec) : (s.setDec d).sched = s.sched := rfl

@[simp] theorem State.setDec_encLog (s : State) (d : Dec) : (s.setDec d).encLog = s.encLog := rfl

@[simp] theorem State.setDec_decLog (s : State) (d : Dec) : (s.setDec d).decLog = s.decLog := rfl

/-! ## dropOutAns -/

@[simp] theorem State.dropOutAns_enc (s : State) (n : Nat) : (s.dropOutAns n).enc = s.enc := rfl

@[simp] theorem State.dropOutAns_dec (s : State) (n : Nat) : (s.dropOutAns n).dec = s.dec := rfl

@[simp] theorem State.dropOutAns_outAns (s : State) (n : Nat) : (s.dropOutAns n).outAns = s.outAns.drop n := rfl

@[simp] theorem State.dropOutAns_inAns (s : State) (n : Nat) : (s.dropOutAns n).inAns = s.inAns := rfl

@[simp] theorem State.dropOutAns_sched (s : State) (n : Nat) : (s.dropOutAns n).sched = s.sched := rfl

@[simp] theorem State.dropOutAns_encLog (s : State) (n : Nat) : (s.dropOutAns n).encLog = s.encLog := rfl

@[simp] theorem State.dropOutAns_decLog (s : State) (n : Nat) : (s.dropOutAns n).decLog = s.decLog := rfl

/-! ## dropInAns -/

@[simp] theorem State.dropInAns_enc (s : State) (n : Nat) : (s.dropInAns n).enc = s.enc := rfl

@[simp] theorem State.dropInAns_dec (s : State) (n : Nat) : (s.dropInAns n).dec = s.dec := rfl

@[simp] theorem State.dropInAns_outAns (s : State) (n : Nat) : (s.dropInAns n).outAns = s.outAns := rfl

@[simp] theorem State.dropInAns_inAns (s : State) (n : Nat) : (s.dropInAns n).inAns = s.inAns.drop n := rfl

@[simp] theorem State.dropInAns_sched (s : State) (n : Nat) : (s.dropInAns n).sched = s.sched := rfl

@[simp] theorem State.dropInAns_encLog (s : State) (n : Nat) : (s.dropInAns n).encLog = s.encLog := rfl

@[simp] theorem State.dropInAns_decLog (s : State) (n : Nat) : (s.dropInAns n).decLog = s.decLog := rfl

/-! ## setSched -/

@[simp] theorem State.setSched_enc (s : State) (ms : List Move) : (s.setSched ms).enc = s.enc := rfl

@[simp] theorem State.setSched_dec (s : State) (ms : List Move) : (s.setSched ms).dec = s.dec := rfl

@[simp] theorem State.setSched_outAns (s : State) (ms : List Move) : (s.setSched ms).outAns = s.outAns := rfl

@[simp] theorem State.setSched_inAns (s : State) (ms : List Move) : (s.setSched ms).inAns = s.inAns := rfl

@[simp] theorem State.setSched_sched (s : State) (ms : List Move) : (s.setSched ms).sched = ms := rfl

@[simp] theorem State.setSched_encLog (s : State) (ms : List Move) : (s.setSched ms).encLog = s.encLog := rfl

@[simp] theorem State.setSched_decLog (s : State) (ms : List Move) : (s.setSched ms).decLog = s.decLog := rfl

/-! ## logEnc -/

@[simp] theorem State.logEnc_enc (s : State) (evs : List EncEvent) : (s.logEnc evs).enc = s.enc := rfl

@[simp] theorem State.logEnc_dec (s : State) (evs : List EncEvent) : (s.logEnc evs).dec = s.dec := rfl

@[simp] theorem State.logEnc_outAns (s : State) (evs : List EncEvent) : (s.logEnc evs).outAns = s.outAns := rfl

@[simp] theorem State.logEnc_inAns (s : State) (evs : List EncEvent) : (s.logEnc evs).inAns = s.inAns := rfl

@[simp] theorem State.logEnc_sched (s : State) (evs : List EncEvent) : (s.logEnc evs).sched = s.sched := rfl

@[simp] theorem State.logEnc_encLog (s : State) (evs : List EncEvent) : (s.logEnc evs).encLog = s.encLog ++ evs := rfl

@[simp] theorem State.logEnc_decLog (s : State) (evs : List EncEvent) : (s.logEnc evs).decLog = s.decLog := rfl

/-! ## logDec -/

@[simp] theorem State.logDec_enc (s : State) (evs : List DecEvent) : (s.logDec evs).enc = s.enc := rfl

@[simp] theorem State.logDec_dec (s : State) (evs : List DecEvent) : (s.logDec evs).dec = s.dec := rfl

@[simp] theorem State.logDec_outAns (s : State) (evs : List DecEvent) : (s.logDec evs).outAns = s.outAns := rfl

@[simp] theorem State.logDec_inAns (s : State) (evs : List DecEvent) : (s.logDec evs).inAns = s.inAns := rfl

@[simp] theorem State.logDec_sched (s : State) (evs : List DecEvent) : (s.logDec evs).sched = s.sched := rfl

@[simp] theorem State.logDec_encLog (s : State) (evs : List DecEvent) : (s.logDec evs).encLog = s.encLog := rfl

@[simp] theorem State.logDec_decLog (s : State) (evs : List DecEvent) : (s.logDec evs).decLog = s.decLog ++ evs := rfl

/-! ## Two updates of the moves -/

@[simp] theorem State.setSched_setSched (s : State) (ms ns : List Move) :
    (s.setSched ms).setSched ns = s.setSched ns := rfl

@[simp] theorem State.setSched_self (s : State) : s.setSched s.sched = s := rfl

end Sys2Proof.Machine
end

