-- ==== Sys2Proof/Laws/Ops.lean ====
section
/-! SUPPORT. One lemma for each shared operation, saying once everything it can do; the proofs about
instructions cite these and do not unfold the operations. -/

namespace Sys2Proof.Machine

variable {s t : State}

@[simp] theorem fits_maxFrame (n : Nat) : Config.fits Config.maxFrame n = true := rfl

@[simp] theorem fits_maxPacket (n : Nat) : Config.fits Config.maxPacket n = true := rfl

@[simp] theorem fits_none (n : Nat) : Config.fits none n = true := rfl

/-- The shape of most meanings: run when selected, else refuse. -/
theorem ite_refused_next_iff {c : Prop} [Decidable c] {x : Result} {z : Refusal} :
    (if c then x else .refused z) = .next t ↔ c ∧ x = .next t := by
  by_cases h : c <;> simp [h]

theorem next_eq_next_iff {u : State} : (.next u : Result) = .next t ↔ t = u := by
  simp [eq_comm]

/-! ## Requests -/

theorem issueEncode_next_iff {r : ReqId} {p : Packet} :
    issueEncode r p s = .next t ↔
      Config.isReqEnc r = true ∧ s.enc.outstanding r = false ∧
        t = (s.setEnc { s.enc with pend := pendSet r p s.enc.pend }).logEnc [.req r p] := by
  unfold issueEncode
  cases Config.isReqEnc r <;> cases s.enc.outstanding r <;> simp [eq_comm]

theorem issueRead_next_iff {r : ReqId} :
    issueRead r s = .next t ↔
      Config.isReqDec r = true ∧ s.dec.outstanding r = false ∧
        t = (s.setDec { s.dec with pend := readPendSet r s.dec.pend }).logDec [.req r] := by
  unfold issueRead
  cases Config.isReqDec r <;> cases s.dec.outstanding r <;> simp [eq_comm]

/-! ## ENC -/

theorem assemble_maxFrame (e : Enc) : assemble Config.maxFrame e s = .next (s.setEnc e) := rfl

theorem stuffByte_maxFrame_next_iff {b : Byte} {out : List Byte} :
    stuffByte Config.maxFrame b out s = .next t ↔
      s.enc.phase = .stuff ∧ s.enc.payloadByte = some b ∧
        t = s.setEnc { s.enc with fbuf := s.enc.fbuf ++ out, i := s.enc.i + 1 } := by
  unfold stuffByte
  split <;> rename_i h
  · simp [assemble_maxFrame, h, eq_comm]
  · simp only [reduceCtorEq, false_iff]
    tauto

theorem finishEncode_next_iff {w : WriteResp} :
    finishEncode w s = .next t ↔
      ∃ r p, s.enc.cur = some (r, p) ∧ s.enc.phase = .wait ∧ s.outAns.head? = some w ∧
        t = ((s.setEnc s.enc.toIdle).dropOutAns 1).logEnc [.answer w, .rsp r (statusOf w)] := by
  unfold finishEncode
  split <;> rename_i h
  · simp [h]
  · rename_i r p
    split <;> rename_i hw
    · simp [h, hw.1, hw.2, eq_comm]
    · simp only [reduceCtorEq, false_iff]
      rintro ⟨_, _, _, h1, h2, _⟩
      exact hw ⟨h1, h2⟩

/-! ## DEC -/

theorem appendByte_maxPacket (b : Byte) (x : ReadResp) :
    appendByte Config.maxPacket b x s =
      .next (takeAnswer x { s.dec with acc := s.dec.acc ++ [b], rd := false, phase := .normal } s) :=
  rfl

theorem finishRead_next_iff {v : DecResult} {x : ReadResp} :
    finishRead v x s = .next t ↔
      ∃ r, s.dec.cur = some r ∧ t = (takeAnswer x s.dec.toIdle s).logDec [.rsp r v] := by
  unfold finishRead
  split <;> rename_i h <;> simp [h, eq_comm]

/-! ## The whole operations -/

theorem encodeWhole_next_iff {r : ReqId} {p : Packet} :
    encodeWhole Config.maxFrame r p s = .next t ↔
      Config.isReqEnc r = true ∧ s.enc.outstanding r = false ∧
        ((s.enc.phase ≠ .idle ∧
            t = (s.setEnc { s.enc with pend := pendSet r p s.enc.pend }).logEnc [.req r p]) ∨
          (s.enc.phase = .idle ∧ s.outAns = [] ∧
            t = (s.setEnc { s.enc with phase := .wait, cur := some (r, p), i := p.length,
                                       fbuf := frame p }).logEnc
              [.req r p, .accept r p, .write (frame p)]) ∨
          (s.enc.phase = .idle ∧ ∃ w rest, s.outAns = w :: rest ∧
            t = ((s.setEnc s.enc.toIdle).dropOutAns 1).logEnc
              [.req r p, .accept r p, .write (frame p), .answer w, .rsp r (statusOf w)])) := by
  unfold encodeWhole issueEncode encodeIdle
  cases Config.isReqEnc r <;> cases s.enc.outstanding r <;>
    by_cases h : s.enc.phase = .idle <;> cases s.outAns <;> simp [h, eq_comm]

/-- With no bound, `rp` never overflows (R146). -/
theorem rp_maxPacket_ne_overflow (acc : Packet) (ph : DecPhase) (xs : List ReadResp) (k : Nat) :
    rp Config.maxPacket acc ph xs k ≠ .overflow := by
  induction xs generalizing acc ph k with
  | nil => simp [rp]
  | cons x t ih =>
    cases x with
    | nodata e => simp [rp]
    | data b =>
      simp only [rp, fits_maxPacket, if_true]
      split_ifs <;> first | exact ih _ _ _ | simp

theorem readWhole_next_iff {r : ReqId} :
    readWhole Config.maxPacket r s = .next t ↔
      Config.isReqDec r = true ∧ s.dec.outstanding r = false ∧
        ((s.dec.phase ≠ .idle ∧
            t = (s.setDec { s.dec with pend := readPendSet r s.dec.pend }).logDec [.req r]) ∨
          (s.dec.phase = .idle ∧ ∃ v k, rp Config.maxPacket [] .normal s.inAns 0 = .done v k ∧
            t = ((s.setDec s.dec.toIdle).dropInAns k).logDec
              ([.req r, .accept r] ++ readEvents (s.inAns.take k) ++ [.rsp r v])) ∨
          (s.dec.phase = .idle ∧ ∃ acc ph k,
            rp Config.maxPacket [] .normal s.inAns 0 = .blocked acc ph k ∧
            t = ((s.setDec { s.dec with phase := ph, rd := true, cur := some r,
                                        acc := acc }).dropInAns k).logDec
              ([.req r, .accept r] ++ readEvents (s.inAns.take k) ++ [.read]))) := by
  unfold readWhole issueRead readIdle
  have hov := rp_maxPacket_ne_overflow [] .normal s.inAns 0
  cases Config.isReqDec r <;> cases s.dec.outstanding r <;>
    by_cases h : s.dec.phase = .idle <;>
    cases hr : rp Config.maxPacket [] .normal s.inAns 0 <;> simp_all [eq_comm]

end Sys2Proof.Machine
end

