-- ==== Sys2Proof/Laws/Exec.lean ====
section
/-! SUPPORT. One inversion lemma per instruction: when it answers a next state, and which. Proofs about every step
cite these and never unfold a meaning. -/

namespace Sys2Proof.Machine

variable {s t : State}

/-! ## ENC -/

theorem exec_encEncode_next_iff {r : ReqId} {p : Packet} :
    exec (.encEncode r p) s = .next t ↔
      Config.isReqEnc r = true ∧ s.enc.outstanding r = false ∧
        ((s.enc.phase ≠ .idle ∧
            t = (s.setEnc { s.enc with pend := pendSet r p s.enc.pend }).logEnc [.req r p]) ∨
          (s.enc.phase = .idle ∧ s.outAns = [] ∧
            t = (s.setEnc { s.enc with phase := .wait, cur := some (r, p), i := p.length,
                                       fbuf := frame p }).logEnc
              [.req r p, .accept r p, .write (frame p)]) ∨
          (s.enc.phase = .idle ∧ ∃ w rest, s.outAns = w :: rest ∧
            t = ((s.setEnc s.enc.toIdle).dropOutAns 1).logEnc
              [.req r p, .accept r p, .write (frame p), .answer w, .rsp r (statusOf w)])) :=
  encodeWhole_next_iff

theorem exec_encAccept_next_iff {r : ReqId} :
    exec (.encAccept r) s = .next t ↔
      ∃ p, s.enc.pending r = some p ∧ s.enc.phase = .idle ∧
        t = (s.setEnc { phase := .opening, cur := some (r, p), i := 0, fbuf := [],
                        pend := pendClear r s.enc.pend }).logEnc [.accept r p] := by
  simp only [exec, execEncAccept]
  split <;> rename_i h
  · simp [h]
  · split <;> rename_i h' <;> simp [h, h', eq_comm]

theorem exec_encOpen_next_iff :
    exec .encOpen s = .next t ↔
      s.enc.phase = .opening ∧ t = s.setEnc { s.enc with fbuf := [END], phase := .stuff } := by
  simp only [exec, execEncOpen, assemble_maxFrame, ite_refused_next_iff, next_eq_next_iff]

theorem exec_encStuffEnd_next_iff :
    exec .encStuffEnd s = .next t ↔
      s.enc.phase = .stuff ∧ s.enc.payloadByte = some END ∧
        t = s.setEnc { s.enc with fbuf := s.enc.fbuf ++ [ESC, ESC_END], i := s.enc.i + 1 } :=
  stuffByte_maxFrame_next_iff

theorem exec_encStuffEsc_next_iff :
    exec .encStuffEsc s = .next t ↔
      s.enc.phase = .stuff ∧ s.enc.payloadByte = some ESC ∧
        t = s.setEnc { s.enc with fbuf := s.enc.fbuf ++ [ESC, ESC_ESC], i := s.enc.i + 1 } :=
  stuffByte_maxFrame_next_iff

theorem exec_encLit_next_iff {b : Byte} :
    exec (.encLit b) s = .next t ↔
      b ≠ END ∧ b ≠ ESC ∧ s.enc.phase = .stuff ∧ s.enc.payloadByte = some b ∧
        t = s.setEnc { s.enc with fbuf := s.enc.fbuf ++ [b], i := s.enc.i + 1 } := by
  simp only [exec, execEncLit]
  split <;> rename_i h
  · simp only [reduceCtorEq, false_iff]
    tauto
  · rw [not_or] at h
    rw [stuffByte_maxFrame_next_iff]
    tauto

theorem exec_encClose_next_iff :
    exec .encClose s = .next t ↔
      s.enc.phase = .stuff ∧ s.enc.atEnd = true ∧
        t = s.setEnc { s.enc with fbuf := s.enc.fbuf ++ [END], phase := .close } := by
  simp only [exec, execEncClose, assemble_maxFrame, ite_refused_next_iff, next_eq_next_iff, and_assoc]

theorem exec_encWrite_next_iff :
    exec .encWrite s = .next t ↔
      s.enc.phase = .close ∧
        t = (s.setEnc { s.enc with phase := .wait }).logEnc [.write s.enc.fbuf] := by
  simp only [exec, execEncWrite, ite_refused_next_iff, next_eq_next_iff]

theorem exec_encDoneOk_next_iff :
    exec .encDoneOk s = .next t ↔
      ∃ r p, s.enc.cur = some (r, p) ∧ s.enc.phase = .wait ∧ s.outAns.head? = some .ok ∧
        t = ((s.setEnc s.enc.toIdle).dropOutAns 1).logEnc [.answer .ok, .rsp r (statusOf .ok)] :=
  finishEncode_next_iff

theorem exec_encDoneFail_next_iff {e : ChanErr} :
    exec (.encDoneFail e) s = .next t ↔
      ∃ r p, s.enc.cur = some (r, p) ∧ s.enc.phase = .wait ∧ s.outAns.head? = some (.fail e) ∧
        t = ((s.setEnc s.enc.toIdle).dropOutAns 1).logEnc
          [.answer (.fail e), .rsp r (statusOf (.fail e))] :=
  finishEncode_next_iff

/-! ## DEC -/

theorem exec_decReadPacket_next_iff {r : ReqId} :
    exec (.decReadPacket r) s = .next t ↔
      Config.isReqDec r = true ∧ s.dec.outstanding r = false ∧
        ((s.dec.phase ≠ .idle ∧
            t = (s.setDec { s.dec with pend := readPendSet r s.dec.pend }).logDec [.req r]) ∨
          (s.dec.phase = .idle ∧ ∃ v k, rp Config.maxPacket [] .normal s.inAns 0 = .done v k ∧
            t = ((s.setDec s.dec.toIdle).dropInAns k).logDec
              ([.req r, .accept r] ++ readEvents (s.inAns.take k) ++ [.rsp r v])) ∨
          (s.dec.phase = .idle ∧ ∃ acc ph k,
            rp Config.maxPacket [] .normal s.inAns 0 = .blocked acc ph k ∧
            t = ((s.setDec { s.dec with phase := ph, rd := true, cur := some r,
                                        acc := acc }).dropInAns k).logDec
              ([.req r, .accept r] ++ readEvents (s.inAns.take k) ++ [.read]))) :=
  readWhole_next_iff

theorem exec_decAccept_next_iff {r : ReqId} :
    exec (.decAccept r) s = .next t ↔
      s.dec.phase = .idle ∧ s.dec.pending r = true ∧
        t = (s.setDec { phase := .normal, rd := false, cur := some r, acc := [],
                        pend := readPendClear r s.dec.pend }).logDec [.accept r] := by
  simp only [exec, execDecAccept, ite_refused_next_iff, next_eq_next_iff, and_assoc]

theorem exec_decRead_next_iff :
    exec .decRead s = .next t ↔
      s.dec.phase ≠ .idle ∧ s.dec.rd = false ∧
        t = (s.setDec { s.dec with rd := true }).logDec [.read] := by
  simp only [exec, execDecRead, ite_refused_next_iff, next_eq_next_iff, and_assoc]

theorem exec_decNFail_next_iff {e : Option ChanErr} :
    exec (.decNFail e) s = .next t ↔
      s.readAnswered .normal (.nodata e) ∧ ∃ r, s.dec.cur = some r ∧
        t = (takeAnswer (.nodata e) s.dec.toIdle s).logDec [.rsp r (prefixOf s.dec.acc e)] := by
  simp only [exec, execDecNFail, ite_refused_next_iff, finishRead_next_iff]

theorem exec_decNEndSkip_next_iff :
    exec .decNEndSkip s = .next t ↔
      s.readAnswered .normal (.data END) ∧ s.dec.acc = [] ∧
        t = takeAnswer (.data END) { s.dec with rd := false } s := by
  simp only [exec, execDecNEndSkip, ite_refused_next_iff, next_eq_next_iff, and_assoc]

theorem exec_decNEndDone_next_iff :
    exec .decNEndDone s = .next t ↔
      s.readAnswered .normal (.data END) ∧ s.dec.acc ≠ [] ∧ ∃ r, s.dec.cur = some r ∧
        t = (takeAnswer (.data END) s.dec.toIdle s).logDec [.rsp r (complete s.dec.acc)] := by
  simp only [exec, execDecNEndDone, ite_refused_next_iff, finishRead_next_iff, ne_eq, and_assoc]

theorem exec_decNEsc_next_iff :
    exec .decNEsc s = .next t ↔
      s.readAnswered .normal (.data ESC) ∧
        t = takeAnswer (.data ESC) { s.dec with rd := false, phase := .escaped } s := by
  simp only [exec, execDecNEsc, ite_refused_next_iff, next_eq_next_iff]

theorem exec_decNLit_next_iff {b : Byte} :
    exec (.decNLit b) s = .next t ↔
      s.readAnswered .normal (.data b) ∧ b ≠ END ∧ b ≠ ESC ∧
        t = takeAnswer (.data b)
          { s.dec with acc := s.dec.acc ++ [b], rd := false, phase := .normal } s := by
  simp only [exec, execDecNLit, appendByte_maxPacket, ite_refused_next_iff, next_eq_next_iff, and_assoc]

theorem exec_decEFail_next_iff {e : Option ChanErr} :
    exec (.decEFail e) s = .next t ↔
      s.readAnswered .escaped (.nodata e) ∧ ∃ r, s.dec.cur = some r ∧
        t = (takeAnswer (.nodata e) s.dec.toIdle s).logDec [.rsp r (prefixOf s.dec.acc e)] := by
  simp only [exec, execDecEFail, ite_refused_next_iff, finishRead_next_iff]

theorem exec_decEEnd_next_iff :
    exec .decEEnd s = .next t ↔
      s.readAnswered .escaped (.data ESC_END) ∧
        t = takeAnswer (.data ESC_END)
          { s.dec with acc := s.dec.acc ++ [END], rd := false, phase := .normal } s := by
  simp only [exec, execDecEEnd, appendByte_maxPacket, ite_refused_next_iff, next_eq_next_iff]

theorem exec_decEEsc_next_iff :
    exec .decEEsc s = .next t ↔
      s.readAnswered .escaped (.data ESC_ESC) ∧
        t = takeAnswer (.data ESC_ESC)
          { s.dec with acc := s.dec.acc ++ [ESC], rd := false, phase := .normal } s := by
  simp only [exec, execDecEEsc, appendByte_maxPacket, ite_refused_next_iff, next_eq_next_iff]

theorem exec_decELit_next_iff {b : Byte} :
    exec (.decELit b) s = .next t ↔
      s.readAnswered .escaped (.data b) ∧ b ≠ ESC_END ∧ b ≠ ESC_ESC ∧
        t = takeAnswer (.data b)
          { s.dec with acc := s.dec.acc ++ [b], rd := false, phase := .normal } s := by
  simp only [exec, execDecELit, appendByte_maxPacket, ite_refused_next_iff, next_eq_next_iff, and_assoc]

end Sys2Proof.Machine
end

