-- ==== Sys2Proof/Laws/Frame.lean ====
section
/-! SUPPORT. Small lemmas of byte stuffing and of unescaping (30_encoding.md R71 to R73). -/

namespace Sys2Proof.Machine

theorem stuff_END : stuff END = [ESC, ESC_END] := rfl

theorem stuff_ESC : stuff ESC = [ESC, ESC_ESC] := rfl

theorem stuff_literal {b : Byte} (h : b ≠ END) (h' : b ≠ ESC) : stuff b = [b] := by
  simp [stuff, h, h']

/-- The three forms of a stuffed byte (R72). -/
theorem stuff_cases (b : Byte) :
    (b = END ∧ stuff b = [ESC, ESC_END]) ∨ (b = ESC ∧ stuff b = [ESC, ESC_ESC]) ∨
      (b ≠ END ∧ b ≠ ESC ∧ stuff b = [b]) := by
  by_cases h : b = END
  · exact .inl ⟨h, by rw [h, stuff_END]⟩
  · by_cases h' : b = ESC
    · exact .inr (.inl ⟨h', by rw [h', stuff_ESC]⟩)
    · exact .inr (.inr ⟨h, h', stuff_literal h h'⟩)

theorem stuffAll_nil : stuffAll [] = [] := rfl

theorem stuffAll_cons (b : Byte) (p : Packet) : stuffAll (b :: p) = stuff b ++ stuffAll p := rfl

theorem stuffAll_append (p q : Packet) : stuffAll (p ++ q) = stuffAll p ++ stuffAll q :=
  List.flatMap_append

theorem frame_eq (p : Packet) : frame p = END :: (stuffAll p ++ [END]) := rfl

theorem unescape_ESC_END : unescape ESC_END = END := rfl

theorem unescape_ESC_ESC : unescape ESC_ESC = ESC := rfl

theorem unescape_other {x : Byte} (h : x ≠ ESC_END) (h' : x ≠ ESC_ESC) : unescape x = x := by
  simp [unescape, h, h']

end Sys2Proof.Machine
end

