-- ==== Sys2Proof/Laws/Pending.lean ====
section
/-! SUPPORT. The pending-request sets: reading after setting and clearing, and that the operations keep the
canonical form (10_state.md R25; log entry 14). -/

namespace Sys2Proof.Machine

/-! ## enc_pend -/

theorem lookup_pendSet_self (r : ReqId) (p : Packet) (l : List (ReqId × Packet)) :
    (pendSet r p l).lookup r = some p := by
  induction l with
  | nil => simp [pendSet]
  | cons c t ih =>
    obtain ⟨k, q⟩ := c
    simp only [pendSet]
    split_ifs with h h'
    · simp
    · simp
    · rw [List.lookup_cons, beq_eq_false_iff_ne.mpr h', ih]

theorem lookup_pendSet_ne (r r' : ReqId) (h : r' ≠ r) (p : Packet) (l : List (ReqId × Packet)) :
    (pendSet r p l).lookup r' = l.lookup r' := by
  have hb := beq_eq_false_iff_ne.mpr h
  induction l with
  | nil => simp [pendSet, List.lookup_cons, hb]
  | cons c t ih =>
    obtain ⟨k, q⟩ := c
    simp only [pendSet]
    split_ifs with hlt heq
    · rw [List.lookup_cons, hb]
    · subst heq
      simp only [List.lookup_cons, hb]
    · simp only [List.lookup_cons, ih]

theorem lookup_pendClear_self (r : ReqId) (l : List (ReqId × Packet)) :
    (pendClear r l).lookup r = none := by
  induction l with
  | nil => rfl
  | cons c t ih =>
    obtain ⟨k, q⟩ := c
    unfold pendClear at ih ⊢
    by_cases h : k = r
    · simpa [h] using ih
    · have : (r == k) = false := beq_eq_false_iff_ne.mpr (Ne.symm h)
      rw [List.filter_cons_of_pos (by simpa using h), List.lookup_cons, this, ih]

theorem lookup_pendClear_ne (r r' : ReqId) (h : r' ≠ r) (l : List (ReqId × Packet)) :
    (pendClear r l).lookup r' = l.lookup r' := by
  induction l with
  | nil => rfl
  | cons c t ih =>
    obtain ⟨k, q⟩ := c
    unfold pendClear at ih ⊢
    by_cases hc : k = r
    · subst hc
      rw [List.filter_cons_of_neg (by simp), ih, List.lookup_cons, beq_eq_false_iff_ne.mpr h]
    · rw [List.filter_cons_of_pos (by simpa using hc), List.lookup_cons, List.lookup_cons, ih]

theorem mem_of_lookup {r : ReqId} {p : Packet} {l : List (ReqId × Packet)}
    (h : l.lookup r = some p) : (r, p) ∈ l := by
  induction l with
  | nil => simp at h
  | cons c t ih =>
    obtain ⟨k, q⟩ := c
    rw [List.lookup_cons] at h
    split at h
    · rename_i hc
      simp only [beq_iff_eq] at hc
      simp only [Option.some.injEq] at h
      subst hc h
      simp
    · simp [ih h]

theorem lookup_eq_none_iff_forall_ne {r : ReqId} {l : List (ReqId × Packet)} :
    l.lookup r = none ↔ ∀ c ∈ l, c.1 ≠ r := by
  induction l with
  | nil => simp
  | cons c t ih =>
    obtain ⟨k, q⟩ := c
    rw [List.lookup_cons]
    split
    · rename_i hc
      simp only [beq_iff_eq] at hc
      simp [hc]
    · rename_i hc
      simp only [beq_eq_false_iff_ne] at hc
      simp [ih, Ne.symm hc]

/-- A request that was not pending leaves no trace when its pending entry is set and cleared. -/
theorem pendClear_pendSet {r : ReqId} {p : Packet} {l : List (ReqId × Packet)}
    (h : l.lookup r = none) : pendClear r (pendSet r p l) = l := by
  rw [lookup_eq_none_iff_forall_ne] at h
  induction l with
  | nil => simp [pendSet, pendClear]
  | cons c t ih =>
    have hc : c.1 ≠ r := h c (by simp)
    have ht := fun d hd => h d (List.mem_cons_of_mem _ hd)
    have hall : pendClear r (c :: t) = c :: t := by
      rw [pendClear, List.filter_eq_self]
      intro d hd
      simpa using h d hd
    simp only [pendSet]
    split
    · simpa [pendClear, List.filter_cons] using hall
    · split
      · rename_i hrc; exact absurd hrc.symm hc
      · have := ih ht
        rw [pendClear] at this ⊢
        simp [hc, this]

theorem mem_pendSet {r : ReqId} {p : Packet} {l : List (ReqId × Packet)} {c : ReqId × Packet}
    (h : c ∈ pendSet r p l) : c = (r, p) ∨ c ∈ l := by
  induction l with
  | nil => simpa [pendSet] using h
  | cons d t ih =>
    simp only [pendSet] at h
    split at h
    · simpa using h
    · split at h
      · simp only [List.mem_cons] at h ⊢
        tauto
      · simp only [List.mem_cons] at h ⊢
        rcases h with h | h
        · exact .inr (.inl h)
        · rcases ih h with h | h
          · exact .inl h
          · exact .inr (.inr h)

theorem pairwise_pendSet (r : ReqId) (p : Packet) {l : List (ReqId × Packet)}
    (h : l.Pairwise (fun a b => a.1 < b.1)) : (pendSet r p l).Pairwise (fun a b => a.1 < b.1) := by
  induction l with
  | nil => simp [pendSet]
  | cons c t ih =>
    rw [List.pairwise_cons] at h
    simp only [pendSet]
    split
    · rename_i hr
      refine List.pairwise_cons.mpr ⟨?_, List.pairwise_cons.mpr h⟩
      intro d hd
      rcases List.mem_cons.mp hd with rfl | hd
      · exact hr
      · exact lt_trans hr (h.1 d hd)
    · split
      · rename_i hr
        subst hr
        exact List.pairwise_cons.mpr h
      · refine List.pairwise_cons.mpr ⟨?_, ih h.2⟩
        intro d hd
        rcases mem_pendSet hd with rfl | hd
        · exact lt_of_le_of_ne (not_lt.mp ‹_›) (Ne.symm ‹_›)
        · exact h.1 d hd

theorem pairwise_pendClear (r : ReqId) {l : List (ReqId × Packet)}
    (h : l.Pairwise (fun a b => a.1 < b.1)) : (pendClear r l).Pairwise (fun a b => a.1 < b.1) :=
  h.filter _

/-! ## dec_pend -/

theorem mem_readPendSet {r k : ReqId} {l : List ReqId} :
    k ∈ readPendSet r l ↔ k = r ∨ k ∈ l := by
  induction l with
  | nil => simp [readPendSet]
  | cons d t ih =>
    simp only [readPendSet]
    split
    · simp
    · split
      · rename_i h; subst h; simp
      · simp only [List.mem_cons, ih]
        tauto

theorem mem_readPendClear {r k : ReqId} {l : List ReqId} :
    k ∈ readPendClear r l ↔ k ≠ r ∧ k ∈ l := by
  simp [readPendClear, and_comm]

/-- A read request that was not pending leaves no trace when it is set and cleared. -/
theorem readPendClear_readPendSet {r : ReqId} {l : List ReqId} (h : r ∉ l) :
    readPendClear r (readPendSet r l) = l := by
  induction l with
  | nil => simp [readPendSet, readPendClear]
  | cons d t ih =>
    simp only [List.mem_cons, not_or] at h
    have ht := ih h.2
    have hall : readPendClear r t = t := by
      rw [readPendClear, List.filter_eq_self]
      intro k hk
      simpa using ne_of_mem_of_not_mem hk h.2
    simp only [readPendSet]
    split
    · rw [readPendClear] at hall ⊢
      simp [Ne.symm h.1, hall]
    · split
      · rename_i hrd; exact absurd hrd h.1
      · rw [readPendClear] at ht ⊢
        simp [Ne.symm h.1, ht]

theorem pairwise_readPendSet (r : ReqId) {l : List ReqId} (h : l.Pairwise (fun a b => a < b)) :
    (readPendSet r l).Pairwise (fun a b => a < b) := by
  induction l with
  | nil => simp [readPendSet]
  | cons d t ih =>
    rw [List.pairwise_cons] at h
    simp only [readPendSet]
    split
    · rename_i hr
      refine List.pairwise_cons.mpr ⟨?_, List.pairwise_cons.mpr h⟩
      intro k hk
      rcases List.mem_cons.mp hk with rfl | hk
      · exact hr
      · exact lt_trans hr (h.1 k hk)
    · split
      · exact List.pairwise_cons.mpr h
      · refine List.pairwise_cons.mpr ⟨?_, ih h.2⟩
        intro k hk
        rcases mem_readPendSet.mp hk with rfl | hk
        · exact lt_of_le_of_ne (not_lt.mp ‹_›) (Ne.symm ‹_›)
        · exact h.1 k hk

theorem pairwise_readPendClear (r : ReqId) {l : List ReqId} (h : l.Pairwise (fun a b => a < b)) :
    (readPendClear r l).Pairwise (fun a b => a < b) :=
  h.filter _

/-! ## Outstanding requests -/

theorem Enc.outstanding_eq_false {e : Enc} {r : ReqId} :
    e.outstanding r = false ↔ e.pend.lookup r = none ∧ e.cur.map Prod.fst ≠ some r := by
  simp [Enc.outstanding, Enc.pending]

theorem Dec.outstanding_eq_false {d : Dec} {r : ReqId} :
    d.outstanding r = false ↔ r ∉ d.pend ∧ d.cur ≠ some r := by
  simp [Dec.outstanding, Dec.pending]

end Sys2Proof.Machine
end

