-- ==== Sys2Proof/Laws/PerInstr.lean ====
section
/-! SUPPORT. One lemma per instruction: its encoding has the format the opcode table gives its row (30_encoding.md
R83). -/

namespace Sys2Proof.Laws.EncodedFormat

/-- The selection an instruction encodes to is of the table's format for its row. -/
def Statement (i : Instr) : Prop := (encode i).format = i.format

theorem encEncode (r : ReqId) (p : Packet) : Statement (.encEncode r p) := rfl

theorem encAccept (r : ReqId) : Statement (.encAccept r) := rfl

theorem encOpen : Statement .encOpen := rfl

theorem encStuffEnd : Statement .encStuffEnd := rfl

theorem encStuffEsc : Statement .encStuffEsc := rfl

theorem encLit (b : Byte) : Statement (.encLit b) := rfl

theorem encClose : Statement .encClose := rfl

theorem encWrite : Statement .encWrite := rfl

theorem encDoneOk : Statement .encDoneOk := rfl

theorem encDoneFail (e : ChanErr) : Statement (.encDoneFail e) := rfl

theorem decReadPacket (r : ReqId) : Statement (.decReadPacket r) := rfl

theorem decAccept (r : ReqId) : Statement (.decAccept r) := rfl

theorem decRead : Statement .decRead := rfl

theorem decNFail (e : Option ChanErr) : Statement (.decNFail e) := rfl

theorem decNEndSkip : Statement .decNEndSkip := rfl

theorem decNEndDone : Statement .decNEndDone := rfl

theorem decNEsc : Statement .decNEsc := rfl

theorem decNLit (b : Byte) : Statement (.decNLit b) := rfl

theorem decEFail (e : Option ChanErr) : Statement (.decEFail e) := rfl

theorem decEEnd : Statement .decEEnd := rfl

theorem decEEsc : Statement .decEEsc := rfl

theorem decELit (b : Byte) : Statement (.decELit b) := rfl

end Sys2Proof.Laws.EncodedFormat
end

