-- ==== Sys2Proof/Laws/Renaming.lean ====
section
/-! SUPPORT. What renaming the channel errors of a state changes, field by field (60_exceptions.md R171). -/

namespace Sys2Proof.Machine

variable (f : ChanErr → ChanErr) (s : State)

@[simp] theorem State.renameErr_enc : (s.renameErr f).enc = s.enc := rfl

@[simp] theorem State.renameErr_dec : (s.renameErr f).dec = s.dec := rfl

@[simp] theorem State.renameErr_sched : (s.renameErr f).sched = s.sched := rfl

@[simp] theorem State.renameErr_outAns :
    (s.renameErr f).outAns = s.outAns.map (renameWriteErr f) := rfl

@[simp] theorem State.renameErr_inAns :
    (s.renameErr f).inAns = s.inAns.map (renameReadErr f) := rfl

@[simp] theorem State.renameErr_encLog :
    (s.renameErr f).encLog = s.encLog.map (EncEvent.renameErr f) := rfl

@[simp] theorem State.renameErr_decLog :
    (s.renameErr f).decLog = s.decLog.map (DecEvent.renameErr f) := rfl

/-! Renaming goes past each update. -/

theorem State.renameErr_setEnc (e : Enc) : (s.setEnc e).renameErr f = (s.renameErr f).setEnc e := rfl

theorem State.renameErr_setDec (d : Dec) : (s.setDec d).renameErr f = (s.renameErr f).setDec d := rfl

theorem State.renameErr_setSched (ms : List Move) :
    (s.setSched ms).renameErr f = (s.renameErr f).setSched ms := rfl

theorem State.renameErr_dropOutAns (n : Nat) :
    (s.dropOutAns n).renameErr f = (s.renameErr f).dropOutAns n := by
  simp [State.renameErr, State.dropOutAns, List.map_drop]

theorem State.renameErr_dropInAns (n : Nat) :
    (s.dropInAns n).renameErr f = (s.renameErr f).dropInAns n := by
  simp [State.renameErr, State.dropInAns, List.map_drop]

theorem State.renameErr_logEnc (evs : List EncEvent) :
    (s.logEnc evs).renameErr f = (s.renameErr f).logEnc (evs.map (EncEvent.renameErr f)) := by
  simp [State.renameErr, State.logEnc]

theorem State.renameErr_logDec (evs : List DecEvent) :
    (s.logDec evs).renameErr f = (s.renameErr f).logDec (evs.map (DecEvent.renameErr f)) := by
  simp [State.renameErr, State.logDec]

end Sys2Proof.Machine
end

