-- ==== Sys2Proof/Laws/Step.lean ====
section
/-! SUPPORT. What one step can do: the cases every proof about steps starts from. -/

namespace Sys2Proof.Machine

/-- A step that answers a next state leaves the state (less its first scheduled move), issues a request,
or runs the instruction that the move's selection decodes to. -/
theorem step_next_cases {s t : State} (h : step s = .next t) :
    (s.sched = [] ∧ t = s) ∨
    ∃ m ms, s.sched = m :: ms ∧
      (t = s.setSched ms ∨
        (∃ r p, m = .issueEncode r p ∧ issueEncode r p (s.setSched ms) = .next t) ∨
        (∃ r, m = .issueRead r ∧ issueRead r (s.setSched ms) = .next t) ∨
        (∃ x, (s.setSched ms).select m = some x ∧ exec (decode x) (s.setSched ms) = .next t)) := by
  unfold step at h
  split at h <;> rename_i hs
  · simp only [Host.Outcome.next.injEq] at h
    exact .inl ⟨hs, h.symm⟩
  · rename_i m ms
    refine .inr ⟨m, ms, hs, ?_⟩
    have run : ∀ m', runMove.runSelected ((s.setSched ms).select m') (s.setSched ms) = .next t →
        t = s.setSched ms ∨
          ∃ x, (s.setSched ms).select m' = some x ∧ exec (decode x) (s.setSched ms) = .next t := by
      intro m' h
      unfold runMove.runSelected at h
      split at h <;> rename_i hx
      · exact .inr ⟨_, hx, h⟩
      · simp only [Host.Outcome.next.injEq] at h
        exact .inl h.symm
    unfold runMove at h
    split at h
    · exact .inr (.inl ⟨_, _, rfl, h⟩)
    · exact .inr (.inr (.inl ⟨_, rfl, h⟩))
    all_goals rcases run _ h with h | h
    all_goals first | exact .inl h | exact .inr (.inr (.inr h))

end Sys2Proof.Machine
end

