-- ==== Sys2Proof/Tests/Slice0.lean ====
section
/-! SUPPORT. Tests of single steps, with results taken from spec/30_encoding.md, the examples of spec/41_encoder.md
and spec/42_decoder.md and the vectors of spec/95_test_vectors.md; and a state for each statement's hypotheses. -/

namespace Sys2Proof.Tests

open Sys2Proof.Machine

/-! ## Small states -/

/-- ENC in a phase, serving requester 0 and a packet, with the coming write answers. -/
def encAt (ph : EncPhase) (p : Packet) (i : Nat) (f : List Byte) (ws : List WriteResp) : State :=
  { State.reset with
    enc := { phase := ph, cur := some (0, p), i := i, fbuf := f, pend := [] }, outAns := ws }

/-- DEC in a phase, serving requester 0, with the coming read answers. -/
def decAt (ph : DecPhase) (rd : Bool) (acc : Packet) (xs : List ReadResp) : State :=
  { State.reset with
    dec := { phase := ph, rd := rd, cur := some 0, acc := acc, pend := [] }, inAns := xs }

/-- Both agents idle, with the coming answers of both channels. -/
def idleWith (ws : List WriteResp) (xs : List ReadResp) : State :=
  { State.reset with outAns := ws, inAns := xs }

/-- The bytes as read answers. -/
def dataOf (bs : List Byte) : List ReadResp := bs.map .data

/-- The next state of an outcome, if it is one. -/
def nextOf : Result → Option State
  | .next s => some s
  | .fault _ => none
  | .refused _ => none

/-- The refusal of an outcome, if it is one. -/
def refusalOf : Result → Option Refusal
  | .next _ => none
  | .fault _ => none
  | .refused x => some x

/-! ## Well-formedness: each check refuses an ill-formed term -/

theorem test_wf_refuses_reserved_literals :
    (Instr.encLit 0xC0#8).wf = false ∧ (Instr.encLit 0xDB#8).wf = false ∧
    (Instr.decNLit 0xC0#8).wf = false ∧ (Instr.decNLit 0xDB#8).wf = false ∧
    (Instr.decELit 0xDC#8).wf = false ∧ (Instr.decELit 0xDD#8).wf = false := by decide

theorem test_wf_accepts_other_literals :
    (Instr.encLit 0xDC#8).wf = true ∧ (Instr.decNLit 0xDD#8).wf = true ∧
    (Instr.decELit 0xC0#8).wf = true ∧ (Instr.decELit 0xDB#8).wf = true := by decide

theorem test_wf_refuses_unknown_enc_requester :
    (Instr.encEncode (Config.lastReqEnc + 1) []).wf = false ∧
    (Instr.encAccept (Config.lastReqEnc + 1)).wf = false ∧
    (Select.encRequest (Config.lastReqEnc + 1) []).wf = false ∧
    (Select.encPending (Config.lastReqEnc + 1)).wf = false := by
  simp [Config.isReqEnc]

theorem test_wf_refuses_unknown_dec_requester :
    (Instr.decReadPacket (Config.lastReqDec + 1)).wf = false ∧
    (Instr.decAccept (Config.lastReqDec + 1)).wf = false ∧
    (Select.decRequest (Config.lastReqDec + 1)).wf = false ∧
    (Select.decPending (Config.lastReqDec + 1)).wf = false := by
  simp [Config.isReqDec]

theorem test_requesters_of_each_set :
    Config.isReqEnc Config.lastReqEnc = true ∧ Config.isReqEnc 0 = true ∧
    Config.isReqDec Config.lastReqDec = true ∧ Config.isReqDec 0 = true := by
  simp [Config.isReqEnc, Config.isReqDec]

/-! ## Decoding: each row by what selects it in R83, bytes written out bit by bit from R70 -/

theorem test_decode_enc_byte_rows :
    decode (.encByte 0b11000000#8) = .encStuffEnd ∧
    decode (.encByte 0b11011011#8) = .encStuffEsc ∧
    decode (.encByte 0b11011100#8) = .encLit 0b11011100#8 ∧
    decode (.encByte 0b11011101#8) = .encLit 0b11011101#8 ∧
    decode (.encByte 0b00000000#8) = .encLit 0b00000000#8 := by decide

theorem test_decode_enc_control_rows :
    decode (.encRequest 0 [0x41#8]) = .encEncode 0 [0x41#8] ∧
    decode (.encPending 0) = .encAccept 0 ∧ decode .encOpened = .encOpen ∧
    decode .encAtEnd = .encClose ∧ decode .encClosed = .encWrite ∧
    decode (.encAnswer .ok) = .encDoneOk ∧ decode (.encAnswer (.fail .eos)) = .encDoneFail .eos := by
  decide

theorem test_decode_dec_control_rows :
    decode (.decRequest 0) = .decReadPacket 0 ∧ decode (.decPending 0) = .decAccept 0 ∧
    decode .decUnread = .decRead := by decide

theorem test_decode_normal_rows :
    decode (.decNormal true (.nodata none)) = .decNFail none ∧
    decode (.decNormal true (.data 0b11000000#8)) = .decNEndSkip ∧
    decode (.decNormal false (.data 0b11000000#8)) = .decNEndDone ∧
    decode (.decNormal true (.data 0b11011011#8)) = .decNEsc ∧
    decode (.decNormal true (.data 0b11011100#8)) = .decNLit 0b11011100#8 := by decide

theorem test_decode_escaped_rows :
    decode (.decEscaped (.nodata (some .eos))) = .decEFail (some .eos) ∧
    decode (.decEscaped (.data 0b11011100#8)) = .decEEnd ∧
    decode (.decEscaped (.data 0b11011101#8)) = .decEEsc ∧
    decode (.decEscaped (.data 0b11000000#8)) = .decELit 0b11000000#8 ∧
    decode (.decEscaped (.data 0b11011011#8)) = .decELit 0b11011011#8 := by decide

theorem test_decode_table_words :
    decodeTableWord 8 0xC0 = some .encStuffEnd ∧ decodeTableWord 8 0xDB = some .encStuffEsc ∧
    decodeTableWord 8 0xDC = some .decEEnd ∧ decodeTableWord 8 0xDD = some .decEEsc ∧
    decodeTableWord 8 0x41 = some (.encLit 0x41#8) ∧ decodeTableWord 16 0xC0 = none := by decide

theorem test_step_runs_placed_word :
    ((nextOf (step (State.reset.withFetchWord 8 0xC0))).map (fun t => t.enc.fbuf))
      = some [0xC0#8, 0xDB#8, 0xDC#8] ∧
    ((nextOf (step (State.reset.withFetchWord 8 0xDC))).map (fun t => t.dec.acc))
      = some [0xC0#8] := by decide

/-! ## The steps of ENC (the examples of R101 to R109) -/

/-- V50: with requests of 1 and 2 pending, either may be accepted. -/
theorem test_encAccept_takes_any_pending :
    let s := { State.reset with enc := { Enc.reset with pend := [(1, [0x01#8]), (2, [0x02#8])] } }
    ((nextOf (exec (.encAccept 2) s)).map (fun t => (t.enc.cur, t.enc.pend)))
      = some (some (2, [0x02#8]), [(1, [0x01#8])]) ∧
    ((nextOf (exec (.encAccept 1) s)).map (fun t => t.enc.cur)) = some (some (1, [0x01#8])) := by
  decide

theorem test_encAccept_locked :
    refusalOf (exec (.encAccept 1)
      { encAt .stuff [] 0 [] [] with
        enc := { (encAt .stuff [] 0 [] []).enc with pend := [(1, [0x01#8])] } })
      = some .notSelected := by decide

theorem test_encOpen :
    ((nextOf (exec .encOpen (encAt .opening [0x41#8] 0 [] []))).map
      (fun t => (t.enc.fbuf, t.enc.phase))) = some ([0xC0#8], .stuff) := by decide

theorem test_encStuffEnd :
    ((nextOf (exec .encStuffEnd (encAt .stuff [0xC0#8] 0 [0xC0#8] []))).map
      (fun t => (t.enc.fbuf, t.enc.i))) = some ([0xC0#8, 0xDB#8, 0xDC#8], 1) := by decide

theorem test_encStuffEsc :
    ((nextOf (exec .encStuffEsc (encAt .stuff [0xDB#8] 0 [0xC0#8] []))).map
      (fun t => (t.enc.fbuf, t.enc.i))) = some ([0xC0#8, 0xDB#8, 0xDD#8], 1) := by decide

theorem test_encLit_copies_escape_second_byte :
    ((nextOf (exec (.encLit 0xDD#8) (encAt .stuff [0xDD#8] 0 [0xC0#8] []))).map
      (fun t => t.enc.fbuf)) = some [0xC0#8, 0xDD#8] := by decide

theorem test_encClose :
    ((nextOf (exec .encClose (encAt .stuff [0x41#8] 1 [0xC0#8, 0x41#8] []))).map
      (fun t => (t.enc.fbuf, t.enc.phase))) = some ([0xC0#8, 0x41#8, 0xC0#8], .close) := by decide

theorem test_encWrite :
    ((nextOf (exec .encWrite (encAt .close [] 0 [0xC0#8, 0xC0#8] []))).map
      (fun t => (t.encLog, t.enc.phase))) = some ([.write [0xC0#8, 0xC0#8]], .wait) := by decide

theorem test_encDoneOk :
    ((nextOf (exec .encDoneOk (encAt .wait [0x01#8] 1 [0xC0#8, 0x01#8, 0xC0#8] [.ok]))).map
      (fun t => (t.encLog, t.enc))) = some ([.answer .ok, .rsp 0 .ok], Enc.reset) := by decide

theorem test_encDoneFail :
    ((nextOf (exec (.encDoneFail .eos)
      (encAt .wait [0x01#8] 1 [0xC0#8, 0x01#8, 0xC0#8] [.fail .eos, .ok]))).map
      (fun t => (t.encLog, t.enc, t.outAns)))
      = some ([.answer (.fail .eos), .rsp 0 (.fail .eos)], Enc.reset, [.ok]) := by decide

/-- An error other than EOS, whichever members there are. -/
theorem test_encDoneFail_other_error (n : Nat) (h : Config.isOtherErr n = true) :
    ((nextOf (exec (.encDoneFail (.other n h))
      (encAt .wait [0x01#8] 1 [0xC0#8, 0x01#8, 0xC0#8] [.fail (.other n h)]))).map
      (fun t => (encReplies t.encLog, t.enc))) = some ([(0, .fail (.other n h))], Enc.reset) := by
  simp [exec, execEncDoneFail, finishEncode, encAt, State.reset, Enc.reset, Enc.toIdle, State.setEnc,
    State.dropOutAns, State.logEnc, nextOf, encReplies, statusOf]

/-- V12. -/
theorem test_encEncode_writes_v12 :
    ((nextOf (exec (.encEncode 0 [0x01#8, 0xC0#8, 0x02#8, 0xDB#8, 0x03#8])
      (idleWith [.ok] []))).map (fun t => issuedFrames t.encLog))
      = some [[0xC0#8, 0x01#8, 0xDB#8, 0xDC#8, 0x02#8, 0xDB#8, 0xDD#8, 0x03#8, 0xC0#8]] := by decide

/-- V15, its first operation. -/
theorem test_encEncode_fails_once :
    ((nextOf (exec (.encEncode 0 [0x41#8]) (idleWith [.fail .eos, .ok] []))).map
      (fun t => (encReplies t.encLog, issuedFrames t.encLog, t.outAns)))
      = some ([(0, .fail .eos)], [[0xC0#8, 0x41#8, 0xC0#8]], [.ok]) := by decide

/-! ## The steps of DEC (the examples of R131 to R141) -/

theorem test_decAccept :
    ((nextOf (exec (.decAccept 2) { State.reset with dec := { Dec.reset with pend := [1, 2] } })).map
      (fun t => t.dec)) = some ⟨.normal, false, some 2, [], [1]⟩ := by decide

theorem test_decRead :
    ((nextOf (exec .decRead (decAt .normal false [] []))).map (fun t => (t.dec.rd, t.decLog)))
      = some (true, [.read]) ∧
    refusalOf (exec .decRead (decAt .normal true [] [])) = some .notSelected := by decide

theorem test_decNFail :
    ((nextOf (exec (.decNFail none) (decAt .normal true [0x01#8, 0x02#8] [.nodata none]))).map
      (fun t => (decReplies t.decLog, t.dec)))
      = some ([(0, ⟨[0x01#8, 0x02#8], true, none⟩)], Dec.reset) := by decide

theorem test_decNEndSkip :
    ((nextOf (exec .decNEndSkip (decAt .normal true [] (dataOf [0xC0#8])))).map
      (fun t => (t.dec.acc, t.dec.rd, t.dec.phase))) = some ([], false, .normal) := by decide

theorem test_decNEndDone :
    ((nextOf (exec .decNEndDone (decAt .normal true [0x00#8] (dataOf [0xC0#8, 0x41#8])))).map
      (fun t => (decReplies t.decLog, t.dec, t.inAns)))
      = some ([(0, ⟨[0x00#8], false, none⟩)], Dec.reset, dataOf [0x41#8]) := by decide

theorem test_decNEsc :
    ((nextOf (exec .decNEsc (decAt .normal true [0x41#8] (dataOf [0xDB#8])))).map
      (fun t => (t.dec.acc, t.dec.phase))) = some ([0x41#8], .escaped) := by decide

theorem test_decNLit_appends_escape_second_byte :
    ((nextOf (exec (.decNLit 0xDC#8) (decAt .normal true [] (dataOf [0xDC#8])))).map
      (fun t => t.dec.acc)) = some [0xDC#8] := by decide

theorem test_decEFail :
    ((nextOf (exec (.decEFail (some .eos))
      (decAt .escaped true [0x41#8] [.nodata (some .eos)]))).map
      (fun t => (decReplies t.decLog, t.dec)))
      = some ([(0, ⟨[0x41#8], true, some .eos⟩)], Dec.reset) := by decide

theorem test_decEEnd :
    ((nextOf (exec .decEEnd (decAt .escaped true [] (dataOf [0xDC#8])))).map
      (fun t => (t.dec.acc, t.dec.phase))) = some ([0xC0#8], .normal) := by decide

theorem test_decEEsc :
    ((nextOf (exec .decEEsc (decAt .escaped true [] (dataOf [0xDD#8])))).map
      (fun t => (t.dec.acc, t.dec.phase))) = some ([0xDB#8], .normal) := by decide

theorem test_decELit_end_is_payload :
    ((nextOf (exec (.decELit 0xC0#8) (decAt .escaped true [0x41#8] (dataOf [0xC0#8])))).map
      (fun t => (t.dec.acc, t.dec.phase, t.decLog)))
      = some ([0x41#8, 0xC0#8], .normal, [.answer (.data 0xC0#8)]) := by decide

/-- V31, its first operation: the stray ESC makes the trailing END payload. -/
theorem test_decReadPacket_v31 :
    ((nextOf (exec (.decReadPacket 0)
      (idleWith [] (dataOf [0xC0#8, 0x41#8, 0xDB#8, 0xC0#8, 0xC0#8, 0x42#8, 0xC0#8])))).map
      (fun t => (decReplies t.decLog, t.inAns)))
      = some ([(0, ⟨[0x41#8, 0xC0#8], false, none⟩)], dataOf [0x42#8, 0xC0#8]) := by decide

/-- V30: a pending ESC contributes nothing. -/
theorem test_decReadPacket_v30 :
    ((nextOf (exec (.decReadPacket 0)
      (idleWith [] (dataOf [0xC0#8, 0x41#8, 0xDB#8] ++ [.nodata (some .eos)])))).map
      (fun t => (decReplies t.decLog, issuedReads t.decLog)))
      = some ([(0, ⟨[0x41#8], true, some .eos⟩)], 4) := by decide

/-- V32, V35, V38, V42: ESC ESC does not chain, and the ends of the range of outcomes. -/
theorem test_rp_vectors :
    rp none [] .normal (dataOf [0xC0#8, 0xDB#8, 0xDB#8, 0xDC#8, 0xC0#8]) 0
      = .done ⟨[0xDB#8, 0xDC#8], false, none⟩ 5 ∧
    rp none [] .normal (dataOf [0xDC#8, 0x42#8, 0xC0#8]) 0
      = .done ⟨[0xDC#8, 0x42#8], false, none⟩ 3 ∧
    rp none [] .normal (dataOf [0xDB#8, 0xDC#8, 0xC0#8]) 0 = .done ⟨[0xC0#8], false, none⟩ 3 ∧
    rp none [] .normal (dataOf [0x41#8, 0x42#8]) 0 = .blocked [0x41#8, 0x42#8] .normal 2 := by
  decide

/-! ## A state for the hypotheses of each statement -/

theorem witness_DecodeEncodeAgree :
    (Instr.decELit 0xC0#8).wf = true ∧ (Select.decPending 0).wf = true := by decide

theorem witness_FrameLengthFormula :
    ∀ b ∈ [0xC0#8, 0xDB#8], b = (0xC0#8 : Byte) ∨ b = (0xDB#8 : Byte) := by decide

theorem witness_FrameStructure :
    (frame [0xDB#8])[0]? = some 0xC0#8 ∧ (frame [0xDB#8])[3]? = some 0xC0#8 ∧
    (frame [0xDB#8])[1]? = some 0xDB#8 ∧ stuffAll [0xDC#8] = stuffAll [0xDC#8] ∧
    ((0xDC#8 : Byte) = 0xDC#8 ∨ (0xDC#8 : Byte) = 0xDD#8) := by decide

/-- Requests of 1 and 2 pending at ENC, which is idle. -/
def encTwoPending : State :=
  { State.reset with enc := { Enc.reset with pend := [(1, [0x01#8]), (2, [0x02#8])] } }

theorem witness_EncAccept :
    encTwoPending.enc.phase = .idle ∧ encTwoPending.enc.pending 2 = some [0x02#8] ∧
    (2 : ReqId) ≠ 1 ∧ encTwoPending.enc.pending 3 = none ∧
    (encAt .wait [] 0 [0xC0#8, 0xC0#8] []).enc.phase ≠ .idle := by decide

theorem witness_EncOpen : (encAt .opening [] 0 [] []).enc.phase = .opening := by decide

theorem witness_EncStuffing :
    let s := encAt .stuff [0x41#8, 0xDB#8, 0xC0#8] 2 [] []
    s.enc.phase = .stuff ∧ s.enc.cur = some (0, [0x41#8, 0xDB#8, 0xC0#8]) ∧
    [0x41#8, 0xDB#8, 0xC0#8][2]? = some (0xC0#8 : Byte) ∧
    [0x41#8, 0xDB#8, 0xC0#8][1]? = some (0xDB#8 : Byte) ∧
    [0x41#8, 0xDB#8, 0xC0#8][0]? = some (0x41#8 : Byte) ∧ (0x41#8 : Byte) ≠ 0xC0#8 ∧
    (0x41#8 : Byte) ≠ 0xDB#8 := by decide

theorem witness_EncStuffing_each_index :
    (encAt .stuff [0xC0#8] 0 [] []).enc.i = 0 ∧ (encAt .stuff [0xDB#8] 0 [] []).enc.i = 0 ∧
    (encAt .stuff [0xDC#8] 0 [] []).enc.i = 0 ∧ [0xC0#8][0]? = some (0xC0#8 : Byte) ∧
    [0xDB#8][0]? = some (0xDB#8 : Byte) ∧ [0xDC#8][0]? = some (0xDC#8 : Byte) := by decide

theorem witness_EncClose :
    (encAt .stuff [] 0 [0xC0#8] []).enc.phase = .stuff ∧
    (encAt .stuff [] 0 [0xC0#8] []).enc.cur = some (0, []) ∧
    (encAt .stuff [] 0 [0xC0#8] []).enc.i = ([] : Packet).length := by decide

theorem witness_EncWrite :
    (encAt .close [] 0 [0xC0#8, 0xC0#8] []).enc.phase = .close ∧
    (encAt .wait [] 0 [0xC0#8, 0xC0#8] []).enc.phase ≠ .close ∧
    Instr.encOpen.isEncStep = true ∧ Instr.encOpen ≠ .encWrite ∧
    (nextOf (exec .encOpen (encAt .opening [] 0 [] []))).isSome = true ∧
    (nextOf (exec .encDoneOk (encAt .wait [] 0 [0xC0#8, 0xC0#8] [.ok]))).isSome = true ∧
    (encAt .wait [] 0 [0xC0#8, 0xC0#8] []).enc.phase = .wait ∧
    (encAt .wait [] 0 [0xC0#8, 0xC0#8] []).outAns = [] ∧
    (nextOf (step (encAt .wait [] 0 [0xC0#8, 0xC0#8] []))).isSome = true := by decide

theorem witness_EncDoneOk :
    let s := encAt .wait [] 0 [0xC0#8, 0xC0#8] [.ok]
    s.enc.phase = .wait ∧ s.enc.cur = some (0, []) ∧ s.outAns = [.ok] ∧
    ((nextOf (exec .encDoneOk { s with enc := { s.enc with pend := [(1, [0x01#8])] } })).map
      (fun t => t.enc.pending 1)) = some (some [0x01#8]) := by decide

theorem witness_EncDoneFail :
    let s := encAt .wait [] 0 [0xC0#8, 0xC0#8] [.fail .eos]
    s.enc.phase = .wait ∧ s.enc.cur = some (0, []) ∧ s.outAns = [.fail .eos] ∧
    ((nextOf (exec (.encDoneFail .eos)
      { s with enc := { s.enc with pend := [(1, [0x01#8])] } })).map
      (fun t => t.enc.pending 1)) = some (some [0x01#8]) := by decide

/-- Requests of 1 and 2 pending at DEC, which is idle. -/
def decTwoPending : State := { State.reset with dec := { Dec.reset with pend := [1, 2] } }

theorem witness_DecAccept :
    decTwoPending.dec.phase = .idle ∧ decTwoPending.dec.pending 2 = true ∧ (1 : ReqId) ≠ 2 ∧
    decTwoPending.dec.pending 3 = false ∧ (decAt .escaped false [] []).dec.phase ≠ .idle := by
  decide

theorem witness_DecRead :
    (decAt .normal false [] []).dec.phase = .normal ∧
    (decAt .escaped false [] []).dec.phase = .escaped ∧
    (decAt .escaped false [] []).dec.rd = false ∧ State.reset.dec.phase = .idle ∧
    (decAt .normal true [] []).dec.rd = true ∧ decTwoPending.dec.phase = .idle ∧
    (nextOf (exec (.decAccept 1) decTwoPending)).isSome = true ∧
    (decAt .normal true [] []).dec.phase ≠ .idle ∧ (decAt .normal true [] []).inAns = [] ∧
    (nextOf (step (decAt .normal true [] []))).isSome = true := by decide

theorem witness_DecNormal_answers :
    let s := decAt .normal true [] (dataOf [0xC0#8])
    s.dec.phase = .normal ∧ s.dec.rd = true ∧ s.dec.cur = some 0 ∧ s.dec.acc = [] ∧
    s.inAns = [.data 0xC0#8] ∧
    (decAt .normal true [] [.nodata none]).inAns = [.nodata none] ∧
    (decAt .normal true [0x00#8] (dataOf [0xC0#8])).dec.acc ≠ [] ∧
    (decAt .normal true [] (dataOf [0xDB#8])).inAns = [.data 0xDB#8] ∧
    (decAt .normal true [] (dataOf [0xDC#8])).inAns = [.data 0xDC#8] ∧
    (0xDC#8 : Byte) ≠ 0xC0#8 ∧ (0xDC#8 : Byte) ≠ 0xDB#8 := by decide

theorem witness_DecEscaped_answers :
    let s := decAt .escaped true [] (dataOf [0xDC#8])
    s.dec.phase = .escaped ∧ s.dec.rd = true ∧ s.dec.cur = some 0 ∧
    s.inAns = [.data 0xDC#8] ∧ (decAt .escaped true [] [.nodata none]).inAns = [.nodata none] ∧
    (decAt .escaped true [] (dataOf [0xDD#8])).inAns = [.data 0xDD#8] ∧
    (decAt .escaped true [] (dataOf [0xC0#8])).inAns = [.data 0xC0#8] ∧
    (0xC0#8 : Byte) ≠ 0xDC#8 ∧ (0xC0#8 : Byte) ≠ 0xDD#8 := by decide

/-- E_FAIL followed by the ACCEPT of another request: the last clause of its statement. -/
theorem witness_DecEFail_then_accept :
    (((nextOf (exec (.decEFail none)
      { decAt .escaped true [] [.nodata none] with
        dec := { (decAt .escaped true [] [.nodata none]).dec with pend := [1] } })).bind
      (fun t => nextOf (exec (.decAccept 1) t))).map (fun u => u.dec.phase)) = some .normal := by
  decide

theorem witness_EncodeWritesFrame :
    let s := idleWith [.ok] []
    Config.isReqEnc 0 = true ∧ s.enc.outstanding 0 = false ∧ s.enc.phase = .idle ∧
    s.outAns = [.ok] := by decide

theorem witness_ReadPacketFollowsRp :
    let s := idleWith [] (dataOf [0x41#8, 0xC0#8])
    Config.isReqDec 0 = true ∧ s.dec.outstanding 0 = false ∧ s.dec.phase = .idle ∧
    rp none [] .normal s.inAns 0 = .done ⟨[0x41#8], false, none⟩ 2 := by decide

/-- A busy ENC serving requester 0, which is not requester `lastReqEnc` unless that is 0. -/
theorem witness_WholeOperation_waits :
    let s := idleWith [] (dataOf [0x41#8])
    Config.isReqEnc 0 = true ∧ s.enc.outstanding 0 = false ∧ s.enc.phase = .idle ∧
    s.outAns = [] ∧ Config.isReqDec 0 = true ∧ s.dec.outstanding 0 = false ∧
    s.dec.phase = .idle ∧ rp none [] .normal s.inAns 0 = .blocked [0x41#8] .normal 1 := by decide

/-- Both agents busy with requester 1, so that requester 0 may issue a request. -/
def busyWithOne : State :=
  { State.reset with
    enc := { phase := .wait, cur := some (1, []), i := 0, fbuf := [0xC0#8, 0xC0#8], pend := [] }
    dec := { phase := .normal, rd := true, cur := some 1, acc := [], pend := [] } }

theorem witness_WholeOperation_queues :
    Config.isReqEnc 0 = true ∧ busyWithOne.enc.outstanding 0 = false ∧
    busyWithOne.enc.phase ≠ .idle ∧ Config.isReqDec 0 = true ∧
    busyWithOne.dec.outstanding 0 = false ∧ busyWithOne.dec.phase ≠ .idle := by decide

theorem witness_EqualsItsSteps :
    let s := idleWith [.ok] (dataOf [0x41#8, 0xC0#8])
    Config.isReqEnc 0 = true ∧ s.enc.outstanding 0 = false ∧ s.enc.phase = .idle ∧
    Config.isReqDec 0 = true ∧ s.dec.outstanding 0 = false ∧ s.dec.phase = .idle ∧
    rp none [] .normal s.inAns 0 = .done ⟨[0x41#8], false, none⟩ 2 ∧
    rp none [] .normal (idleWith [] []).inAns 0 = .blocked [] .normal 0 := by decide

theorem witness_RunningOperation :
    let s := decAt .escaped false [] (dataOf [0xDC#8, 0xC0#8])
    (s.dec.phase = .normal ∨ s.dec.phase = .escaped) ∧ s.dec.rd = false ∧
    s.dec.cur = some 0 ∧
    rp none s.dec.acc s.dec.phase s.inAns 0 = .done ⟨[0xC0#8], false, none⟩ 2 := by decide

theorem witness_Assembly :
    let s := encAt .opening [0xC0#8] 0 [] []
    s.enc.phase = .opening ∧ s.enc.cur = some (0, [0xC0#8]) ∧ s.enc.i = 0 := by decide

theorem witness_StepRuns :
    let s := { encAt .opening [] 0 [] [] with sched := [.enc, .dec] }
    State.reset.sched = [] ∧ s.sched = .enc :: [.dec] ∧ s.select .enc = some .encOpened ∧
    s.select .dec = none ∧ s.select (.decAccept 1) = none := by decide

theorem witness_ControlState_enc :
    encTwoPending.enc.phase = .idle ∧ encTwoPending.enc.pending 1 = some [0x01#8] ∧
    (encAt .opening [] 0 [] []).enc.phase = .opening ∧
    (encAt .stuff [0x41#8] 0 [0xC0#8] []).enc.phase = .stuff ∧
    (encAt .stuff [0x41#8] 0 [0xC0#8] []).enc.i = 0 ∧ [0x41#8][0]? = some (0x41#8 : Byte) ∧
    (encAt .stuff [0x41#8] 1 [0xC0#8] []).enc.i = [0x41#8].length ∧
    (encAt .close [] 0 [0xC0#8, 0xC0#8] []).enc.phase = .close ∧
    (encAt .wait [] 0 [0xC0#8, 0xC0#8] [.ok]).outAns = [.ok] ∧
    (encAt .wait [] 0 [0xC0#8, 0xC0#8] []).outAns = [] := by decide

theorem witness_ControlState_dec :
    decTwoPending.dec.phase = .idle ∧ decTwoPending.dec.pending 1 = true ∧
    (decAt .normal false [] []).dec.rd = false ∧ (decAt .normal true [] []).inAns = [] ∧
    (decAt .normal true [] (dataOf [0xC0#8])).inAns = .data 0xC0#8 :: [] ∧
    (decAt .escaped true [] (dataOf [0xC0#8])).inAns = .data 0xC0#8 :: [] := by decide

theorem witness_PlacedWord :
    (255 < 256) ∧ decodeTableWord 8 255 = some (.encLit 0xFF#8) ∧ decodeTableWord 8 256 = none := by
  decide

theorem witness_StepStops_allowed :
    ({ idleWith [.ok] [] with sched := [.encode 0 []] }).allows (.encode 0 []) = true ∧
    (encAt .wait [] 0 [] []).allows (.encode 0 []) = false ∧
    (decAt .normal true [] []).allows (.readPacket 0) = false := by decide

theorem witness_RequestsPend :
    State.reset.enc.outstanding 0 = false ∧ State.reset.dec.outstanding 0 = false ∧
    (encAt .wait [] 0 [] []).enc.outstanding 0 = true ∧
    (decAt .normal true [] []).dec.outstanding 0 = true ∧ encTwoPending.enc.outstanding 2 = true ∧
    Config.isReqEnc 0 = true ∧ Config.isReqDec 0 = true ∧ (1 : ReqId) ≠ 0 := by decide

theorem witness_RequestsPend_unknown :
    Config.isReqEnc (Config.lastReqEnc + 1) = false ∧
    Config.isReqDec (Config.lastReqDec + 1) = false := by
  simp [Config.isReqEnc, Config.isReqDec]

/-- Both agents are in the middle of an operation, with answers to come and two moves scheduled. -/
def midway : State :=
  { State.reset with
    enc := { phase := .wait, cur := some (0, [0x41#8]), i := 1, fbuf := [0xC0#8, 0x41#8, 0xC0#8],
             pend := [] }
    dec := { phase := .escaped, rd := true, cur := some 0, acc := [0x41#8], pend := [] }
    outAns := [.ok], inAns := dataOf [0xDC#8], sched := [.enc, .dec]
    encLog := [.req 0 [0x41#8], .accept 0 [0x41#8], .write [0xC0#8, 0x41#8, 0xC0#8]]
    decLog := [.req 0, .accept 0, .read, .answer (.data 0x41#8), .read, .answer (.data 0xDB#8),
               .read] }

theorem witness_StepKeeps_inv : midway.Inv ∧ (nextOf (step midway)).isSome = true := by decide

theorem witness_StepKeeps_encHistory : midway.EncHistory := ⟨[], by decide⟩

theorem witness_StepKeeps_decHistory : midway.DecHistory := by
  unfold State.DecHistory
  decide

theorem witness_ExactlyOneStep :
    midway.enc.Legal ∧ midway.enc.phase ≠ .idle ∧ midway.outAns ≠ [] ∧ midway.dec.Legal ∧
    midway.dec.phase ≠ .idle ∧ midway.dec.rd = true ∧ midway.inAns ≠ [] ∧
    State.reset.enc.phase = .idle ∧ State.reset.dec.phase = .idle ∧
    Instr.encOpen.isEncStep = true ∧ Instr.decRead.isDecStep = true := by decide

theorem witness_LocksHeld :
    midway.Inv ∧ midway.enc.cur = some (0, [0x41#8]) ∧ midway.dec.cur = some 0 ∧
    (nextOf (step midway)).isSome = true ∧
    (nextOf (step { midway with sched := [.dec] })).isSome = true := by decide

theorem witness_Agents :
    (nextOf (exec .encDoneOk midway)).isSome = true ∧ Instr.encDoneOk.isEnc = true ∧
    (nextOf (exec .decEEnd midway)).isSome = true ∧ Instr.decEEnd.isEnc = false ∧
    State.encSide { midway with inAns := [] } = midway.encSide ∧
    State.decSide { midway with outAns := [] } = midway.decSide := by decide

theorem witness_PhasesMove :
    (nextOf (exec .encDoneOk midway)).isSome = true ∧ Instr.encDoneOk.isEncStep = true ∧
    (nextOf (exec .decEEnd midway)).isSome = true ∧ Instr.decEEnd.isDecStep = true ∧
    (nextOf (exec (.encAccept 1) encTwoPending)).isSome = true ∧
    (nextOf (exec (.decAccept 1) decTwoPending)).isSome = true := by decide

theorem witness_LegalShape :
    ((nextOf (step { decAt .normal true [0x41#8] (dataOf [0xC0#8]) with sched := [.dec] })).map
      (fun t => t.decLog))
      = some ([.answer (.data 0xC0#8)] ++ [.rsp 0 ⟨[0x41#8], false, none⟩] ++ []) ∧
    ((nextOf (step { decAt .normal true [] [.nodata none] with sched := [.dec] })).map
      (fun t => t.decLog))
      = some ([.answer (.nodata none)] ++ [.rsp 0 ⟨[], true, none⟩] ++ []) := by decide

theorem witness_Unanswered :
    let s := { busyWithOne with sched := [.encode 0 []] }
    (nextOf (step s)).isSome = true ∧ s.enc.phase = .wait ∧ s.outAns = [] ∧
    s.dec.phase ≠ .idle ∧ s.dec.rd = true ∧ s.inAns = [] := by decide

theorem witness_KeepsReserved : KeepsReserved id := fun _ =>
  ⟨Iff.rfl, Iff.rfl, Iff.rfl, Iff.rfl⟩

/-- A renaming that moves a payload byte. -/
theorem witness_KeepsReserved_moving :
    KeepsReserved (fun b => if b = 0x41#8 then 0x42#8 else b) := by
  intro b
  by_cases h : b = 0x41#8
  · subst h; decide
  · simp [h]

theorem witness_PayloadNeverInterpreted :
    (nextOf (exec (.encEncode 0 [0xC0#8]) (idleWith [.ok] []))).isSome = true := by decide

/-- A renaming that makes every error EOS, on a step that answers a next state and on one that is refused. -/
theorem witness_ChannelErrors :
    let s := { encAt .wait [] 0 [0xC0#8, 0xC0#8] [.fail .eos] with sched := [.enc] }
    (nextOf (step s)).isSome = true ∧
    nextOf (step (s.renameErr fun _ => .eos))
      = (nextOf (step s)).map (State.renameErr fun _ => .eos) ∧
    refusalOf (step { s with sched := [.issueEncode 0 []] }) = some .secondRequest := by decide

/-- A frame of exactly the bound passes, one byte more is refused; `acc` the same. -/
theorem witness_FiniteBounds :
    (nextOf (encodeWhole (some 3) 0 [0x41#8] (idleWith [.ok] []))).isSome = true ∧
    refusalOf (encodeWhole (some 2) 0 [0x41#8] (idleWith [.ok] [])) = some .frameCapacity ∧
    ([] : Packet).length ≤ 0 ∧ rp (some 1) [] .normal (dataOf [0x41#8, 0xC0#8]) 0
      = .done ⟨[0x41#8], false, none⟩ 2 ∧
    rp (some 0) [] .normal (dataOf [0x41#8, 0xC0#8]) 0 = .overflow ∧
    refusalOf (readWhole (some 0) 0 (idleWith [] (dataOf [0x41#8, 0xC0#8])))
      = some .packetCapacity ∧
    (nextOf (readWhole (some 1) 0 (idleWith [] (dataOf [0x41#8, 0xC0#8])))).isSome = true ∧
    (nextOf (encodeWhole (some 0) 0 [] busyWithOne)).isSome = true ∧
    (nextOf (readWhole (some 0) 0 busyWithOne)).isSome = true ∧
    refusalOf (appendByte (some 0) 0x41#8 (.data 0x41#8) (decAt .normal true [] []))
      = some .packetCapacity := by decide

theorem witness_FrameRecovery :
    let s := idleWith [] (dataOf (frame [0xC0#8]))
    [0xC0#8] ≠ ([] : Packet) ∧ Config.isReqDec 0 = true ∧ s.dec.outstanding 0 = false ∧
    s.dec.phase = .idle ∧ s.inAns = (frame [0xC0#8]).map .data ++ [] := by decide

theorem witness_EmptyFrames :
    let s := idleWith [] (List.replicate 3 (.data 0xC0#8) ++ [.nodata none])
    Config.isReqDec 0 = true ∧ s.dec.outstanding 0 = false ∧ s.dec.phase = .idle ∧
    s.inAns = List.replicate 3 (.data 0xC0#8) ++ .nodata none :: [] ∧
    (idleWith [] []).inAns = List.replicate 0 (.data 0xC0#8) := by decide

/-- ENC has sent the packet 0x41 and the empty packet, and both writes got OK. -/
def sentTwo : State :=
  { State.reset with
    encLog := [.req 0 [0x41#8], .accept 0 [0x41#8], .write [0xC0#8, 0x41#8, 0xC0#8], .answer .ok,
               .rsp 0 .ok] ++
              [.req 0 [], .accept 0 [], .write [0xC0#8, 0xC0#8], .answer .ok, .rsp 0 .ok] }

/-- DEC has read the bytes `sentTwo` put on the wire and waits for more. -/
def readTwo : State :=
  { decAt .normal true [] [] with
    decLog := [.req 0, .accept 0] ++ readEvents (dataOf [0xC0#8, 0x41#8, 0xC0#8]) ++
              [.rsp 0 ⟨[0x41#8], false, none⟩, .req 0, .accept 0] ++
              readEvents (dataOf [0xC0#8, 0xC0#8]) ++ [.read] }

theorem witness_EndToEnd_enc :
    sentTwo.EncHistory ∧ sentTwo.enc.cur = none ∧
    (∀ w ∈ writeAnswers sentTwo.encLog, w = .ok) ∧ sentTwo.enc.phase = .idle :=
  ⟨⟨[(0, [0x41#8]), (0, [])], by decide⟩, by decide, by decide, by decide⟩

theorem witness_EndToEnd_dec :
    readTwo.DecHistory ∧ readAnswers readTwo.decLog = sentTwo.wire.map .data := by
  unfold State.DecHistory
  decide

theorem witness_WireAfterWrite :
    (nextOf (exec (.encEncode 0 [0x42#8]) { sentTwo with outAns := [.ok] })).isSome = true ∧
    (nextOf (exec (.encEncode 0 [0x42#8]) { sentTwo with outAns := [.fail .eos] })).isSome = true := by
  decide

theorem witness_EscapeLost :
    let s := idleWith []
      (dataOf [0x41#8] ++ [.data 0xDB#8, .nodata none] ++ [.data 0xDC#8, .data 0xC0#8])
    Config.isReqDec 0 = true ∧ s.dec.outstanding 0 = false ∧ s.dec.phase = .idle ∧
    (∀ x ∈ [0x41#8], x ≠ (0xC0#8 : Byte) ∧ x ≠ (0xDB#8 : Byte)) ∧
    s.inAns = ([0x41#8] : Packet).map .data ++ [.data 0xDB#8, .nodata none]
      ++ [.data 0xDC#8, .data 0xC0#8] ++ [] := by decide

theorem witness_StrayEscape :
    [0x42#8] ≠ ([] : Packet) ∧ ∀ x ∈ [0x41#8], x ≠ (0xC0#8 : Byte) ∧ x ≠ (0xDB#8 : Byte) := by
  decide

theorem witness_StreamWithoutEnd :
    (∀ x ∈ [0xDB#8, 0x41#8], x ≠ (0xC0#8 : Byte)) ∧ ∀ x ∈ [0xDC#8], x ≠ (0xDB#8 : Byte) := by decide

end Sys2Proof.Tests
end

section
/-! PROOF. ENC and DEC share no state (00_scope.md R2, 10_state.md R26, 20_memory.md R62): an instruction of one agent
is an update of that agent's side, and its own side alone decides which. -/

namespace Sys2Proof.Machine

/-- `u` with ENC's side taken from `s`. -/
def State.withEncSide (u s : State) : State :=
  { u with enc := s.enc, outAns := s.outAns, encLog := s.encLog }

/-- `u` with DEC's side taken from `s`. -/
def State.withDecSide (u s : State) : State :=
  { u with dec := s.dec, inAns := s.inAns, decLog := s.decLog }

theorem State.withEncSide_of_encSide_eq {u s : State} (h : u.encSide = s.encSide) :
    u.withEncSide s = u := by
  simp only [State.encSide, Prod.mk.injEq] at h
  obtain ⟨henc, hans, hlog⟩ := h
  rw [State.withEncSide, ← henc, ← hans, ← hlog]

theorem State.withDecSide_of_decSide_eq {u s : State} (h : u.decSide = s.decSide) :
    u.withDecSide s = u := by
  simp only [State.decSide, Prod.mk.injEq] at h
  obtain ⟨hdec, hans, hlog⟩ := h
  rw [State.withDecSide, ← hdec, ← hans, ← hlog]

/-- An instruction of ENC does the same to ENC's side whatever the rest of the state is, and leaves that
rest as it was. -/
theorem exec_withEncSide {i : Instr} (hi : i.isEnc = true) {s t : State} (h : exec i s = .next t)
    (u : State) : exec i (u.withEncSide s) = .next (u.withEncSide t) := by
  cases i with
  | encEncode r p =>
    obtain ⟨hr, ho, hcase⟩ := exec_encEncode_next_iff.mp h
    refine exec_encEncode_next_iff.mpr ⟨hr, ho, ?_⟩
    obtain ⟨hbusy, rfl⟩ | ⟨hidle, hans, rfl⟩ | ⟨hidle, w, rest, hans, rfl⟩ := hcase
    · exact .inl ⟨hbusy, rfl⟩
    · exact .inr (.inl ⟨hidle, hans, rfl⟩)
    · exact .inr (.inr ⟨hidle, w, rest, hans, rfl⟩)
  | encAccept r =>
    obtain ⟨p, hpend, hidle, rfl⟩ := exec_encAccept_next_iff.mp h
    exact exec_encAccept_next_iff.mpr ⟨p, hpend, hidle, rfl⟩
  | encOpen =>
    obtain ⟨hph, rfl⟩ := exec_encOpen_next_iff.mp h
    exact exec_encOpen_next_iff.mpr ⟨hph, rfl⟩
  | encStuffEnd =>
    obtain ⟨hph, hb, rfl⟩ := exec_encStuffEnd_next_iff.mp h
    exact exec_encStuffEnd_next_iff.mpr ⟨hph, hb, rfl⟩
  | encStuffEsc =>
    obtain ⟨hph, hb, rfl⟩ := exec_encStuffEsc_next_iff.mp h
    exact exec_encStuffEsc_next_iff.mpr ⟨hph, hb, rfl⟩
  | encLit b =>
    obtain ⟨hne, hne', hph, hb, rfl⟩ := exec_encLit_next_iff.mp h
    exact exec_encLit_next_iff.mpr ⟨hne, hne', hph, hb, rfl⟩
  | encClose =>
    obtain ⟨hph, hend, rfl⟩ := exec_encClose_next_iff.mp h
    exact exec_encClose_next_iff.mpr ⟨hph, hend, rfl⟩
  | encWrite =>
    obtain ⟨hph, rfl⟩ := exec_encWrite_next_iff.mp h
    exact exec_encWrite_next_iff.mpr ⟨hph, rfl⟩
  | encDoneOk =>
    obtain ⟨r, p, hcur, hph, hans, rfl⟩ := exec_encDoneOk_next_iff.mp h
    exact exec_encDoneOk_next_iff.mpr ⟨r, p, hcur, hph, hans, rfl⟩
  | encDoneFail e =>
    obtain ⟨r, p, hcur, hph, hans, rfl⟩ := exec_encDoneFail_next_iff.mp h
    exact exec_encDoneFail_next_iff.mpr ⟨r, p, hcur, hph, hans, rfl⟩
  | _ => contradiction

/-- An instruction of DEC does the same to DEC's side whatever the rest of the state is, and leaves that
rest as it was. -/
theorem exec_withDecSide {i : Instr} (hi : i.isEnc = false) {s t : State} (h : exec i s = .next t)
    (u : State) : exec i (u.withDecSide s) = .next (u.withDecSide t) := by
  cases i with
  | decReadPacket r =>
    obtain ⟨hr, ho, hcase⟩ := exec_decReadPacket_next_iff.mp h
    refine exec_decReadPacket_next_iff.mpr ⟨hr, ho, ?_⟩
    obtain ⟨hbusy, rfl⟩ | ⟨hidle, v, k, hrp, rfl⟩ | ⟨hidle, acc, ph, k, hrp, rfl⟩ := hcase
    · exact .inl ⟨hbusy, rfl⟩
    · exact .inr (.inl ⟨hidle, v, k, hrp, rfl⟩)
    · exact .inr (.inr ⟨hidle, acc, ph, k, hrp, rfl⟩)
  | decAccept r =>
    obtain ⟨hidle, hpend, rfl⟩ := exec_decAccept_next_iff.mp h
    exact exec_decAccept_next_iff.mpr ⟨hidle, hpend, rfl⟩
  | decRead =>
    obtain ⟨hph, hrd, rfl⟩ := exec_decRead_next_iff.mp h
    exact exec_decRead_next_iff.mpr ⟨hph, hrd, rfl⟩
  | decNFail e =>
    obtain ⟨hans, r, hcur, rfl⟩ := exec_decNFail_next_iff.mp h
    exact exec_decNFail_next_iff.mpr ⟨hans, r, hcur, rfl⟩
  | decNEndSkip =>
    obtain ⟨hans, hacc, rfl⟩ := exec_decNEndSkip_next_iff.mp h
    exact exec_decNEndSkip_next_iff.mpr ⟨hans, hacc, rfl⟩
  | decNEndDone =>
    obtain ⟨hans, hacc, r, hcur, rfl⟩ := exec_decNEndDone_next_iff.mp h
    exact exec_decNEndDone_next_iff.mpr ⟨hans, hacc, r, hcur, rfl⟩
  | decNEsc =>
    obtain ⟨hans, rfl⟩ := exec_decNEsc_next_iff.mp h
    exact exec_decNEsc_next_iff.mpr ⟨hans, rfl⟩
  | decNLit b =>
    obtain ⟨hans, hne, hne', rfl⟩ := exec_decNLit_next_iff.mp h
    exact exec_decNLit_next_iff.mpr ⟨hans, hne, hne', rfl⟩
  | decEFail e =>
    obtain ⟨hans, r, hcur, rfl⟩ := exec_decEFail_next_iff.mp h
    exact exec_decEFail_next_iff.mpr ⟨hans, r, hcur, rfl⟩
  | decEEnd =>
    obtain ⟨hans, rfl⟩ := exec_decEEnd_next_iff.mp h
    exact exec_decEEnd_next_iff.mpr ⟨hans, rfl⟩
  | decEEsc =>
    obtain ⟨hans, rfl⟩ := exec_decEEsc_next_iff.mp h
    exact exec_decEEsc_next_iff.mpr ⟨hans, rfl⟩
  | decELit b =>
    obtain ⟨hans, hne, hne', rfl⟩ := exec_decELit_next_iff.mp h
    exact exec_decELit_next_iff.mpr ⟨hans, hne, hne', rfl⟩
  | _ => contradiction

/-- An instruction of ENC runs alike in two states with one ENC side. -/
theorem exec_next_of_encSide_eq {i : Instr} (hi : i.isEnc = true) {s t u : State}
    (h : exec i s = .next t) (hu : u.encSide = s.encSide) :
    exec i u = .next (u.withEncSide t) := by
  simpa only [State.withEncSide_of_encSide_eq hu] using exec_withEncSide hi h u

/-- An instruction of DEC runs alike in two states with one DEC side. -/
theorem exec_next_of_decSide_eq {i : Instr} (hi : i.isEnc = false) {s t u : State}
    (h : exec i s = .next t) (hu : u.decSide = s.decSide) :
    exec i u = .next (u.withDecSide t) := by
  simpa only [State.withDecSide_of_decSide_eq hu] using exec_withDecSide hi h u

/-- An instruction of ENC changes ENC's side alone. -/
theorem eq_withEncSide_of_exec {i : Instr} (hi : i.isEnc = true) {s t : State}
    (h : exec i s = .next t) : t = s.withEncSide t :=
  next_eq_next_iff.mp ((exec_next_of_encSide_eq hi h rfl).symm.trans h)

/-- An instruction of DEC changes DEC's side alone. -/
theorem eq_withDecSide_of_exec {i : Instr} (hi : i.isEnc = false) {s t : State}
    (h : exec i s = .next t) : t = s.withDecSide t :=
  next_eq_next_iff.mp ((exec_next_of_decSide_eq hi h rfl).symm.trans h)

/-- Settles O46: an instruction replaces the side of its own agent by one that depends on that side alone,
so the other side stays (R26) and does not matter (R62). -/
theorem agentsShareNoState : Obligations.AgentsShareNoState := by
  unfold Obligations.AgentsShareNoState
  intro i s t h
  refine ⟨fun hi => ?_, fun hi => ?_⟩
  · have ht := eq_withEncSide_of_exec hi h
    exact ⟨(congrArg State.decSide ht).trans rfl, (congrArg State.sched ht).trans rfl,
      fun u hu => ⟨u.withEncSide t, exec_next_of_encSide_eq hi h hu, rfl⟩⟩
  · have ht := eq_withDecSide_of_exec hi h
    exact ⟨(congrArg State.encSide ht).trans rfl, (congrArg State.sched ht).trans rfl,
      fun u hu => ⟨u.withDecSide t, exec_next_of_decSide_eq hi h hu, rfl⟩⟩

end Sys2Proof.Machine
end

section
/-! PROOF. Channel errors pass through unread (00_scope.md R7, 60_exceptions.md R171, 92_eei_decisions.md D5): each
operation, and with them a step, commutes with a renaming of the errors. -/

namespace Sys2Proof.Machine

/-! ## Renaming in outcomes, results of `rp` and selections -/

/-- An outcome with the errors of its next state renamed; a refusal holds no error. -/
def renameNextErr (f : ChanErr → ChanErr) : Result → Result
  | .next t => .next (t.renameErr f)
  | .fault x => .fault x
  | .refused x => .refused x

/-- What a READ_PACKET comes to, with its error renamed. -/
def renameRpErr (f : ChanErr → ChanErr) : RpResult → RpResult
  | .done v k => .done (renameResultErr f v) k
  | .blocked acc ph k => .blocked acc ph k
  | .overflow => .overflow

/-- A selection with the error of its channel answer renamed. -/
def renameSelectErr (f : ChanErr → ChanErr) : Select → Select
  | .encAnswer w => .encAnswer (renameWriteErr f w)
  | .decNormal e y => .decNormal e (renameReadErr f y)
  | .decEscaped y => .decEscaped (renameReadErr f y)
  | x => x

/-- The channel answer a selection names, if it names one, is the next of its channel. -/
def State.answers (s : State) : Select → Prop
  | .encAnswer w => s.outAns.head? = some w
  | .decNormal _ y => s.inAns.head? = some y
  | .decEscaped y => s.inAns.head? = some y
  | _ => True

section

variable (f : ChanErr → ChanErr) {s : State}

@[simp] theorem renameNextErr_next (t : State) :
    renameNextErr f (.next t) = .next (t.renameErr f) := rfl

@[simp] theorem renameNextErr_refused (x : Refusal) :
    renameNextErr f (.refused x) = .refused x := rfl

/-- The shape of most meanings: renaming commutes with it where it commutes with the condition and with
what runs under it. -/
theorem ite_refused_renameErr {c c' : Prop} [Decidable c] [Decidable c'] {x x' : Result} {z : Refusal}
    (hc : c' ↔ c) (hx : x' = renameNextErr f x) :
    (if c' then x' else .refused z) = renameNextErr f (if c then x else .refused z) := by
  by_cases h : c
  · rw [if_pos h, if_pos (hc.mpr h), hx]
  · rw [if_neg h, if_neg (mt hc.mp h), renameNextErr_refused]

theorem statusOf_renameWriteErr (w : WriteResp) :
    statusOf (renameWriteErr f w) = renameStatusErr f (statusOf w) := by
  cases w <;> rfl

theorem map_renameErr_readEvents (xs : List ReadResp) :
    (readEvents xs).map (DecEvent.renameErr f) = readEvents (xs.map (renameReadErr f)) := by
  simp only [readEvents, List.map_flatMap, List.flatMap_map]
  rfl

/-! ## Requests and the shared operations -/

theorem issueEncode_renameErr (r : ReqId) (p : Packet) :
    issueEncode r p (s.renameErr f) = renameNextErr f (issueEncode r p s) := by
  unfold issueEncode
  rw [State.renameErr_enc]
  split_ifs
  · rfl
  · rfl
  · rw [renameNextErr_next, State.renameErr_logEnc, State.renameErr_setEnc]
    rfl

theorem issueRead_renameErr (r : ReqId) :
    issueRead r (s.renameErr f) = renameNextErr f (issueRead r s) := by
  unfold issueRead
  rw [State.renameErr_dec]
  split_ifs
  · rfl
  · rfl
  · rw [renameNextErr_next, State.renameErr_logDec, State.renameErr_setDec]
    rfl

theorem assemble_renameErr (bound : Option Nat) (e : Enc) :
    assemble bound e (s.renameErr f) = renameNextErr f (assemble bound e s) :=
  ite_refused_renameErr f Iff.rfl rfl

theorem stuffByte_renameErr (bound : Option Nat) (b : Byte) (out : List Byte) :
    stuffByte bound b out (s.renameErr f) = renameNextErr f (stuffByte bound b out s) :=
  ite_refused_renameErr f Iff.rfl (assemble_renameErr f bound _)

theorem finishEncode_renameErr {w : WriteResp} (h : s.outAns.head? = some w) :
    finishEncode (renameWriteErr f w) (s.renameErr f) = renameNextErr f (finishEncode w s) := by
  unfold finishEncode
  rw [State.renameErr_enc]
  split
  · rfl
  · refine ite_refused_renameErr f ?_ ?_
    · simp [h]
    · simp [State.renameErr_logEnc, State.renameErr_dropOutAns, State.renameErr_setEnc,
        EncEvent.renameErr, statusOf_renameWriteErr]

theorem readAnswered_renameErr {ph : DecPhase} {y : ReadResp} (h : s.inAns.head? = some y) :
    (s.renameErr f).readAnswered ph (renameReadErr f y) ↔ s.readAnswered ph y := by
  simp [State.readAnswered, h]

theorem takeAnswer_renameErr (y : ReadResp) (d : Dec) :
    takeAnswer (renameReadErr f y) d (s.renameErr f) = (takeAnswer y d s).renameErr f := by
  simp [takeAnswer, State.renameErr_logDec, State.renameErr_dropInAns, State.renameErr_setDec,
    DecEvent.renameErr]

theorem appendByte_renameErr (bound : Option Nat) (b : Byte) (y : ReadResp) :
    appendByte bound b (renameReadErr f y) (s.renameErr f)
      = renameNextErr f (appendByte bound b y s) :=
  ite_refused_renameErr f Iff.rfl (congrArg _ (takeAnswer_renameErr f y _))

theorem finishRead_renameErr (v : DecResult) (y : ReadResp) :
    finishRead (renameResultErr f v) (renameReadErr f y) (s.renameErr f)
      = renameNextErr f (finishRead v y s) := by
  unfold finishRead
  rw [State.renameErr_dec]
  split
  · rfl
  · rw [renameNextErr_next, State.renameErr_logDec, takeAnswer_renameErr]
    rfl

/-! ## The whole operations -/

theorem encodeIdle_renameErr (bound : Option Nat) (r : ReqId) (p : Packet) :
    encodeIdle bound r p (s.renameErr f) = renameNextErr f (encodeIdle bound r p s) := by
  refine ite_refused_renameErr f Iff.rfl ?_
  rw [State.renameErr_outAns]
  cases s.outAns with
  | nil => simp [State.renameErr_logEnc, State.renameErr_setEnc, EncEvent.renameErr]
  | cons w ws =>
    simp [State.renameErr_logEnc, State.renameErr_dropOutAns, State.renameErr_setEnc,
      EncEvent.renameErr, statusOf_renameWriteErr]

theorem encodeWhole_renameErr (bound : Option Nat) (r : ReqId) (p : Packet) :
    encodeWhole bound r p (s.renameErr f) = renameNextErr f (encodeWhole bound r p s) := by
  unfold encodeWhole
  rw [issueEncode_renameErr]
  cases issueEncode r p s with
  | next t =>
    by_cases h : s.enc.phase = .idle
    · simp [h, encodeIdle_renameErr]
    · simp [h]
  | fault x => rfl
  | refused x => rfl

/-- `rp` reads no error: renaming the answers renames the result (R149, R171). -/
theorem rp_map_renameReadErr (bound : Option Nat) (acc : Packet) (ph : DecPhase) (xs : List ReadResp)
    (k : Nat) :
    rp bound acc ph (xs.map (renameReadErr f)) k = renameRpErr f (rp bound acc ph xs k) := by
  induction xs generalizing acc ph k with
  | nil => rfl
  | cons y t ih =>
    cases y with
    | nodata e => rfl
    | data b =>
      simp only [List.map_cons, renameReadErr, rp, ih]
      split_ifs <;> rfl

theorem readIdle_renameErr (bound : Option Nat) (r : ReqId) :
    readIdle bound r (s.renameErr f) = renameNextErr f (readIdle bound r s) := by
  unfold readIdle
  rw [State.renameErr_inAns, rp_map_renameReadErr]
  cases rp bound [] .normal s.inAns 0 with
  | done v k =>
    simp [renameRpErr, State.renameErr_logDec, State.renameErr_dropInAns, State.renameErr_setDec,
      map_renameErr_readEvents, List.map_take, DecEvent.renameErr]
  | blocked acc ph k =>
    simp [renameRpErr, State.renameErr_logDec, State.renameErr_dropInAns, State.renameErr_setDec,
      map_renameErr_readEvents, List.map_take, DecEvent.renameErr]
  | overflow => rfl

theorem readWhole_renameErr (bound : Option Nat) (r : ReqId) :
    readWhole bound r (s.renameErr f) = renameNextErr f (readWhole bound r s) := by
  unfold readWhole
  rw [issueRead_renameErr]
  cases issueRead r s with
  | next t =>
    by_cases h : s.dec.phase = .idle
    · simp [h, readIdle_renameErr]
    · simp [h]
  | fault x => rfl
  | refused x => rfl

/-! ## The steps -/

theorem execEncAccept_renameErr (r : ReqId) :
    execEncAccept r (s.renameErr f) = renameNextErr f (execEncAccept r s) := by
  unfold execEncAccept
  rw [State.renameErr_enc]
  split
  · rfl
  · refine ite_refused_renameErr f Iff.rfl ?_
    rw [renameNextErr_next, State.renameErr_logEnc, State.renameErr_setEnc]
    rfl

theorem execEncOpen_renameErr : execEncOpen (s.renameErr f) = renameNextErr f (execEncOpen s) :=
  ite_refused_renameErr f Iff.rfl (assemble_renameErr f _ _)

theorem execEncLit_renameErr (b : Byte) :
    execEncLit b (s.renameErr f) = renameNextErr f (execEncLit b s) := by
  unfold execEncLit
  split_ifs
  · rfl
  · exact stuffByte_renameErr f _ _ _

theorem execEncClose_renameErr : execEncClose (s.renameErr f) = renameNextErr f (execEncClose s) :=
  ite_refused_renameErr f Iff.rfl (assemble_renameErr f _ _)

theorem execEncWrite_renameErr : execEncWrite (s.renameErr f) = renameNextErr f (execEncWrite s) :=
  ite_refused_renameErr f Iff.rfl
    (congrArg _ (State.renameErr_logEnc f (s.setEnc _) [.write s.enc.fbuf]).symm)

theorem execDecAccept_renameErr (r : ReqId) :
    execDecAccept r (s.renameErr f) = renameNextErr f (execDecAccept r s) :=
  ite_refused_renameErr f Iff.rfl
    (congrArg _ (State.renameErr_logDec f (s.setDec _) [.accept r]).symm)

theorem execDecRead_renameErr : execDecRead (s.renameErr f) = renameNextErr f (execDecRead s) :=
  ite_refused_renameErr f Iff.rfl
    (congrArg _ (State.renameErr_logDec f (s.setDec _) [.read]).symm)

/-- The step a payload byte selects (R76). -/
theorem exec_decodePayloadByte_renameErr (b : Byte) :
    exec (decodePayloadByte b) (s.renameErr f) = renameNextErr f (exec (decodePayloadByte b) s) := by
  unfold decodePayloadByte
  split_ifs
  · exact stuffByte_renameErr f _ _ _
  · exact stuffByte_renameErr f _ _ _
  · exact execEncLit_renameErr f b

/-- The step a read answer selects in NORMAL (R77). -/
theorem exec_decodeNormal_renameErr (e : Bool) {y : ReadResp} (h : s.inAns.head? = some y) :
    exec (decodeNormal e (renameReadErr f y)) (s.renameErr f)
      = renameNextErr f (exec (decodeNormal e y) s) := by
  have hans := readAnswered_renameErr f (ph := .normal) h
  cases y with
  | nodata c =>
    exact ite_refused_renameErr f hans (finishRead_renameErr f (prefixOf s.dec.acc c) (.nodata c))
  | data b =>
    simp only [renameReadErr, decodeNormal]
    split_ifs with hEND hempty hESC
    · subst hEND
      exact ite_refused_renameErr f (and_congr_left' hans)
        (congrArg _ (takeAnswer_renameErr f (.data END) _))
    · subst hEND
      exact ite_refused_renameErr f (and_congr_left' hans)
        (finishRead_renameErr f (complete s.dec.acc) (.data END))
    · subst hESC
      exact ite_refused_renameErr f hans (congrArg _ (takeAnswer_renameErr f (.data ESC) _))
    · exact ite_refused_renameErr f (and_congr_left' hans) (appendByte_renameErr f _ _ (.data b))

/-- The step a read answer selects in ESCAPED (R78). -/
theorem exec_decodeEscaped_renameErr {y : ReadResp} (h : s.inAns.head? = some y) :
    exec (decodeEscaped (renameReadErr f y)) (s.renameErr f)
      = renameNextErr f (exec (decodeEscaped y) s) := by
  have hans := readAnswered_renameErr f (ph := .escaped) h
  cases y with
  | nodata c =>
    exact ite_refused_renameErr f hans (finishRead_renameErr f (prefixOf s.dec.acc c) (.nodata c))
  | data b =>
    simp only [renameReadErr, decodeEscaped]
    split_ifs with hEND hESC
    · subst hEND
      exact ite_refused_renameErr f hans (appendByte_renameErr f _ _ (.data ESC_END))
    · subst hESC
      exact ite_refused_renameErr f hans (appendByte_renameErr f _ _ (.data ESC_ESC))
    · exact ite_refused_renameErr f (and_congr_left' hans) (appendByte_renameErr f _ _ (.data b))

/-- What a selection runs commutes with renaming, where the channel gives the answer it names. -/
theorem exec_decode_renameErr {x : Select} (h : s.answers x) :
    exec (decode (renameSelectErr f x)) (s.renameErr f) = renameNextErr f (exec (decode x) s) := by
  cases x with
  | encRequest r p => exact encodeWhole_renameErr f _ r p
  | encPending r => exact execEncAccept_renameErr f r
  | encOpened => exact execEncOpen_renameErr f
  | encByte b => exact exec_decodePayloadByte_renameErr f b
  | encAtEnd => exact execEncClose_renameErr f
  | encClosed => exact execEncWrite_renameErr f
  | encAnswer w => cases w <;> exact finishEncode_renameErr f h
  | decRequest r => exact readWhole_renameErr f _ r
  | decPending r => exact execDecAccept_renameErr f r
  | decUnread => exact execDecRead_renameErr f
  | decNormal e y => exact exec_decodeNormal_renameErr f e h
  | decEscaped y => exact exec_decodeEscaped_renameErr f h

/-! ## Selecting -/

theorem selectEnc_renameErr :
    (s.renameErr f).selectEnc = s.selectEnc.map (renameSelectErr f) := by
  unfold State.selectEnc
  rw [State.renameErr_enc, State.renameErr_outAns]
  cases s.enc.phase with
  | stuff =>
    cases s.enc.payloadByte with
    | some b => rfl
    | none =>
      simp only [apply_ite (Option.map (renameSelectErr f))]
      rfl
  | wait => cases s.enc.cur <;> cases s.outAns <;> rfl
  | _ => rfl

/-- An answered read selects by its answer, an unissued one selects READ. -/
theorem ite_rd_map_renameSelectErr {g : ReadResp → Select}
    (hg : ∀ y, renameSelectErr f (g y) = g (renameReadErr f y)) :
    (if s.dec.rd then (s.inAns.map (renameReadErr f)).head?.map g else some .decUnread)
      = (if s.dec.rd then s.inAns.head?.map g else some .decUnread).map (renameSelectErr f) := by
  cases s.dec.rd with
  | false => rfl
  | true =>
    cases s.inAns with
    | nil => rfl
    | cons y t => exact congrArg some (hg y).symm

theorem selectDec_renameErr :
    (s.renameErr f).selectDec = s.selectDec.map (renameSelectErr f) := by
  unfold State.selectDec
  rw [State.renameErr_dec, State.renameErr_inAns]
  cases s.dec.cur with
  | none => cases s.dec.phase <;> rfl
  | some r =>
    cases s.dec.phase with
    | idle => rfl
    | normal => exact ite_rd_map_renameSelectErr f fun _ => rfl
    | escaped => exact ite_rd_map_renameSelectErr f fun _ => rfl

theorem select_renameErr (m : Move) :
    (s.renameErr f).select m = (s.select m).map (renameSelectErr f) := by
  cases m with
  | enc => exact selectEnc_renameErr f
  | dec => exact selectDec_renameErr f
  | encAccept r =>
    simp only [State.select, apply_ite (Option.map (renameSelectErr f))]
    rfl
  | decAccept r =>
    simp only [State.select, apply_ite (Option.map (renameSelectErr f))]
    rfl
  | _ => rfl

theorem answers_of_selectEnc {x : Select} (h : s.selectEnc = some x) : s.answers x := by
  unfold State.selectEnc at h
  split at h
  · cases h
  · cases h; trivial
  · split at h
    · cases h; trivial
    · split at h
      · cases h; trivial
      · cases h
  · cases h; trivial
  · cases h
  · split at h
    · rename_i hans
      cases h
      simp [State.answers, hans]
    · cases h

theorem answers_of_ite_rd {g : ReadResp → Select} (hg : ∀ y, s.inAns.head? = some y → s.answers (g y))
    {x : Select} (h : (if s.dec.rd then s.inAns.head?.map g else some .decUnread) = some x) :
    s.answers x := by
  split at h
  · obtain ⟨y, hy, rfl⟩ := Option.map_eq_some_iff.mp h
    exact hg y hy
  · cases h; trivial

theorem answers_of_selectDec {x : Select} (h : s.selectDec = some x) : s.answers x := by
  unfold State.selectDec at h
  split at h
  · exact answers_of_ite_rd (g := .decNormal _) (fun _ hy => hy) h
  · exact answers_of_ite_rd (g := .decEscaped) (fun _ hy => hy) h
  · cases h
  · cases h
  · cases h

/-- A move selects by a channel's answer only when the channel gives it. -/
theorem answers_of_select {m : Move} {x : Select} (h : s.select m = some x) : s.answers x := by
  cases m with
  | enc => exact answers_of_selectEnc h
  | dec => exact answers_of_selectDec h
  | encAccept r =>
    obtain ⟨-, hx⟩ := Option.ite_none_right_eq_some.mp h
    cases hx; trivial
  | decAccept r =>
    obtain ⟨-, hx⟩ := Option.ite_none_right_eq_some.mp h
    cases hx; trivial
  | encode r p => cases h; trivial
  | readPacket r => cases h; trivial
  | issueEncode r p => cases h
  | issueRead r => cases h

/-! ## A step -/

theorem runSelected_renameErr (m : Move) :
    runMove.runSelected ((s.renameErr f).select m) (s.renameErr f)
      = renameNextErr f (runMove.runSelected (s.select m) s) := by
  rw [select_renameErr]
  cases h : s.select m with
  | none => rfl
  | some x => exact exec_decode_renameErr f (answers_of_select h)

theorem runMove_renameErr (m : Move) :
    runMove m (s.renameErr f) = renameNextErr f (runMove m s) := by
  cases m with
  | issueEncode r p => exact issueEncode_renameErr f r p
  | issueRead r => exact issueRead_renameErr f r
  | encode r p => exact runSelected_renameErr f (.encode r p)
  | readPacket r => exact runSelected_renameErr f (.readPacket r)
  | encAccept r => exact runSelected_renameErr f (.encAccept r)
  | decAccept r => exact runSelected_renameErr f (.decAccept r)
  | enc => exact runSelected_renameErr f .enc
  | dec => exact runSelected_renameErr f .dec

theorem step_renameErr (s : State) : step (s.renameErr f) = renameNextErr f (step s) := by
  unfold step
  rw [State.renameErr_sched]
  cases s.sched with
  | nil => rfl
  | cons m ms =>
    simp only [← State.renameErr_setSched]
    exact runMove_renameErr f m

end

/-- Settles O52: a step commutes with renaming the errors, as what it selects and what that runs do; so it
ends alike, and its next state is the renamed one. -/
theorem channelErrorsTreatedAlike : Obligations.ChannelErrorsTreatedAlike := by
  unfold Obligations.ChannelErrorsTreatedAlike
  intro f s
  refine ⟨fun t h => ?_, fun x h => ?_⟩
  · rw [step_renameErr, h, renameNextErr_next]
  · rw [step_renameErr, h, renameNextErr_refused]

end Sys2Proof.Machine
end

section
/-! PROOF. Issuing a request (10_state.md R25, 60_exceptions.md R185, R188, 93_implementation_defined.md I12). -/

namespace Sys2Proof.Machine

section

variable {s : State} {r : ReqId} {p : Packet}

/-! ## Refused requests, on their own and as whole operations -/

theorem issueEncode_of_not_isReqEnc (h : Config.isReqEnc r = false) :
    issueEncode r p s = .refused .unknownRequester := by
  simp [issueEncode, h]

theorem issueEncode_of_outstanding (h : Config.isReqEnc r = true) (ho : s.enc.outstanding r = true) :
    issueEncode r p s = .refused .secondRequest := by
  simp [issueEncode, h, ho]

theorem issueRead_of_not_isReqDec (h : Config.isReqDec r = false) :
    issueRead r s = .refused .unknownRequester := by
  simp [issueRead, h]

theorem issueRead_of_outstanding (h : Config.isReqDec r = true) (ho : s.dec.outstanding r = true) :
    issueRead r s = .refused .secondRequest := by
  simp [issueRead, h, ho]

/-- An ENCODE whose request is refused is refused, under the same name. -/
theorem exec_encEncode_of_issueEncode_refused {x : Refusal} (h : issueEncode r p s = .refused x) :
    exec (.encEncode r p) s = .refused x := by
  simp [exec, execEncEncode, encodeWhole, h]

/-- A READ_PACKET whose request is refused is refused, under the same name. -/
theorem exec_decReadPacket_of_issueRead_refused {x : Refusal} (h : issueRead r s = .refused x) :
    exec (.decReadPacket r) s = .refused x := by
  simp [exec, execDecReadPacket, readWhole, h]

/-! ## Reading the pending sets after a request -/

/-- `dec_pend` after `dec_pend r <- true`. -/
theorem contains_readPendSet (r r' : ReqId) (l : List ReqId) :
    (readPendSet r l).contains r' = (r' == r || l.contains r') := by
  rw [Bool.eq_iff_iff]
  simp [mem_readPendSet]

end

/-- Settles O37: a request is checked before all else, so a refused one is refused as a whole operation too;
an allowed one sets the requester's own entry of the pending set alone. -/
theorem requestsPendOrAreRefused : Obligations.RequestsPendOrAreRefused := by
  unfold Obligations.RequestsPendOrAreRefused
  intro s r p
  refine ⟨fun hr ho => ?_, fun hr ho => ?_, fun hr => ?_, fun hr ho => ?_, fun hr ho => ?_, fun hr => ?_⟩
  · exact ⟨_, issueEncode_next_iff.mpr ⟨hr, ho, rfl⟩, lookup_pendSet_self r p s.enc.pend,
      fun r' hne => lookup_pendSet_ne r r' hne p s.enc.pend, rfl⟩
  · have h := issueEncode_of_outstanding (p := p) hr ho
    exact ⟨h, exec_encEncode_of_issueEncode_refused h⟩
  · have h := issueEncode_of_not_isReqEnc (s := s) (p := p) hr
    exact ⟨h, exec_encEncode_of_issueEncode_refused h⟩
  · exact ⟨_, issueRead_next_iff.mpr ⟨hr, ho, rfl⟩, fun r' => contains_readPendSet r r' s.dec.pend, rfl⟩
  · have h := issueRead_of_outstanding hr ho
    exact ⟨h, exec_decReadPacket_of_issueRead_refused h⟩
  · have h := issueRead_of_not_isReqDec (s := s) hr
    exact ⟨h, exec_decReadPacket_of_issueRead_refused h⟩

end Sys2Proof.Machine
end

section
/-! PROOF. Every step keeps both agents in legal states (10_state.md R21 to R25, R27). What legality says of one phase
is read off once; then one rule for each way an agent's elements change, whatever step makes the change. -/

namespace Sys2Proof.Machine

section

variable {e e' : Enc} {r : ReqId} {p : Packet}

/-! ## What a legal control state of ENC is, phase by phase -/

theorem Enc.control_opening_iff (h : e.phase = .opening) :
    e.control = true ↔ ∃ r p, e.cur = some (r, p) ∧ e.i = 0 ∧ e.fbuf = [] := by
  cases hc : e.cur <;> simp [Enc.control, h, hc, Prod.ext_iff]

theorem Enc.control_stuff_iff (h : e.phase = .stuff) :
    e.control = true ↔
      ∃ r p, e.cur = some (r, p) ∧ e.i ≤ p.length ∧ e.fbuf = END :: stuffAll (p.take e.i) := by
  cases hc : e.cur <;> simp [Enc.control, h, hc, Prod.ext_iff]

/-- From CLOSE until the write's answer `fbuf` is the whole frame (R106, R107). -/
theorem Enc.control_framed_iff (h : e.phase = .close ∨ e.phase = .wait) :
    e.control = true ↔ ∃ r p, e.cur = some (r, p) ∧ e.i = p.length ∧ e.fbuf = frame p := by
  cases hc : e.cur <;> rcases h with h | h <;> simp [Enc.control, h, hc, Prod.ext_iff]

theorem Enc.payloadByte_eq_some_iff {b : Byte} :
    e.payloadByte = some b ↔ ∃ r p, e.cur = some (r, p) ∧ p[e.i]? = some b := by
  cases hc : e.cur <;> simp [Enc.payloadByte, hc, Prod.ext_iff]

theorem Enc.atEnd_iff : e.atEnd = true ↔ ∃ r p, e.cur = some (r, p) ∧ e.i = p.length := by
  cases hc : e.cur <;> simp [Enc.atEnd, hc, Prod.ext_iff]

/-- One more byte of a packet adds that byte's stuffed form to the stuffed bytes so far (R71, R103 to
R105). -/
theorem stuffAll_take_succ {n : Nat} {b : Byte} (h : p[n]? = some b) :
    stuffAll (p.take (n + 1)) = stuffAll (p.take n) ++ stuff b := by
  rw [List.take_add_one, h, stuffAll_append, Option.toList_some, stuffAll_cons, stuffAll_nil,
    List.append_nil]

/-! ## Changes of ENC's elements that keep it legal -/

/-- A change that keeps the requester served and the pending set needs only a legal control state. -/
theorem Enc.Legal.of_control (h : e.Legal) (hctl : e'.control = true) (hcur : e'.cur = e.cur)
    (hpend : e'.pend = e.pend) : e'.Legal := by
  obtain ⟨-, hsort, hreq, hserved⟩ := h
  refine ⟨hctl, hpend ▸ hsort, hpend ▸ hreq, ?_⟩
  simpa only [hcur, Enc.pending, hpend] using hserved

/-- ENC with a request of `r` pending beside the others (R25, R185). -/
theorem Enc.Legal.pendSet (h : e.Legal) (hr : Config.isReqEnc r = true)
    (ho : e.outstanding r = false) : Enc.Legal { e with pend := pendSet r p e.pend } := by
  obtain ⟨hctl, hsort, hreq, hserved⟩ := h
  obtain ⟨-, hne⟩ := Enc.outstanding_eq_false.mp ho
  refine ⟨hctl, pairwise_pendSet r p hsort, fun c hc => ?_, fun c hc => ?_⟩
  · rcases mem_pendSet hc with rfl | hc
    · exact hr
    · exact hreq c hc
  · obtain ⟨hcr, hcp⟩ := hserved c hc
    have hcne : c.1 ≠ r := by
      rintro rfl
      exact hne (by rw [Option.mem_def.mp hc, Option.map_some])
    exact ⟨hcr, (lookup_pendSet_ne r c.1 hcne p e.pend).trans hcp⟩

/-- ENC taking the pending request of `r` (R101). -/
theorem Enc.Legal.accept (h : e.Legal) (hp : e.pending r = some p) :
    Enc.Legal { phase := .opening, cur := some (r, p), i := 0, fbuf := [], pend := pendClear r e.pend } := by
  obtain ⟨-, hsort, hreq, -⟩ := h
  refine ⟨rfl, pairwise_pendClear r hsort, fun c hc => hreq c (List.mem_of_mem_filter hc), ?_⟩
  rintro c ⟨⟩
  exact ⟨hreq _ (mem_of_lookup hp), lookup_pendClear_self r e.pend⟩

/-- ENC opening the frame (R102). -/
theorem Enc.Legal.openFrame (h : e.Legal) (hph : e.phase = .opening) :
    Enc.Legal { e with fbuf := [END], phase := .stuff } := by
  obtain ⟨r, p, hcur, hi, -⟩ := (Enc.control_opening_iff hph).mp h.1
  refine h.of_control ((Enc.control_stuff_iff rfl).mpr ⟨r, p, hcur, ?_, ?_⟩) rfl rfl
  · simp [hi]
  · simp [hi, stuffAll_nil]

/-- ENC appending the stuffed form of the payload byte it is at (R103 to R105). -/
theorem Enc.Legal.stuffNext {b : Byte} {out : List Byte} (h : e.Legal) (hph : e.phase = .stuff)
    (hb : e.payloadByte = some b) (hout : stuff b = out) :
    Enc.Legal { e with fbuf := e.fbuf ++ out, i := e.i + 1 } := by
  obtain ⟨r, p, hcur, -, hf⟩ := (Enc.control_stuff_iff hph).mp h.1
  obtain ⟨r', p', hcur', hget⟩ := Enc.payloadByte_eq_some_iff.mp hb
  obtain ⟨rfl, rfl⟩ : r = r' ∧ p = p' := by simpa [hcur] using hcur'
  obtain ⟨hlt, -⟩ := List.getElem?_eq_some_iff.mp hget
  refine h.of_control ((Enc.control_stuff_iff (by exact hph)).mpr ⟨r, p, hcur, hlt, ?_⟩) rfl rfl
  rw [hf, stuffAll_take_succ hget, hout, List.cons_append]

/-- ENC closing the frame once every payload byte is stuffed (R106). -/
theorem Enc.Legal.closeFrame (h : e.Legal) (hph : e.phase = .stuff) (hend : e.atEnd = true) :
    Enc.Legal { e with fbuf := e.fbuf ++ [END], phase := .close } := by
  obtain ⟨r, p, hcur, -, hf⟩ := (Enc.control_stuff_iff hph).mp h.1
  obtain ⟨r', p', hcur', hi⟩ := Enc.atEnd_iff.mp hend
  obtain ⟨rfl, rfl⟩ : r = r' ∧ p = p' := by simpa [hcur] using hcur'
  refine h.of_control ((Enc.control_framed_iff (.inl rfl)).mpr ⟨r, p, hcur, hi, ?_⟩) rfl rfl
  rw [hf, hi, List.take_length, List.cons_append, frame_eq]

/-- ENC issuing the write of its frame (R107). -/
theorem Enc.Legal.awaitAnswer (h : e.Legal) (hph : e.phase = .close) :
    Enc.Legal { e with phase := .wait } :=
  h.of_control ((Enc.control_framed_iff (.inr rfl)).mpr ((Enc.control_framed_iff (.inl hph)).mp h.1))
    rfl rfl

/-- ENC at the end of an operation (R108, R109). -/
theorem Enc.Legal.toIdle (h : e.Legal) : e.toIdle.Legal := by
  obtain ⟨-, hsort, hreq, -⟩ := h
  exact ⟨rfl, hsort, hreq, nofun⟩

/-- ENC waiting for the answer to a whole ENCODE's write (R100). -/
theorem Enc.Legal.serve (h : e.Legal) (hr : Config.isReqEnc r = true) (ho : e.outstanding r = false) :
    Enc.Legal { e with phase := .wait, cur := some (r, p), i := p.length, fbuf := frame p } := by
  obtain ⟨-, hsort, hreq, -⟩ := h
  obtain ⟨hnot, -⟩ := Enc.outstanding_eq_false.mp ho
  refine ⟨(Enc.control_framed_iff (.inr rfl)).mpr ⟨r, p, rfl, rfl, rfl⟩, hsort, hreq, ?_⟩
  rintro c ⟨⟩
  exact ⟨hr, hnot⟩

end

section

variable {d d' : Dec} {r : ReqId}

/-! ## What a legal control state of DEC is -/

/-- Outside IDLE a legal DEC serves some requester, and nothing more is asked of it (R23). -/
theorem Dec.control_busy_iff (h : d.phase ≠ .idle) : d.control = true ↔ ∃ r, d.cur = some r := by
  cases hph : d.phase <;> cases hc : d.cur <;> simp_all [Dec.control]

/-! ## Changes of DEC's elements that keep it legal -/

/-- DEC with a request of `r` pending beside the others (R25, R185). -/
theorem Dec.Legal.pendSet (h : d.Legal) (hr : Config.isReqDec r = true)
    (ho : d.outstanding r = false) : Dec.Legal { d with pend := readPendSet r d.pend } := by
  obtain ⟨hctl, hsort, hreq, hserved⟩ := h
  obtain ⟨-, hne⟩ := Dec.outstanding_eq_false.mp ho
  refine ⟨hctl, pairwise_readPendSet r hsort, fun k hk => ?_, fun k hk => ?_⟩
  · rcases mem_readPendSet.mp hk with rfl | hk
    · exact hr
    · exact hreq k hk
  · obtain ⟨hkr, hkp⟩ := hserved k hk
    have hkne : k ≠ r := by
      rintro rfl
      exact hne hk
    refine ⟨hkr, ?_⟩
    simpa [Dec.pending, mem_readPendSet, hkne] using hkp

/-- DEC taking the pending request of `r` (R131). -/
theorem Dec.Legal.accept (h : d.Legal) (hp : d.pending r = true) :
    Dec.Legal { phase := .normal, rd := false, cur := some r, acc := [], pend := readPendClear r d.pend } := by
  obtain ⟨-, hsort, hreq, -⟩ := h
  refine ⟨rfl, pairwise_readPendClear r hsort, fun k hk => hreq k (mem_readPendClear.mp hk).2, ?_⟩
  rintro k ⟨⟩
  refine ⟨hreq r (by simpa [Dec.pending] using hp), ?_⟩
  simp [Dec.pending, mem_readPendClear]

/-- DEC going on with its operation: the requester served and the pending set stay (R132, R134, R136,
R137, R139 to R141). -/
theorem Dec.Legal.goOn (h : d.Legal) (hph : d.phase ≠ .idle) (hph' : d'.phase ≠ .idle)
    (hcur : d'.cur = d.cur) (hpend : d'.pend = d.pend) : d'.Legal := by
  obtain ⟨hctl, hsort, hreq, hserved⟩ := h
  refine ⟨(Dec.control_busy_iff hph').mpr ?_, hpend ▸ hsort, hpend ▸ hreq, ?_⟩
  · rw [hcur]
    exact (Dec.control_busy_iff hph).mp hctl
  · simpa only [hcur, Dec.pending, hpend] using hserved

/-- DEC at the end of an operation (R133, R135, R138, R142). -/
theorem Dec.Legal.toIdle (h : d.Legal) : d.toIdle.Legal := by
  obtain ⟨-, hsort, hreq, -⟩ := h
  exact ⟨rfl, hsort, hreq, nofun⟩

/-- DEC waiting inside a whole READ_PACKET (R130, R149). -/
theorem Dec.Legal.serve {ph : DecPhase} {acc : Packet} (h : d.Legal) (hr : Config.isReqDec r = true)
    (ho : d.outstanding r = false) (hph : ph ≠ .idle) :
    Dec.Legal { d with phase := ph, rd := true, cur := some r, acc := acc } := by
  obtain ⟨-, hsort, hreq, -⟩ := h
  obtain ⟨hnot, -⟩ := Dec.outstanding_eq_false.mp ho
  refine ⟨(Dec.control_busy_iff hph).mpr ⟨r, rfl⟩, hsort, hreq, ?_⟩
  rintro k ⟨⟩
  exact ⟨hr, by simpa [Dec.pending] using hnot⟩

/-- An operation that runs out of answers waits in an escape state of R22, never in IDLE (R149). -/
theorem rp_blocked_phase_ne_idle {bound : Option Nat} {acc acc' : Packet} {ph ph' : DecPhase}
    {xs : List ReadResp} {k k' : Nat} (hph : ph ≠ .idle)
    (h : rp bound acc ph xs k = .blocked acc' ph' k') : ph' ≠ .idle := by
  induction xs generalizing acc ph k with
  | nil =>
    obtain ⟨-, rfl, -⟩ := by simpa only [rp, RpResult.blocked.injEq] using h
    exact hph
  | cons x t ih =>
    cases x with
    | nodata e => simp [rp] at h
    | data b =>
      simp only [rp] at h
      split_ifs at h <;> exact ih (by decide) h

end

/-! ## Instructions and steps -/

section

variable {i : Instr} {s t : State}

@[simp] theorem takeAnswer_dec (x : ReadResp) (d : Dec) (s : State) : (takeAnswer x d s).dec = d := rfl

theorem readAnswered_ne_idle {ph : DecPhase} {x : ReadResp} (h : s.readAnswered ph x) (hph : ph ≠ .idle) :
    s.dec.phase ≠ .idle := by
  rw [h.1]
  exact hph

/-- An instruction of ENC keeps ENC legal. -/
theorem exec_keeps_encLegal (hi : i.isEnc = true) (h : exec i s = .next t) (hs : s.enc.Legal) :
    t.enc.Legal := by
  cases i with
  | encEncode r p =>
    obtain ⟨hr, ho, hcase⟩ := exec_encEncode_next_iff.mp h
    obtain ⟨-, rfl⟩ | ⟨-, -, rfl⟩ | ⟨-, w, rest, -, rfl⟩ := hcase
    · exact hs.pendSet hr ho
    · exact hs.serve hr ho
    · exact hs.toIdle
  | encAccept r =>
    obtain ⟨p, hpend, -, rfl⟩ := exec_encAccept_next_iff.mp h
    exact hs.accept hpend
  | encOpen =>
    obtain ⟨hph, rfl⟩ := exec_encOpen_next_iff.mp h
    exact hs.openFrame hph
  | encStuffEnd =>
    obtain ⟨hph, hb, rfl⟩ := exec_encStuffEnd_next_iff.mp h
    exact hs.stuffNext hph hb stuff_END
  | encStuffEsc =>
    obtain ⟨hph, hb, rfl⟩ := exec_encStuffEsc_next_iff.mp h
    exact hs.stuffNext hph hb stuff_ESC
  | encLit b =>
    obtain ⟨hne, hne', hph, hb, rfl⟩ := exec_encLit_next_iff.mp h
    exact hs.stuffNext hph hb (stuff_literal hne hne')
  | encClose =>
    obtain ⟨hph, hend, rfl⟩ := exec_encClose_next_iff.mp h
    exact hs.closeFrame hph hend
  | encWrite =>
    obtain ⟨hph, rfl⟩ := exec_encWrite_next_iff.mp h
    exact hs.awaitAnswer hph
  | encDoneOk =>
    obtain ⟨r, p, -, -, -, rfl⟩ := exec_encDoneOk_next_iff.mp h
    exact hs.toIdle
  | encDoneFail e =>
    obtain ⟨r, p, -, -, -, rfl⟩ := exec_encDoneFail_next_iff.mp h
    exact hs.toIdle
  | _ => contradiction

/-- An instruction of DEC keeps DEC legal. -/
theorem exec_keeps_decLegal (hi : i.isEnc = false) (h : exec i s = .next t) (hs : s.dec.Legal) :
    t.dec.Legal := by
  cases i with
  | decReadPacket r =>
    obtain ⟨hr, ho, hcase⟩ := exec_decReadPacket_next_iff.mp h
    obtain ⟨-, rfl⟩ | ⟨-, v, k, -, rfl⟩ | ⟨-, acc, ph, k, hrp, rfl⟩ := hcase
    · exact hs.pendSet hr ho
    · exact hs.toIdle
    · exact hs.serve hr ho (rp_blocked_phase_ne_idle (by decide) hrp)
  | decAccept r =>
    obtain ⟨-, hpend, rfl⟩ := exec_decAccept_next_iff.mp h
    exact hs.accept hpend
  | decRead =>
    obtain ⟨hph, -, rfl⟩ := exec_decRead_next_iff.mp h
    exact hs.goOn hph hph rfl rfl
  | decNFail e =>
    obtain ⟨-, r, -, rfl⟩ := exec_decNFail_next_iff.mp h
    exact hs.toIdle
  | decNEndSkip =>
    obtain ⟨hans, -, rfl⟩ := exec_decNEndSkip_next_iff.mp h
    have hph := readAnswered_ne_idle hans nofun
    exact hs.goOn hph hph rfl rfl
  | decNEndDone =>
    obtain ⟨-, -, r, -, rfl⟩ := exec_decNEndDone_next_iff.mp h
    exact hs.toIdle
  | decNEsc =>
    obtain ⟨hans, rfl⟩ := exec_decNEsc_next_iff.mp h
    exact hs.goOn (readAnswered_ne_idle hans nofun) nofun rfl rfl
  | decNLit b =>
    obtain ⟨hans, -, -, rfl⟩ := exec_decNLit_next_iff.mp h
    exact hs.goOn (readAnswered_ne_idle hans nofun) nofun rfl rfl
  | decEFail e =>
    obtain ⟨-, r, -, rfl⟩ := exec_decEFail_next_iff.mp h
    exact hs.toIdle
  | decEEnd =>
    obtain ⟨hans, rfl⟩ := exec_decEEnd_next_iff.mp h
    exact hs.goOn (readAnswered_ne_idle hans nofun) nofun rfl rfl
  | decEEsc =>
    obtain ⟨hans, rfl⟩ := exec_decEEsc_next_iff.mp h
    exact hs.goOn (readAnswered_ne_idle hans nofun) nofun rfl rfl
  | decELit b =>
    obtain ⟨hans, -, -, rfl⟩ := exec_decELit_next_iff.mp h
    exact hs.goOn (readAnswered_ne_idle hans nofun) nofun rfl rfl
  | _ => contradiction

/-- An instruction keeps its own agent legal and does not touch the other (R26). -/
theorem exec_keeps_inv (h : exec i s = .next t) (hs : s.Inv) : t.Inv := by
  obtain ⟨henc, hdec⟩ := hs
  cases hi : i.isEnc with
  | true =>
    have hsame : t.dec = s.dec := (congrArg State.dec (eq_withEncSide_of_exec hi h)).trans rfl
    exact ⟨exec_keeps_encLegal hi h henc, hsame ▸ hdec⟩
  | false =>
    have hsame : t.enc = s.enc := (congrArg State.enc (eq_withDecSide_of_exec hi h)).trans rfl
    exact ⟨hsame ▸ henc, exec_keeps_decLegal hi h hdec⟩

theorem issueEncode_keeps_inv {r : ReqId} {p : Packet} (h : issueEncode r p s = .next t) (hs : s.Inv) :
    t.Inv := by
  obtain ⟨hr, ho, rfl⟩ := issueEncode_next_iff.mp h
  exact ⟨hs.1.pendSet hr ho, hs.2⟩

theorem issueRead_keeps_inv {r : ReqId} (h : issueRead r s = .next t) (hs : s.Inv) : t.Inv := by
  obtain ⟨hr, ho, rfl⟩ := issueRead_next_iff.mp h
  exact ⟨hs.1, hs.2.pendSet hr ho⟩

end

/-- Settles O40: a step waits, issues a request or runs one instruction, and each of these keeps both
agents legal. -/
theorem stepKeepsLegalStates : Obligations.StepKeepsLegalStates := by
  unfold Obligations.StepKeepsLegalStates
  intro s t hs h
  obtain ⟨-, rfl⟩ | ⟨m, ms, -, hcase⟩ := step_next_cases h
  · exact hs
  · have hs' : (s.setSched ms).Inv := hs
    obtain rfl | ⟨r, p, -, hreq⟩ | ⟨r, -, hreq⟩ | ⟨x, -, hexec⟩ := hcase
    · exact hs'
    · exact issueEncode_keeps_inv hreq hs'
    · exact issueRead_keeps_inv hreq hs'
    · exact exec_keeps_inv hexec hs'

end Sys2Proof.Machine
end

section
/-! PROOF. The table of legal transitions (10_state.md R27): each step's inversion lemma gives the phase it runs in,
and its next state the phase it goes to. -/

namespace Sys2Proof.Machine

section

variable {i : Instr} {s t : State}

/-- A step of ENC, or its ACCEPT, makes a transition of R27. -/
theorem exec_encTransition (hi : i.isEncStep = true ∨ ∃ r, i = .encAccept r) (h : exec i s = .next t) :
    encTransition i s.enc.phase t.enc.phase = true := by
  cases i with
  | encAccept r =>
    obtain ⟨p, -, hph, rfl⟩ := exec_encAccept_next_iff.mp h
    rw [hph]; rfl
  | encOpen =>
    obtain ⟨hph, rfl⟩ := exec_encOpen_next_iff.mp h
    rw [hph]; rfl
  | encStuffEnd =>
    obtain ⟨hph, -, rfl⟩ := exec_encStuffEnd_next_iff.mp h
    simp [hph, encTransition]
  | encStuffEsc =>
    obtain ⟨hph, -, rfl⟩ := exec_encStuffEsc_next_iff.mp h
    simp [hph, encTransition]
  | encLit b =>
    obtain ⟨-, -, hph, -, rfl⟩ := exec_encLit_next_iff.mp h
    simp [hph, encTransition]
  | encClose =>
    obtain ⟨hph, -, rfl⟩ := exec_encClose_next_iff.mp h
    rw [hph]; rfl
  | encWrite =>
    obtain ⟨hph, rfl⟩ := exec_encWrite_next_iff.mp h
    rw [hph]; rfl
  | encDoneOk =>
    obtain ⟨r, p, -, hph, -, rfl⟩ := exec_encDoneOk_next_iff.mp h
    rw [hph]; rfl
  | encDoneFail e =>
    obtain ⟨r, p, -, hph, -, rfl⟩ := exec_encDoneFail_next_iff.mp h
    rw [hph]; rfl
  | _ => simp [Instr.isEncStep] at hi

/-- A step of DEC, or its ACCEPT, makes a transition of R27. -/
theorem exec_decTransition (hi : i.isDecStep = true ∨ ∃ r, i = .decAccept r) (h : exec i s = .next t) :
    decTransition i (s.dec.phase, s.dec.rd) (t.dec.phase, t.dec.rd) = true := by
  cases i with
  | decAccept r =>
    obtain ⟨hph, -, rfl⟩ := exec_decAccept_next_iff.mp h
    rw [hph]; rfl
  | decRead =>
    obtain ⟨hph, hrd, rfl⟩ := exec_decRead_next_iff.mp h
    cases hp : s.dec.phase with
    | idle => exact absurd hp hph
    | normal => simp [hp, hrd, decTransition]
    | escaped => simp [hp, hrd, decTransition]
  | decNFail e =>
    obtain ⟨⟨hph, hrd, -⟩, r, -, rfl⟩ := exec_decNFail_next_iff.mp h
    rw [hph, hrd]; rfl
  | decNEndSkip =>
    obtain ⟨⟨hph, hrd, -⟩, -, rfl⟩ := exec_decNEndSkip_next_iff.mp h
    simp [hph, hrd, decTransition]
  | decNEndDone =>
    obtain ⟨⟨hph, hrd, -⟩, -, r, -, rfl⟩ := exec_decNEndDone_next_iff.mp h
    rw [hph, hrd]; rfl
  | decNEsc =>
    obtain ⟨⟨hph, hrd, -⟩, rfl⟩ := exec_decNEsc_next_iff.mp h
    rw [hph, hrd]; rfl
  | decNLit b =>
    obtain ⟨⟨hph, hrd, -⟩, -, -, rfl⟩ := exec_decNLit_next_iff.mp h
    rw [hph, hrd]; rfl
  | decEFail e =>
    obtain ⟨⟨hph, hrd, -⟩, r, -, rfl⟩ := exec_decEFail_next_iff.mp h
    rw [hph, hrd]; rfl
  | decEEnd =>
    obtain ⟨⟨hph, hrd, -⟩, rfl⟩ := exec_decEEnd_next_iff.mp h
    rw [hph, hrd]; rfl
  | decEEsc =>
    obtain ⟨⟨hph, hrd, -⟩, rfl⟩ := exec_decEEsc_next_iff.mp h
    rw [hph, hrd]; rfl
  | decELit b =>
    obtain ⟨⟨hph, hrd, -⟩, -, -, rfl⟩ := exec_decELit_next_iff.mp h
    rw [hph, hrd]; rfl
  | _ => simp [Instr.isDecStep] at hi

end

/-- Settles O48: the transitions of the two agents, one lemma for each. -/
theorem phasesMoveOnlyAsListed : Obligations.PhasesMoveOnlyAsListed := by
  unfold Obligations.PhasesMoveOnlyAsListed
  exact fun i s t h => ⟨fun hi => exec_encTransition hi h, fun hi => exec_decTransition hi h⟩

end Sys2Proof.Machine
end

section
/-! PROOF. The state after reset (10_state.md R24, R32, 70_reset_and_hazards.md R190). -/

namespace Sys2Proof.Machine

theorem Enc.legal_reset : Enc.reset.Legal := ⟨rfl, .nil, nofun, nofun⟩

theorem Dec.legal_reset : Dec.reset.Legal := ⟨rfl, .nil, nofun, nofun⟩

/-- Nothing has been accepted, written, answered or responded yet. -/
theorem State.encHistory_reset : State.reset.EncHistory := ⟨[], rfl, rfl, rfl, rfl, rfl⟩

/-- Nothing has been read, so nothing is decoded or left over. -/
theorem State.decHistory_reset : State.reset.DecHistory := ⟨rfl, rfl, rfl⟩

/-- Settles O38: the elements are those `Enc.reset` and `Dec.reset` write out. -/
theorem resetValuesOfEveryElement : Obligations.ResetValuesOfEveryElement := by
  unfold Obligations.ResetValuesOfEveryElement
  exact ⟨⟨rfl, rfl, rfl, rfl, fun _ => rfl⟩, rfl, rfl, rfl, rfl, fun _ => rfl⟩

/-- Settles O39: both agents are legal at reset, and both histories are empty. -/
theorem invariantsHoldAtReset : Obligations.InvariantsHoldAtReset := by
  unfold Obligations.InvariantsHoldAtReset
  exact ⟨⟨Enc.legal_reset, Dec.legal_reset⟩, State.encHistory_reset, State.decHistory_reset⟩

end Sys2Proof.Machine
end

section
/-! PROOF. What is read from a history, of a history in two parts (20_memory.md R57, R59 to R61). -/

namespace Sys2Proof.Machine

section

variable (evs evs' : List EncEvent)

/-! ## ENC -/

@[simp] theorem acceptedOps_append :
    acceptedOps (evs ++ evs') = acceptedOps evs ++ acceptedOps evs' := by
  induction evs with
  | nil => rfl
  | cons ev evs ih => cases ev <;> simp [acceptedOps, ih]

@[simp] theorem issuedFrames_append :
    issuedFrames (evs ++ evs') = issuedFrames evs ++ issuedFrames evs' := by
  induction evs with
  | nil => rfl
  | cons ev evs ih => cases ev <;> simp [issuedFrames, ih]

@[simp] theorem writeAnswers_append :
    writeAnswers (evs ++ evs') = writeAnswers evs ++ writeAnswers evs' := by
  induction evs with
  | nil => rfl
  | cons ev evs ih => cases ev <;> simp [writeAnswers, ih]

@[simp] theorem encReplies_append :
    encReplies (evs ++ evs') = encReplies evs ++ encReplies evs' := by
  induction evs with
  | nil => rfl
  | cons ev evs ih => cases ev <;> simp [encReplies, ih]

/-- The second part starts with the write that the first leaves unanswered. -/
theorem writesFrom_append (f : Option Frame) :
    writesFrom f (evs ++ evs') =
      ((writesFrom f evs).1 ++ (writesFrom (writesFrom f evs).2 evs').1,
        (writesFrom (writesFrom f evs).2 evs').2) := by
  induction evs generalizing f with
  | nil => rfl
  | cons ev evs ih =>
    cases ev with
    | answer w => cases f <;> simp [writesFrom, ih]
    | _ => simp [writesFrom, ih]

end

section

variable (evs evs' : List DecEvent)

/-! ## DEC -/

@[simp] theorem acceptedReads_append :
    acceptedReads (evs ++ evs') = acceptedReads evs ++ acceptedReads evs' := by
  induction evs with
  | nil => rfl
  | cons ev evs ih => cases ev <;> simp [acceptedReads, ih]

@[simp] theorem issuedReads_append :
    issuedReads (evs ++ evs') = issuedReads evs + issuedReads evs' := by
  induction evs with
  | nil => simp [issuedReads]
  | cons ev evs ih => cases ev <;> simp [issuedReads, ih, Nat.add_right_comm]

@[simp] theorem readAnswers_append :
    readAnswers (evs ++ evs') = readAnswers evs ++ readAnswers evs' := by
  induction evs with
  | nil => rfl
  | cons ev evs ih => cases ev <;> simp [readAnswers, ih]

@[simp] theorem decReplies_append :
    decReplies (evs ++ evs') = decReplies evs ++ decReplies evs' := by
  induction evs with
  | nil => rfl
  | cons ev evs ih => cases ev <;> simp [decReplies, ih]

/-- The second part is decoded from the bytes and the escape state the first leaves over. -/
theorem decodeStream_append (acc : Packet) (ph : DecPhase) (xs ys : List ReadResp) :
    decodeStream acc ph (xs ++ ys) =
      ((decodeStream acc ph xs).1 ++
          (decodeStream (decodeStream acc ph xs).2.1 (decodeStream acc ph xs).2.2 ys).1,
        (decodeStream (decodeStream acc ph xs).2.1 (decodeStream acc ph xs).2.2 ys).2) := by
  induction xs generalizing acc ph with
  | nil => rfl
  | cons x xs ih =>
    cases x with
    | nodata e => simp [decodeStream, ih]
    | data b =>
      simp only [List.cons_append, decodeStream]
      split_ifs
      · exact ih _ _
      · exact ih _ _
      · simp [ih]
      · exact ih _ _
      · exact ih _ _

/-! The transactions of answered reads are reads and answers alone. -/

@[simp] theorem readEvents_cons (x : ReadResp) (xs : List ReadResp) :
    readEvents (x :: xs) = .read :: .answer x :: readEvents xs := rfl

@[simp] theorem readAnswers_readEvents (xs : List ReadResp) : readAnswers (readEvents xs) = xs := by
  induction xs with
  | nil => rfl
  | cons x xs ih => simp [readAnswers, ih]

@[simp] theorem issuedReads_readEvents (xs : List ReadResp) :
    issuedReads (readEvents xs) = xs.length := by
  induction xs with
  | nil => rfl
  | cons x xs ih => simp [issuedReads, ih]

@[simp] theorem acceptedReads_readEvents (xs : List ReadResp) : acceptedReads (readEvents xs) = [] := by
  induction xs with
  | nil => rfl
  | cons x xs ih => simp [acceptedReads, ih]

@[simp] theorem decReplies_readEvents (xs : List ReadResp) : decReplies (readEvents xs) = [] := by
  induction xs with
  | nil => rfl
  | cons x xs ih => simp [decReplies, ih]

end

end Sys2Proof.Machine
end

section
/-! PROOF. Every step keeps ENC's history (20_memory.md R60, 41_encoder.md R111 to R113). What the invariant says of
a whole history is said of a stretch of one, between any two of ENC's states; stretches join, and each instruction
of ENC records one. -/

namespace Sys2Proof.Machine

/-- The transactions that take ENC from `e` to `e'` are those of whole operations: as `State.EncHistory`, with
the operation `e` serves, and its write where that is issued, carried over from before. -/
def Enc.Records (e : Enc) (evs : List EncEvent) (e' : Enc) : Prop :=
  ∃ done : List (ReqId × Packet),
    e.cur.toList ++ acceptedOps evs = done ++ e'.cur.toList ∧
    e.written.map (fun c => frame c.2) ++ issuedFrames evs
      = (done ++ e'.written).map (fun c => frame c.2) ∧
    writesFrom (e.written.map (fun c => frame c.2)).head? evs =
      ((done.map (fun c => frame c.2)).zip (writeAnswers evs),
        (e'.written.map (fun c => frame c.2)).head?) ∧
    encReplies evs = (done.map Prod.fst).zip ((writeAnswers evs).map statusOf) ∧
    (writeAnswers evs).length = done.length

section

variable {e e' e'' : Enc} {r : ReqId} {p : Packet}

/-- The history of a state is what takes ENC there from reset. -/
theorem State.encHistory_iff {s : State} :
    s.EncHistory ↔ Enc.reset.Records s.encLog s.enc := Iff.rfl

/-- Stretches of a history join. -/
theorem Enc.Records.append {evs evs' : List EncEvent} (h : e.Records evs e')
    (h' : e'.Records evs' e'') : e.Records (evs ++ evs') e'' := by
  obtain ⟨done, hacc, hiss, hwr, hrep, hlen⟩ := h
  obtain ⟨done', hacc', hiss', hwr', hrep', hlen'⟩ := h'
  refine ⟨done ++ done', ?_, ?_, ?_, ?_, ?_⟩
  · rw [acceptedOps_append, ← List.append_assoc, hacc, List.append_assoc, hacc', List.append_assoc]
  · rw [issuedFrames_append, ← List.append_assoc, hiss, List.map_append, List.append_assoc, hiss',
      ← List.map_append, List.append_assoc]
  · rw [writesFrom_append, hwr, hwr', writeAnswers_append, List.map_append,
      List.zip_append ((List.length_map _).trans hlen.symm)]
  · simp [hrep, hrep', List.zip_append, hlen]
  · simp [hlen, hlen']

@[simp] theorem Enc.written_eq_nil_of_phase (h : e.phase ≠ .wait) : e.written = [] := if_neg h

theorem Enc.written_eq_cur_of_wait (h : e.phase = .wait) : e.written = e.cur.toList := if_pos h

/-- A legal ENC in IDLE serves nobody (R21). -/
theorem Enc.Legal.cur_eq_none (h : e.Legal) (hph : e.phase = .idle) : e.cur = none := by
  have hctl := h.1
  cases hc : e.cur with
  | none => rfl
  | some c => simp [Enc.control, hph, hc] at hctl

/-! ## What each kind of step records -/

/-- No transaction. -/
theorem Enc.Records.nil (hcur : e'.cur = e.cur) (hwr : e'.written = e.written) : e.Records [] e' := by
  refine ⟨[], ?_⟩
  simp [hcur, hwr, acceptedOps, issuedFrames, writesFrom, writeAnswers, encReplies]

/-- Assembling the frame: no transaction (R102 to R106, R110). -/
theorem Enc.Records.assembling (hcur : e'.cur = e.cur) (hph : e.phase ≠ .wait)
    (hph' : e'.phase ≠ .wait) : e.Records [] e' :=
  .nil hcur ((Enc.written_eq_nil_of_phase hph').trans (Enc.written_eq_nil_of_phase hph).symm)

/-- A request (R185). -/
theorem Enc.Records.request (hcur : e'.cur = e.cur) (hph : e'.phase = e.phase) :
    e.Records [.req r p] e' := by
  refine ⟨[], ?_⟩
  simp [Enc.written, hcur, hph, acceptedOps, issuedFrames, writesFrom, writeAnswers, encReplies]

/-- An acceptance by an ENC that serves nobody (R101). -/
theorem Enc.Records.accept (hcur : e.cur = none) (hcur' : e'.cur = some (r, p))
    (hph : e.phase ≠ .wait) (hph' : e'.phase ≠ .wait) : e.Records [.accept r p] e' := by
  refine ⟨[], ?_⟩
  simp [hcur, hcur', hph, hph', acceptedOps, issuedFrames, writesFrom, writeAnswers, encReplies]

/-- The write of the frame of the operation in service (R107). -/
theorem Enc.Records.write (hcur : e.cur = some (r, p)) (hcur' : e'.cur = some (r, p))
    (hph : e.phase ≠ .wait) (hph' : e'.phase = .wait) : e.Records [.write (frame p)] e' := by
  refine ⟨[], ?_⟩
  simp [hcur, hcur', hph, Enc.written_eq_cur_of_wait hph', acceptedOps, issuedFrames, writesFrom,
    writeAnswers, encReplies]

/-- The answer to the write and, with its status, the response (R108, R109, R113). -/
theorem Enc.Records.finish (w : WriteResp) (hcur : e.cur = some (r, p)) (hph : e.phase = .wait) :
    e.Records [.answer w, .rsp r (statusOf w)] e.toIdle := by
  refine ⟨[(r, p)], ?_⟩
  simp [hcur, Enc.written_eq_cur_of_wait hph, Enc.toIdle, acceptedOps, issuedFrames, writesFrom,
    writeAnswers, encReplies]

/-- A whole ENCODE up to its write (R100). -/
theorem Enc.Records.encode (i : Nat) (f : List Byte) (hcur : e.cur = none) (hph : e.phase = .idle) :
    e.Records [.req r p, .accept r p, .write (frame p)]
      { e with phase := .wait, cur := some (r, p), i := i, fbuf := f } :=
  have haccept : e.Records [.accept r p] { e with phase := .opening, cur := some (r, p) } :=
    .accept hcur rfl (by simp [hph]) nofun
  (Enc.Records.request rfl rfl).append (haccept.append (.write rfl rfl nofun rfl))

end

section

variable {i : Instr} {s t : State}

/-- An ENC that goes from `s` to `t` adds to its history a stretch of whole operations. -/
def State.EncRecords (s t : State) : Prop :=
  ∃ evs, t.encLog = s.encLog ++ evs ∧ s.enc.Records evs t.enc

theorem State.EncRecords.of_setEnc {e : Enc} (h : s.enc.Records [] e) : s.EncRecords (s.setEnc e) :=
  ⟨[], (List.append_nil _).symm, h⟩

/-- An ENC that does not move records nothing. -/
theorem State.EncRecords.refl (henc : t.enc = s.enc) (hlog : t.encLog = s.encLog) : s.EncRecords t :=
  ⟨[], hlog.trans (List.append_nil _).symm, .nil (congrArg Enc.cur henc) (congrArg Enc.written henc)⟩

/-- An instruction of ENC records a stretch of whole operations. -/
theorem exec_encRecords (hi : i.isEnc = true) (h : exec i s = .next t) (hs : s.enc.Legal) :
    s.EncRecords t := by
  cases i with
  | encEncode r p =>
    obtain ⟨-, -, hcase⟩ := exec_encEncode_next_iff.mp h
    obtain ⟨-, rfl⟩ | ⟨hph, -, rfl⟩ | ⟨hph, w, rest, -, rfl⟩ := hcase
    · exact ⟨_, rfl, .request rfl rfl⟩
    · exact ⟨_, rfl, .encode _ _ (hs.cur_eq_none hph) hph⟩
    · exact ⟨_, rfl, (Enc.Records.encode 0 [] (hs.cur_eq_none hph) hph).append (.finish w rfl rfl)⟩
  | encAccept r =>
    obtain ⟨p, -, hph, rfl⟩ := exec_encAccept_next_iff.mp h
    exact ⟨_, rfl, .accept (hs.cur_eq_none hph) rfl (by simp [hph]) nofun⟩
  | encOpen =>
    obtain ⟨hph, rfl⟩ := exec_encOpen_next_iff.mp h
    exact .of_setEnc (.assembling rfl (by simp [hph]) nofun)
  | encStuffEnd =>
    obtain ⟨-, -, rfl⟩ := exec_encStuffEnd_next_iff.mp h
    exact .of_setEnc (.nil rfl rfl)
  | encStuffEsc =>
    obtain ⟨-, -, rfl⟩ := exec_encStuffEsc_next_iff.mp h
    exact .of_setEnc (.nil rfl rfl)
  | encLit b =>
    obtain ⟨-, -, -, -, rfl⟩ := exec_encLit_next_iff.mp h
    exact .of_setEnc (.nil rfl rfl)
  | encClose =>
    obtain ⟨hph, -, rfl⟩ := exec_encClose_next_iff.mp h
    exact .of_setEnc (.assembling rfl (by simp [hph]) nofun)
  | encWrite =>
    obtain ⟨hph, rfl⟩ := exec_encWrite_next_iff.mp h
    obtain ⟨r, p, hcur, -, hf⟩ := (Enc.control_framed_iff (.inl hph)).mp hs.1
    refine ⟨_, rfl, ?_⟩
    rw [hf]
    exact .write hcur hcur (by simp [hph]) rfl
  | encDoneOk =>
    obtain ⟨r, p, hcur, hph, -, rfl⟩ := exec_encDoneOk_next_iff.mp h
    exact ⟨_, rfl, .finish .ok hcur hph⟩
  | encDoneFail e =>
    obtain ⟨r, p, hcur, hph, -, rfl⟩ := exec_encDoneFail_next_iff.mp h
    exact ⟨_, rfl, .finish (.fail e) hcur hph⟩
  | _ => contradiction

/-- Every step records a stretch of whole operations of ENC: none where ENC does not move. -/
theorem step_encRecords (h : step s = .next t) (hs : s.enc.Legal) : s.EncRecords t := by
  obtain ⟨-, rfl⟩ | ⟨m, ms, -, hcase⟩ := step_next_cases h
  · exact .refl rfl rfl
  · change (s.setSched ms).EncRecords t
    obtain rfl | ⟨r, p, -, hreq⟩ | ⟨r, -, hreq⟩ | ⟨x, -, hexec⟩ := hcase
    · exact .refl rfl rfl
    · obtain ⟨-, -, rfl⟩ := issueEncode_next_iff.mp hreq
      exact ⟨_, rfl, .request rfl rfl⟩
    · obtain ⟨-, -, rfl⟩ := issueRead_next_iff.mp hreq
      exact .refl rfl rfl
    · cases hi : (decode x).isEnc with
      | true => exact exec_encRecords hi hexec hs
      | false =>
        have ht := eq_withDecSide_of_exec hi hexec
        exact .refl ((congrArg State.enc ht).trans rfl) ((congrArg State.encLog ht).trans rfl)

end

/-- Settles O41: the history so far and the stretch that the step adds join. -/
theorem stepKeepsEncHistory : Obligations.StepKeepsEncHistory := by
  unfold Obligations.StepKeepsEncHistory
  intro s t hs hhist h
  obtain ⟨evs, hlog, hevs⟩ := step_encRecords h hs.1
  rw [State.encHistory_iff, hlog]
  exact (State.encHistory_iff.mp hhist).append hevs

end Sys2Proof.Machine
end

section
/-! PROOF. Every step keeps DEC's history (20_memory.md R59, R61, 30_encoding.md R82, 42_decoder.md R144, R145), in
the shape of ENC's: stretches of a history join, and each instruction of DEC records one. -/

namespace Sys2Proof.Machine

/-- The number of reads a decoder has outstanding (R23). -/
def Dec.openReads (d : Dec) : Nat := if d.rd then 1 else 0

/-- The transactions that take DEC from `d` to `d'` are those of whole operations over one stream: as
`State.DecHistory`, with what `d` has gathered, the requester it serves and its outstanding read carried over
from before. -/
def Dec.Records (d : Dec) (evs : List DecEvent) (d' : Dec) : Prop :=
  decodeStream d.acc d.escape (readAnswers evs)
      = ((decReplies evs).map Prod.snd, d'.acc, d'.escape) ∧
    d.cur.toList ++ acceptedReads evs = (decReplies evs).map Prod.fst ++ d'.cur.toList ∧
    d.openReads + issuedReads evs = (readAnswers evs).length + d'.openReads

section

variable {d d' d'' : Dec} {r : ReqId} {acc acc' : Packet} {ph ph' : DecPhase} {xs : List ReadResp}

/-- The history of a state is what takes DEC there from reset. -/
theorem State.decHistory_iff {s : State} : s.DecHistory ↔ Dec.reset.Records s.decLog s.dec := by
  change _ ↔ _ ∧ _ ∧ 0 + issuedReads s.decLog = _
  rw [Nat.zero_add]
  rfl

/-- Stretches of a history join. -/
theorem Dec.Records.append {evs evs' : List DecEvent} (h : d.Records evs d') (h' : d'.Records evs' d'') :
    d.Records (evs ++ evs') d'' := by
  obtain ⟨hdec, hacc, hrd⟩ := h
  obtain ⟨hdec', hacc', hrd'⟩ := h'
  refine ⟨?_, ?_, ?_⟩
  · rw [readAnswers_append, decodeStream_append, hdec, hdec', decReplies_append, List.map_append]
  · rw [acceptedReads_append, ← List.append_assoc, hacc, List.append_assoc, hacc', decReplies_append,
      List.map_append, List.append_assoc]
  · rw [issuedReads_append, readAnswers_append, List.length_append]
    omega

/-- A legal DEC in IDLE is empty (R23, R24). -/
theorem Dec.Legal.idle_empty (h : d.Legal) (hph : d.phase = .idle) :
    d.cur = none ∧ d.rd = false ∧ d.acc = [] := by
  have hctl := h.1
  cases hc : d.cur with
  | none => simpa [Dec.control, hph, hc] using hctl
  | some r => simp [Dec.control, hph, hc] at hctl

@[simp] theorem Dec.escape_eq_phase (h : d.phase ≠ .idle) : d.escape = d.phase := by
  cases hph : d.phase with
  | idle => exact absurd hph h
  | normal => simp [Dec.escape, hph]
  | escaped => simp [Dec.escape, hph]

@[simp] theorem Dec.escape_of_idle (h : d.phase = .idle) : d.escape = .normal := by
  simp [Dec.escape, h]

/-! ## What each kind of step records -/

/-- No transaction. -/
theorem Dec.Records.refl (d : Dec) : d.Records [] d := by
  simp [Dec.Records, decodeStream, readAnswers, decReplies, acceptedReads, issuedReads]

/-- A request (R185). -/
theorem Dec.Records.request (pend : List ReqId) : d.Records [.req r] { d with pend := pend } := by
  simp [Dec.Records, Dec.escape, Dec.openReads, decodeStream, readAnswers, decReplies, acceptedReads,
    issuedReads]

/-- An acceptance by an idle, empty DEC (R131). -/
theorem Dec.Records.accept (h : d.Legal) (hph : d.phase = .idle) (pend : List ReqId) :
    d.Records [.accept r] { phase := .normal, rd := false, cur := some r, acc := [], pend := pend } := by
  obtain ⟨hcur, hrd, hacc⟩ := h.idle_empty hph
  simp [Dec.Records, Dec.openReads, hph, hcur, hrd, hacc, decodeStream, readAnswers, decReplies,
    acceptedReads, issuedReads]

/-- One more read, where none is outstanding (R132). -/
theorem Dec.Records.read (hrd : d.rd = false) : d.Records [.read] { d with rd := true } := by
  simp [Dec.Records, Dec.escape, Dec.openReads, hrd, decodeStream, readAnswers, decReplies,
    acceptedReads, issuedReads]

/-- An answer taken within an operation (R134, R136, R137, R139 to R141). -/
theorem Dec.Records.answer {x : ReadResp} (hph : d.phase ≠ .idle) (hrd : d.rd = true)
    (hph' : ph' ≠ .idle) (hdec : decodeStream d.acc d.phase [x] = ([], acc', ph')) :
    d.Records [.answer x] { d with phase := ph', rd := false, acc := acc' } := by
  simp [Dec.Records, Dec.openReads, hph, hrd, hph', hdec, readAnswers, decReplies, acceptedReads,
    issuedReads]

/-- The answer that ends an operation, and the response (R133, R135, R138, R142). -/
theorem Dec.Records.finish {x : ReadResp} {v : DecResult} (hph : d.phase ≠ .idle) (hrd : d.rd = true)
    (hcur : d.cur = some r) (hdec : decodeStream d.acc d.phase [x] = ([v], [], .normal)) :
    d.Records [.answer x, .rsp r v] d.toIdle := by
  simp [Dec.Records, Dec.openReads, Dec.toIdle, hph, hrd, hcur, hdec, readAnswers, decReplies,
    acceptedReads, issuedReads]

/-! ## The whole operation -/

/-- On one answer `rp` responds with the result that the answer decodes to, or goes on from what it leaves
over (R149), unless the packet would exceed a bound (R146). -/
theorem rp_cons_cases (bound : Option Nat) (acc : Packet) (x : ReadResp) (xs : List ReadResp) (k : Nat)
    (hph : ph ≠ .idle) :
    rp bound acc ph (x :: xs) k = .overflow ∨
    (∃ v, rp bound acc ph (x :: xs) k = .done v (k + 1) ∧
      decodeStream acc ph [x] = ([v], [], .normal)) ∨
    (∃ acc' ph', rp bound acc ph (x :: xs) k = rp bound acc' ph' xs (k + 1) ∧ ph' ≠ .idle ∧
      decodeStream acc ph [x] = ([], acc', ph')) := by
  cases x with
  | nodata e => exact .inr (.inl ⟨_, rfl, rfl⟩)
  | data b =>
    cases ph with
    | idle => exact absurd rfl hph
    | normal =>
      simp only [rp, decodeStream, if_true, reduceCtorEq, if_false]
      split_ifs
      · exact .inr (.inr ⟨_, _, rfl, nofun, rfl⟩)
      · exact .inr (.inl ⟨_, rfl, rfl⟩)
      · exact .inr (.inr ⟨_, _, rfl, nofun, rfl⟩)
      · exact .inr (.inr ⟨_, _, rfl, nofun, rfl⟩)
      · exact .inl rfl
    | escaped =>
      simp only [rp, decodeStream, if_true, reduceCtorEq, if_false]
      split_ifs
      · exact .inr (.inr ⟨_, _, rfl, nofun, rfl⟩)
      · exact .inl rfl

/-- What the first answer leaves over, the rest is decoded from. -/
theorem decodeStream_cons_of_no_result {x : ReadResp} (h : decodeStream acc ph [x] = ([], acc', ph')) :
    decodeStream acc ph (x :: xs) = decodeStream acc' ph' xs := by
  rw [← List.singleton_append, decodeStream_append, h, List.nil_append]

/-- `rp` responds where the answers it takes decode to its one result, nothing left over (R149). -/
theorem decodeStream_of_rp_done {bound : Option Nat} {v : DecResult} {k k' : Nat} (hph : ph ≠ .idle)
    (h : rp bound acc ph xs k = .done v k') :
    ∃ n, k' = k + n ∧ decodeStream acc ph (xs.take n) = ([v], [], .normal) := by
  induction xs generalizing acc ph k with
  | nil => simp [rp] at h
  | cons x xs ih =>
    obtain hrp | ⟨v', hrp, hdec⟩ | ⟨acc', ph', hrp, hph', hdec⟩ := rp_cons_cases bound acc x xs k hph
    · simp [hrp] at h
    · obtain ⟨rfl, rfl⟩ : v' = v ∧ k + 1 = k' := by simpa [hrp] using h
      exact ⟨1, rfl, hdec⟩
    · obtain ⟨n, rfl, hn⟩ := ih hph' (hrp ▸ h)
      exact ⟨n + 1, by omega, (decodeStream_cons_of_no_result hdec).trans hn⟩

/-- `rp` waits where all the answers decode to no result, and what is left over is what it has gathered
(R149). -/
theorem decodeStream_of_rp_blocked {bound : Option Nat} {k k' : Nat} (hph : ph ≠ .idle)
    (h : rp bound acc ph xs k = .blocked acc' ph' k') :
    k' = k + xs.length ∧ decodeStream acc ph xs = ([], acc', ph') := by
  induction xs generalizing acc ph k with
  | nil =>
    obtain ⟨rfl, rfl, rfl⟩ : acc = acc' ∧ ph = ph' ∧ k = k' := by simpa [rp] using h
    exact ⟨rfl, rfl⟩
  | cons x xs ih =>
    obtain hrp | ⟨v, hrp, -⟩ | ⟨acc'', ph'', hrp, hph'', hdec⟩ := rp_cons_cases bound acc x xs k hph
    · simp [hrp] at h
    · simp [hrp] at h
    · obtain ⟨rfl, hxs⟩ := ih hph'' (hrp ▸ h)
      exact ⟨by rw [List.length_cons]; omega, (decodeStream_cons_of_no_result hdec).trans hxs⟩

/-- The start of a whole READ_PACKET (R130). -/
theorem Dec.Records.start (h : d.Legal) (hph : d.phase = .idle) :
    d.Records [.req r, .accept r]
      { phase := .normal, rd := false, cur := some r, acc := [], pend := d.pend } :=
  (Dec.Records.request d.pend).append (.accept h hph d.pend)

/-- Answered reads that end an operation, and the response (R149). -/
theorem Dec.Records.readsThenFinish {v : DecResult} (hph : d.phase ≠ .idle) (hrd : d.rd = false)
    (hcur : d.cur = some r) (hdec : decodeStream d.acc d.phase xs = ([v], [], .normal)) :
    d.Records (readEvents xs ++ [.rsp r v]) d.toIdle := by
  simp [Dec.Records, Dec.openReads, Dec.toIdle, hph, hrd, hcur, hdec, readAnswers, decReplies,
    acceptedReads, issuedReads]

/-- Answered reads within an operation, and one more read (R145, R149). -/
theorem Dec.Records.readsThenRead (hph : d.phase ≠ .idle) (hrd : d.rd = false) (hph' : ph' ≠ .idle)
    (hdec : decodeStream d.acc d.phase xs = ([], acc', ph')) :
    d.Records (readEvents xs ++ [.read]) { d with phase := ph', rd := true, acc := acc' } := by
  simp [Dec.Records, Dec.openReads, hph, hrd, hph', hdec, readAnswers, decReplies, acceptedReads,
    issuedReads]

end

section

variable {i : Instr} {s t : State}

/-- A DEC that goes from `s` to `t` adds to its history a stretch of whole operations. -/
def State.DecRecords (s t : State) : Prop :=
  ∃ evs, t.decLog = s.decLog ++ evs ∧ s.dec.Records evs t.dec

/-- A DEC that does not move records nothing. -/
theorem State.DecRecords.refl (hdec : t.dec = s.dec) (hlog : t.decLog = s.decLog) : s.DecRecords t :=
  ⟨[], hlog.trans (List.append_nil _).symm, hdec ▸ .refl s.dec⟩

/-- An answer taken within an operation. -/
theorem State.DecRecords.takeAnswer {ph ph' : DecPhase} {acc' : Packet} {x : ReadResp}
    (hans : s.readAnswered ph x) (hph : ph ≠ .idle) (hph' : ph' ≠ .idle)
    (hdec : decodeStream s.dec.acc ph [x] = ([], acc', ph')) :
    s.DecRecords (takeAnswer x { s.dec with phase := ph', rd := false, acc := acc' } s) := by
  obtain ⟨rfl, hrd, -⟩ := hans
  exact ⟨_, rfl, .answer hph hrd hph' hdec⟩

/-- An answer that ends an operation. -/
theorem State.DecRecords.finish {ph : DecPhase} {x : ReadResp} {v : DecResult} {r : ReqId}
    (hans : s.readAnswered ph x) (hph : ph ≠ .idle) (hcur : s.dec.cur = some r)
    (hdec : decodeStream s.dec.acc ph [x] = ([v], [], .normal)) :
    s.DecRecords ((Machine.takeAnswer x s.dec.toIdle s).logDec [.rsp r v]) := by
  obtain ⟨rfl, hrd, -⟩ := hans
  exact ⟨_, List.append_assoc _ _ _, .finish hph hrd hcur hdec⟩

/-- An instruction of DEC records a stretch of whole operations. -/
theorem exec_decRecords (hi : i.isEnc = false) (h : exec i s = .next t) (hs : s.dec.Legal) :
    s.DecRecords t := by
  cases i with
  | decReadPacket r =>
    obtain ⟨-, -, hcase⟩ := exec_decReadPacket_next_iff.mp h
    obtain ⟨-, rfl⟩ | ⟨hph, v, k, hrp, rfl⟩ | ⟨hph, acc, ph, k, hrp, rfl⟩ := hcase
    · exact ⟨_, rfl, .request _⟩
    · obtain ⟨n, rfl, hdec⟩ := decodeStream_of_rp_done (by decide) hrp
      refine ⟨_, rfl, ?_⟩
      rw [Nat.zero_add, List.append_assoc]
      exact (Dec.Records.start hs hph).append (.readsThenFinish nofun rfl rfl hdec)
    · obtain ⟨rfl, hdec⟩ := decodeStream_of_rp_blocked (by decide) hrp
      have hph' := rp_blocked_phase_ne_idle (by decide) hrp
      refine ⟨_, rfl, ?_⟩
      rw [Nat.zero_add, List.take_length, List.append_assoc]
      exact (Dec.Records.start hs hph).append (.readsThenRead nofun rfl hph' hdec)
  | decAccept r =>
    obtain ⟨hph, -, rfl⟩ := exec_decAccept_next_iff.mp h
    exact ⟨_, rfl, .accept hs hph _⟩
  | decRead =>
    obtain ⟨-, hrd, rfl⟩ := exec_decRead_next_iff.mp h
    exact ⟨_, rfl, .read hrd⟩
  | decNFail e =>
    obtain ⟨hans, r, hcur, rfl⟩ := exec_decNFail_next_iff.mp h
    exact .finish hans nofun hcur rfl
  | decNEndSkip =>
    obtain ⟨hans, hacc, rfl⟩ := exec_decNEndSkip_next_iff.mp h
    exact .takeAnswer hans nofun (readAnswered_ne_idle hans nofun) (by simp [decodeStream, hacc, hans.1])
  | decNEndDone =>
    obtain ⟨hans, hacc, r, hcur, rfl⟩ := exec_decNEndDone_next_iff.mp h
    exact .finish hans nofun hcur (by simp [decodeStream, hacc])
  | decNEsc =>
    obtain ⟨hans, rfl⟩ := exec_decNEsc_next_iff.mp h
    exact .takeAnswer hans nofun nofun (by simp [decodeStream])
  | decNLit b =>
    obtain ⟨hans, hne, hne', rfl⟩ := exec_decNLit_next_iff.mp h
    exact .takeAnswer hans nofun nofun (by simp [decodeStream, hne, hne'])
  | decEFail e =>
    obtain ⟨hans, r, hcur, rfl⟩ := exec_decEFail_next_iff.mp h
    exact .finish hans nofun hcur rfl
  | decEEnd =>
    obtain ⟨hans, rfl⟩ := exec_decEEnd_next_iff.mp h
    exact .takeAnswer hans nofun nofun (by simp [decodeStream, unescape_ESC_END])
  | decEEsc =>
    obtain ⟨hans, rfl⟩ := exec_decEEsc_next_iff.mp h
    exact .takeAnswer hans nofun nofun (by simp [decodeStream, unescape_ESC_ESC])
  | decELit b =>
    obtain ⟨hans, hne, hne', rfl⟩ := exec_decELit_next_iff.mp h
    exact .takeAnswer hans nofun nofun (by simp [decodeStream, unescape_other hne hne'])
  | _ => contradiction

/-- Every step records a stretch of whole operations of DEC: none where DEC does not move. -/
theorem step_decRecords (h : step s = .next t) (hs : s.dec.Legal) : s.DecRecords t := by
  obtain ⟨-, rfl⟩ | ⟨m, ms, -, hcase⟩ := step_next_cases h
  · exact .refl rfl rfl
  · change (s.setSched ms).DecRecords t
    obtain rfl | ⟨r, p, -, hreq⟩ | ⟨r, -, hreq⟩ | ⟨x, -, hexec⟩ := hcase
    · exact .refl rfl rfl
    · obtain ⟨-, -, rfl⟩ := issueEncode_next_iff.mp hreq
      exact .refl rfl rfl
    · obtain ⟨-, -, rfl⟩ := issueRead_next_iff.mp hreq
      exact ⟨_, rfl, .request _⟩
    · cases hi : (decode x).isEnc with
      | true =>
        have ht := eq_withEncSide_of_exec hi hexec
        exact .refl ((congrArg State.dec ht).trans rfl) ((congrArg State.decLog ht).trans rfl)
      | false => exact exec_decRecords hi hexec hs

end

/-- Settles O42: the history so far and the stretch that the step adds join. -/
theorem stepKeepsDecHistory : Obligations.StepKeepsDecHistory := by
  unfold Obligations.StepKeepsDecHistory
  intro s t hs hhist h
  obtain ⟨evs, hlog, hevs⟩ := step_decRecords h hs.2
  rw [State.decHistory_iff, hlog]
  exact (State.decHistory_iff.mp hhist).append hevs

end Sys2Proof.Machine
end

section
/-! PROOF. What the wire has of the answered writes (20_memory.md R57, 92_eei_decisions.md D3), and what a decoder
makes of it (20_memory.md R60, R61, 42_decoder.md R148, 70_reset_and_hazards.md R202). -/

namespace Sys2Proof.Machine

/-! ## The wire -/

/-- The failed ones of a history's writes, which number the free values on the wire (log entry 13). -/
def failedWrites (ws : List (Frame × WriteResp)) : Nat := ws.countP (fun c => c.2 ≠ .ok)

/-- Later writes follow earlier ones on the wire. -/
theorem wireFrom_append (n : Nat) (ws ws' : List (Frame × WriteResp)) :
    wireFrom n (ws ++ ws') = wireFrom n ws ++ wireFrom (n + failedWrites ws) ws' := by
  induction ws generalizing n with
  | nil => rfl
  | cons c ws ih =>
    obtain ⟨f, w⟩ := c
    cases w with
    | ok => simp [wireFrom, failedWrites, ih]
    | fail e => simp [wireFrom, failedWrites, ih, Nat.add_assoc, Nat.add_comm 1]

/-- Where every write was answered OK, the wire has the frames, whole and in order (R57). -/
theorem wireFrom_zip_of_all_ok (n : Nat) {fs : List Frame} {ws : List WriteResp}
    (hlen : ws.length = fs.length) (hok : ∀ w ∈ ws, w = .ok) :
    wireFrom n (fs.zip ws) = fs.flatten := by
  rw [List.eq_replicate_of_mem hok, hlen]
  clear hlen hok
  induction fs with
  | nil => rfl
  | cons f fs ih =>
    simp [List.replicate_succ, wireFrom, ih]

section

variable {s t : State}

/-- A whole ENCODE answered `w` adds one completed write, of the whole frame (R100). -/
theorem writes_of_exec_encEncode {r : ReqId} {p : Packet} {w : WriteResp} {rest : List WriteResp}
    (hph : s.enc.phase = .idle) (hans : s.outAns = w :: rest)
    (h : exec (.encEncode r p) s = .next t) :
    t.writes = s.writes ++ [(frame p, w)] := by
  obtain ⟨-, -, hcase⟩ := exec_encEncode_next_iff.mp h
  obtain ⟨hbusy, -⟩ | ⟨-, hnone, -⟩ | ⟨-, w', rest', hans', rfl⟩ := hcase
  · exact absurd hph hbusy
  · simp [hans] at hnone
  · obtain ⟨rfl, -⟩ : w = w' ∧ rest = rest' := by simpa [hans] using hans'
    simp [State.writes, writesFrom_append, writesFrom]

end

/-- Settles O57: the ENCODE completes one write, and what the wire has of it follows the rest. -/
theorem wireAfterWrite : Obligations.WireAfterWrite := by
  unfold Obligations.WireAfterWrite
  intro s t r p w rest _ _ hph hans h
  have hwire : t.wire = s.wire ++ wireFrom (0 + failedWrites s.writes) [(frame p, w)] := by
    rw [State.wire, writes_of_exec_encEncode hph hans h, wireFrom_append, State.wire]
  refine ⟨?_, ?_⟩
  · rintro rfl
    simpa [wireFrom] using hwire
  · rintro e rfl
    exact ⟨failedWrites s.writes, by simpa [wireFrom] using hwire⟩

/-! ## Decoding the wire -/

section

variable (acc : Packet) (xs : List ReadResp)

/-- A stuffed byte decodes to the byte (R72, R73). -/
theorem decodeStream_stuff (b : Byte) :
    decodeStream acc .normal ((stuff b).map .data ++ xs) = decodeStream (acc ++ [b]) .normal xs := by
  obtain ⟨rfl, hs⟩ | ⟨rfl, hs⟩ | ⟨hne, hne', hs⟩ := stuff_cases b
  · simp [hs, decodeStream, unescape_ESC_END]
  · simp [hs, decodeStream, unescape_ESC_ESC]
  · simp [hs, decodeStream, hne, hne']

/-- A stuffed packet decodes to the packet (R71). -/
theorem decodeStream_stuffAll (p : Packet) :
    decodeStream acc .normal ((stuffAll p).map .data ++ xs) = decodeStream (acc ++ p) .normal xs := by
  induction p generalizing acc with
  | nil => simp [stuffAll_nil]
  | cons b p ih =>
    rw [stuffAll_cons, List.map_append, List.append_assoc, decodeStream_stuff, ih, List.append_assoc,
      List.singleton_append]

/-- A frame decodes to its packet, complete, or to nothing where that is empty (R147, R148). -/
theorem decodeStream_frame (p : Packet) :
    decodeStream [] .normal ((frame p).map .data ++ xs) =
      ((if p ≠ [] then [complete p] else []) ++ (decodeStream [] .normal xs).1,
        (decodeStream [] .normal xs).2) := by
  have hlead : decodeStream [] .normal ((frame p).map .data ++ xs) =
      decodeStream [] .normal ((stuffAll p).map .data ++ .data END :: xs) := by
    simp [frame_eq, decodeStream]
  rw [hlead, decodeStream_stuffAll, List.nil_append]
  by_cases hp : p = []
  · simp [decodeStream, hp]
  · simp [decodeStream, hp]

end

/-- Frames in a row decode to their packets, in order, but for the empty ones (R148, R202). -/
theorem decodeStream_frames (ps : List Packet) :
    decodeStream [] .normal ((ps.map frame).flatten.map .data) =
      ((ps.filter (fun p => p ≠ [])).map complete, [], .normal) := by
  induction ps with
  | nil => rfl
  | cons p ps ih =>
    rw [List.map_cons, List.flatten_cons, List.map_append, decodeStream_frame, ih]
    by_cases hp : p = []
    · simp [hp]
    · simp [hp]

/-- Settles O56: the wire has the frames of the accepted packets, and what DEC responds is what they decode
to. -/
theorem endToEndDelivery : Obligations.EndToEndDelivery := by
  unfold Obligations.EndToEndDelivery
  intro s s' henc hcur hok hdec hread
  obtain ⟨done, hacc, -, hwr, -, hlen⟩ := henc
  have hdone : acceptedOps s.encLog = done := by simpa [hcur] using hacc
  have hwire : s.wire = ((done.map Prod.snd).map frame).flatten := by
    rw [State.wire, State.writes, hwr, wireFrom_zip_of_all_ok 0 (by simpa using hlen) hok,
      List.map_map]
    rfl
  obtain ⟨hres, -, -⟩ := hdec
  rw [hread, hwire, decodeStream_frames] at hres
  rw [hdone]
  exact (congrArg Prod.fst hres).symm

end Sys2Proof.Machine
end

section
/-! PROOF. Steps of ENC and DEC commute (20_memory.md R62): each replaces its own side alone. -/

namespace Sys2Proof.Machine

/-- Settles O47: both orders end in the state with ENC's side from its step and DEC's from its own. -/
theorem agentStepsCommute : Obligations.AgentStepsCommute := by
  unfold Obligations.AgentStepsCommute
  intro i j s a b hi hj ha hb
  obtain ⟨hdec, hsched, -⟩ := (agentsShareNoState i s a ha).1 hi
  obtain ⟨henc, hsched', -⟩ := (agentsShareNoState j s b hb).2 hj
  have hsame : b.withEncSide a = a.withDecSide b := by
    simp only [State.withEncSide, State.withDecSide, hsched, hsched']
  exact ⟨a.withDecSide b, exec_next_of_decSide_eq hj hb hdec,
    hsame ▸ exec_next_of_encSide_eq hi ha henc⟩

end Sys2Proof.Machine
end

section
/-! PROOF. The decoder, the encoder and the byte rows of the table agree (30_encoding.md R76 to R78, R83). What each
byte selects is said once for each of the three byte formats. -/

namespace Sys2Proof

/-! ## What a byte selects -/

/-- The three rows of a payload byte (R76). -/
theorem decodePayloadByte_cases (b : Byte) :
    (b = END ∧ decodePayloadByte b = .encStuffEnd) ∨ (b = ESC ∧ decodePayloadByte b = .encStuffEsc) ∨
      (b ≠ END ∧ b ≠ ESC ∧ decodePayloadByte b = .encLit b) := by
  unfold decodePayloadByte
  split_ifs with hEND hESC
  · exact .inl ⟨hEND, rfl⟩
  · exact .inr (.inl ⟨hESC, rfl⟩)
  · exact .inr (.inr ⟨hEND, hESC, rfl⟩)

/-- The rows of a byte read in NORMAL, the two END rows told apart by `acc = []` (R77). -/
theorem decodeNormal_data_cases (accEmpty : Bool) (b : Byte) :
    (b = END ∧ decodeNormal accEmpty (.data b) = if accEmpty then .decNEndSkip else .decNEndDone) ∨
      (b = ESC ∧ decodeNormal accEmpty (.data b) = .decNEsc) ∨
      (b ≠ END ∧ b ≠ ESC ∧ decodeNormal accEmpty (.data b) = .decNLit b) := by
  unfold decodeNormal
  by_cases hEND : b = END
  · exact .inl ⟨hEND, if_pos hEND⟩
  · by_cases hESC : b = ESC
    · exact .inr (.inl ⟨hESC, by simp [hESC]⟩)
    · exact .inr (.inr ⟨hEND, hESC, by simp [hEND, hESC]⟩)

/-- The three rows of a byte read in ESCAPED (R78). -/
theorem decodeEscaped_data_cases (b : Byte) :
    (b = ESC_END ∧ decodeEscaped (.data b) = .decEEnd) ∨
      (b = ESC_ESC ∧ decodeEscaped (.data b) = .decEEsc) ∨
      (b ≠ ESC_END ∧ b ≠ ESC_ESC ∧ decodeEscaped (.data b) = .decELit b) := by
  unfold decodeEscaped
  by_cases hEND : b = ESC_END
  · exact .inl ⟨hEND, if_pos hEND⟩
  · by_cases hESC : b = ESC_ESC
    · exact .inr (.inl ⟨hESC, by simp [hESC]⟩)
    · exact .inr (.inr ⟨hEND, hESC, by simp [hEND, hESC]⟩)

/-! ## Decoding and encoding -/

/-- The row of a well-formed instruction decodes to it: a literal row's byte is none of those the row
excludes. -/
theorem decode_encode {i : Instr} (h : i.wf = true) : decode (encode i) = i := by
  cases i with
  | encLit b =>
    obtain ⟨hEND, hESC⟩ : b ≠ END ∧ b ≠ ESC := by simpa using h
    simp [encode, decode, decodePayloadByte, hEND, hESC]
  | decNLit b =>
    obtain ⟨hEND, hESC⟩ : b ≠ END ∧ b ≠ ESC := by simpa using h
    simp [encode, decode, decodeNormal, hEND, hESC]
  | decELit b =>
    obtain ⟨hEND, hESC⟩ : b ≠ ESC_END ∧ b ≠ ESC_ESC := by simpa using h
    simp [encode, decode, decodeEscaped, hEND, hESC]
  | _ => rfl

theorem encode_decodePayloadByte (b : Byte) : encode (decodePayloadByte b) = .encByte b := by
  obtain ⟨rfl, hdec⟩ | ⟨rfl, hdec⟩ | ⟨-, -, hdec⟩ := decodePayloadByte_cases b
  · rw [hdec]; rfl
  · rw [hdec]; rfl
  · rw [hdec]; rfl

/-- Only the END rows look at `acc` (R77). -/
theorem encode_decodeNormal_data (accEmpty : Bool) (b : Byte) :
    encode (decodeNormal accEmpty (.data b)) = .decNormal (accEmpty && b == END) (.data b) := by
  obtain ⟨rfl, hdec⟩ | ⟨rfl, hdec⟩ | ⟨hEND, -, hdec⟩ := decodeNormal_data_cases accEmpty b
  · rw [hdec]
    cases accEmpty with
    | true => rfl
    | false => rfl
  · simp [hdec, encode]
  · simp [hdec, encode, hEND]

theorem encode_decodeEscaped_data (b : Byte) :
    encode (decodeEscaped (.data b)) = .decEscaped (.data b) := by
  obtain ⟨rfl, hdec⟩ | ⟨rfl, hdec⟩ | ⟨-, -, hdec⟩ := decodeEscaped_data_cases b
  · rw [hdec]; rfl
  · rw [hdec]; rfl
  · rw [hdec]; rfl

theorem encode_decode (x : Select) : encode (decode x) = x.canonical := by
  cases x with
  | encByte b => exact encode_decodePayloadByte b
  | encAnswer w =>
    cases w with
    | ok => rfl
    | fail e => rfl
  | decNormal accEmpty y =>
    cases y with
    | data b => exact encode_decodeNormal_data accEmpty b
    | nodata e => rfl
  | decEscaped y =>
    cases y with
    | data b => exact encode_decodeEscaped_data b
    | nodata e => rfl
  | _ => rfl

/-- A literal row is selected by no byte that the row excludes. -/
theorem wf_decodePayloadByte (b : Byte) : (decodePayloadByte b).wf = true := by
  obtain ⟨-, hdec⟩ | ⟨-, hdec⟩ | ⟨hEND, hESC, hdec⟩ := decodePayloadByte_cases b
  · rw [hdec]
  · rw [hdec]
  · simp [hdec, hEND, hESC]

theorem wf_decodeNormal (accEmpty : Bool) (y : ReadResp) : (decodeNormal accEmpty y).wf = true := by
  cases y with
  | nodata e => rfl
  | data b =>
    obtain ⟨-, hdec⟩ | ⟨-, hdec⟩ | ⟨hEND, hESC, hdec⟩ := decodeNormal_data_cases accEmpty b
    · rw [hdec]
      cases accEmpty with
      | true => rfl
      | false => rfl
    · rw [hdec]
    · simp [hdec, hEND, hESC]

theorem wf_decodeEscaped (y : ReadResp) : (decodeEscaped y).wf = true := by
  cases y with
  | nodata e => rfl
  | data b =>
    obtain ⟨-, hdec⟩ | ⟨-, hdec⟩ | ⟨hEND, hESC, hdec⟩ := decodeEscaped_data_cases b
    · rw [hdec]
    · rw [hdec]
    · simp [hdec, hEND, hESC]

theorem wf_decode {x : Select} (h : x.wf = true) : (decode x).wf = true := by
  cases x with
  | encByte b => exact wf_decodePayloadByte b
  | encAnswer w =>
    cases w with
    | ok => rfl
    | fail e => rfl
  | decNormal accEmpty y => exact wf_decodeNormal accEmpty y
  | decEscaped y => exact wf_decodeEscaped y
  | _ => exact h

/-- Settles O1: both directions and legality, one lemma for each. -/
theorem decodeEncodeAgree : Obligations.DecodeEncodeAgree := by
  unfold Obligations.DecodeEncodeAgree
  exact ⟨fun _ => decode_encode, encode_decode, fun _ => wf_decode⟩

/-! ## The byte rows of the table -/

/-- A row with mask 0xFF compares the whole byte. -/
theorem and_mask_whole (b : Byte) : b &&& 0xFF#8 = b := BitVec.and_allOnes

theorem byteRows_hits_encByte (accEmpty : Bool) (b : Byte) :
    (byteRows.filter (fun row => row.hits .encByte accEmpty b)).map (fun row => row.instr b)
      = [decodePayloadByte b] := by
  obtain ⟨rfl, hdec⟩ | ⟨rfl, hdec⟩ | ⟨hEND, hESC, hdec⟩ := decodePayloadByte_cases b
  · rw [hdec]; rfl
  · rw [hdec]; rfl
  · simp [hdec, byteRows, ByteRow.hits, and_mask_whole, hEND, hESC]

theorem byteRows_hits_decNormal (accEmpty : Bool) (b : Byte) :
    (byteRows.filter (fun row => row.hits .decNormal accEmpty b)).map (fun row => row.instr b)
      = [decodeNormal accEmpty (.data b)] := by
  obtain ⟨rfl, hdec⟩ | ⟨rfl, hdec⟩ | ⟨hEND, hESC, hdec⟩ := decodeNormal_data_cases accEmpty b
  · rw [hdec]
    cases accEmpty with
    | true => rfl
    | false => rfl
  · rw [hdec]; rfl
  · simp [hdec, byteRows, ByteRow.hits, and_mask_whole, hEND, hESC]

theorem byteRows_hits_decEscaped (accEmpty : Bool) (b : Byte) :
    (byteRows.filter (fun row => row.hits .decEscaped accEmpty b)).map (fun row => row.instr b)
      = [decodeEscaped (.data b)] := by
  obtain ⟨rfl, hdec⟩ | ⟨rfl, hdec⟩ | ⟨hEND, hESC, hdec⟩ := decodeEscaped_data_cases b
  · rw [hdec]; rfl
  · rw [hdec]; rfl
  · simp [hdec, byteRows, ByteRow.hits, and_mask_whole, hEND, hESC]

/-- Settles O2: in each format an exact row hits its own byte alone, and the literal row all the others. -/
theorem eachByteHitsOneRow : Obligations.EachByteHitsOneRow := by
  unfold Obligations.EachByteHitsOneRow
  exact fun b accEmpty => ⟨byteRows_hits_encByte accEmpty b, byteRows_hits_decNormal accEmpty b,
    byteRows_hits_decEscaped accEmpty b⟩

/-- Settles O3: ten bytes, each decoded. -/
theorem writtenWordsDecode : Obligations.WrittenWordsDecode := by
  unfold Obligations.WrittenWordsDecode
  decide

end Sys2Proof
end

section
/-! PROOF. The length and the structure of a frame (30_encoding.md R71, R72, R74, R75). -/

namespace Sys2Proof.Machine

variable (p q : Packet)

/-! ## Length -/

/-- Stuffing adds one byte for each reserved one (R72). -/
theorem length_stuffAll : (stuffAll p).length = p.length + p.count END + p.count ESC := by
  induction p with
  | nil => rfl
  | cons b p ih =>
    rw [stuffAll_cons, List.length_append, ih, List.length_cons]
    obtain ⟨rfl, hs⟩ | ⟨rfl, hs⟩ | ⟨hEND, hESC, hs⟩ := stuff_cases b
    · simp [hs]; omega
    · simp [hs]; omega
    · simp [hs, hEND, hESC]; omega

theorem count_END_add_count_ESC :
    p.count END + p.count ESC = p.countP (fun b => b = END ∨ b = ESC) := by
  induction p with
  | nil => rfl
  | cons b p ih =>
    simp only [List.count_cons, List.countP_cons, ← ih]
    obtain ⟨rfl, -⟩ | ⟨rfl, -⟩ | ⟨hEND, hESC, -⟩ := stuff_cases b
    · simp; omega
    · simp; omega
    · simp [hEND, hESC]

theorem length_frame : (frame p).length = 2 + p.length + p.count END + p.count ESC := by
  rw [frame_eq, List.length_cons, List.length_append, length_stuffAll, List.length_singleton]
  omega

/-- Settles O4: each reserved byte adds one, and no more bytes than there are can be reserved. -/
theorem frameLengthFormula : Obligations.FrameLengthFormula := by
  unfold Obligations.FrameLengthFormula
  refine ⟨fun p => ?_, rfl⟩
  have hlen := length_frame p
  have hcount := count_END_add_count_ESC p
  have hle : p.countP (fun b => b = END ∨ b = ESC) ≤ p.length := List.countP_le_length
  refine ⟨hlen, by omega, by omega, fun hall => ?_⟩
  have hall' : p.countP (fun b => b = END ∨ b = ESC) = p.length :=
    List.countP_eq_length.mpr fun b hb => decide_eq_true (hall b hb)
  omega

/-! ## Structure -/

theorem END_not_mem_stuffAll : END ∉ stuffAll p := by
  intro h
  obtain ⟨b, -, hb⟩ := List.mem_flatMap.mp h
  obtain ⟨-, hs⟩ | ⟨-, hs⟩ | ⟨hEND, -, hs⟩ := stuff_cases b
  · simp [hs] at hb
  · simp [hs] at hb
  · simp [hs, hEND.symm] at hb

variable {p q}

/-- An ESC among stuffed bytes begins an escape pair (R72). -/
theorem getElem?_succ_of_ESC {i : Nat} (h : (stuffAll p)[i]? = some ESC) :
    (stuffAll p)[i + 1]? = some ESC_END ∨ (stuffAll p)[i + 1]? = some ESC_ESC := by
  induction p generalizing i with
  | nil => simp [stuffAll_nil] at h
  | cons b p ih =>
    rw [stuffAll_cons] at h ⊢
    obtain ⟨-, hs⟩ | ⟨-, hs⟩ | ⟨-, hESC, hs⟩ := stuff_cases b
    · rw [hs] at h ⊢
      match i with
      | 0 => exact .inl rfl
      | 1 => simp at h
      | i + 2 => exact ih h
    · rw [hs] at h ⊢
      match i with
      | 0 => exact .inr rfl
      | 1 => simp at h
      | i + 2 => exact ih h
    · rw [hs] at h ⊢
      match i with
      | 0 => exact absurd (by simpa using h) hESC
      | i + 1 => exact ih h

/-- No two packets have the same stuffed bytes: each decodes to its own (R73, R75). -/
theorem stuffAll_injective (h : stuffAll p = stuffAll q) : p = q := by
  have hdec : ∀ u : Packet, (decodeStream [] .normal ((stuffAll u).map .data ++ [])).2.1 = u :=
    fun u => by rw [decodeStream_stuffAll]; rfl
  rw [← hdec p, h, hdec q]

theorem getElem?_frame_succ (i : Nat) : (frame p)[i + 1]? = (stuffAll p ++ [END])[i]? := rfl

theorem length_frame_eq_stuffAll : (frame p).length = (stuffAll p).length + 2 := by
  simp [frame_eq]

/-- A byte of a frame is one of the two ENDs or a stuffed byte (R71). -/
theorem getElem?_frame_cases {i : Nat} {b : Byte} (h : (frame p)[i]? = some b) :
    (b = END ∧ (i = 0 ∨ i = (frame p).length - 1)) ∨ ∃ j, i = j + 1 ∧ (stuffAll p)[j]? = some b := by
  cases i with
  | zero => exact .inl ⟨(Option.some.inj h).symm, .inl rfl⟩
  | succ j =>
    rw [getElem?_frame_succ] at h
    obtain hj | hj := Nat.lt_or_ge j (stuffAll p).length
    · rw [List.getElem?_append_left hj] at h
      exact .inr ⟨j, rfl, h⟩
    · rw [List.getElem?_append_right hj, List.getElem?_singleton, Option.ite_none_right_eq_some] at h
      obtain ⟨hlast, hb⟩ := h
      refine .inl ⟨(Option.some.inj hb).symm, .inr ?_⟩
      rw [length_frame_eq_stuffAll]
      omega

theorem eq_ends_of_getElem?_END {i : Nat} (h : (frame p)[i]? = some END) :
    i = 0 ∨ i = (frame p).length - 1 := by
  obtain ⟨-, hi⟩ | ⟨j, -, hj⟩ := getElem?_frame_cases h
  · exact hi
  · exact absurd (List.mem_of_getElem? hj) (END_not_mem_stuffAll p)

theorem escapePair_of_getElem?_ESC {i : Nat} (h : (frame p)[i]? = some ESC) :
    0 < i ∧ i < (frame p).length - 2 ∧
      ((frame p)[i + 1]? = some ESC_END ∨ (frame p)[i + 1]? = some ESC_ESC) := by
  obtain ⟨hEND, -⟩ | ⟨j, rfl, hj⟩ := getElem?_frame_cases h
  · simp at hEND
  · have hnext := getElem?_succ_of_ESC hj
    have hlt : j + 1 < (stuffAll p).length := by
      obtain hx | hx := hnext
      · exact (List.getElem?_eq_some_iff.mp hx).1
      · exact (List.getElem?_eq_some_iff.mp hx).1
    refine ⟨j.succ_pos, by rw [length_frame_eq_stuffAll]; omega, ?_⟩
    rwa [getElem?_frame_succ, List.getElem?_append_left hlt]

/-- Settles O5: no stuffed byte is END, and a stuffed ESC has its second byte after it. -/
theorem frameStructure : Obligations.FrameStructure := by
  unfold Obligations.FrameStructure
  refine ⟨fun p => ⟨rfl, ?_, fun i => eq_ends_of_getElem?_END, fun i => escapePair_of_getElem?_ESC⟩,
    fun p q => stuffAll_injective, fun p q b hb => ?_⟩
  · rw [length_frame_eq_stuffAll, frame_eq]
    simp
  · have hs : stuff b = [b] := by
      obtain rfl | rfl := hb
      · rfl
      · rfl
    simp [frame, stuffAll_append, stuffAll_cons, hs]

end Sys2Proof.Machine
end

section
/-! PROOF. What a control state selects, and that the steps of an agent that a state enables are exactly the one it
selects (10_state.md R27, 30_encoding.md R76 to R78, R83, 60_exceptions.md R176). -/

namespace Sys2Proof.Machine

section

variable {s t : State} {i : Instr} {x : Select}

/-! ## Selecting -/

/-- An ENC that is at a payload byte is not at the end of its packet (R83). -/
theorem Enc.atEnd_eq_false {e : Enc} {b : Byte} (h : e.payloadByte = some b) : e.atEnd = false := by
  obtain ⟨r, p, hcur, hget⟩ := Enc.payloadByte_eq_some_iff.mp h
  obtain ⟨hlt, -⟩ := List.getElem?_eq_some_iff.mp hget
  simp [Enc.atEnd, hcur, hlt.ne]

/-- The control states of ENC that select a step, and the row each selects (R83). -/
theorem selectEnc_eq_some_iff :
    s.selectEnc = some x ↔
      (s.enc.phase = .opening ∧ x = .encOpened) ∨
      (s.enc.phase = .stuff ∧ ∃ b, s.enc.payloadByte = some b ∧ x = .encByte b) ∨
      (s.enc.phase = .stuff ∧ s.enc.atEnd = true ∧ x = .encAtEnd) ∨
      (s.enc.phase = .close ∧ x = .encClosed) ∨
      (s.enc.phase = .wait ∧ ∃ c w, s.enc.cur = some c ∧ s.outAns.head? = some w ∧
        x = .encAnswer w) := by
  cases hph : s.enc.phase with
  | stuff =>
    cases hb : s.enc.payloadByte with
    | some b => simp [State.selectEnc, hph, hb, Enc.atEnd_eq_false hb, @eq_comm _ _ x]
    | none => simp [State.selectEnc, hph, hb, @eq_comm _ _ x]
  | wait =>
    cases hc : s.enc.cur with
    | none => simp [State.selectEnc, hph, hc]
    | some c => cases ha : s.outAns <;> simp [State.selectEnc, hph, hc, ha, @eq_comm _ _ x]
  | _ => simp [State.selectEnc, hph, @eq_comm _ _ x]

/-- The control states of DEC that select a step, and the row each selects (R83). -/
theorem selectDec_eq_some_iff :
    s.selectDec = some x ↔
      s.dec.phase ≠ .idle ∧ (∃ r, s.dec.cur = some r) ∧
      ((s.dec.rd = false ∧ x = .decUnread) ∨
        (∃ y, s.readAnswered .normal y ∧ x = .decNormal s.dec.acc.isEmpty y) ∨
        (∃ y, s.readAnswered .escaped y ∧ x = .decEscaped y)) := by
  cases hc : s.dec.cur with
  | none => cases hph : s.dec.phase <;> simp [State.selectDec, hph, hc]
  | some r =>
    cases hph : s.dec.phase <;> cases hrd : s.dec.rd <;>
      simp [State.selectDec, State.readAnswered, hph, hc, hrd, @eq_comm _ _ x]

/-! ## The selected step is the enabled one -/

/-- What ENC's control state selects is one of its steps, and runs. -/
theorem exec_of_selectEnc (h : s.selectEnc = some x) :
    (decode x).isEncStep = true ∧ ∃ t, exec (decode x) s = .next t := by
  obtain ⟨hph, rfl⟩ | ⟨hph, b, hb, rfl⟩ | ⟨hph, hend, rfl⟩ | ⟨hph, rfl⟩ |
    ⟨hph, ⟨r, p⟩, w, hcur, hans, rfl⟩ := selectEnc_eq_some_iff.mp h
  · exact ⟨rfl, _, exec_encOpen_next_iff.mpr ⟨hph, rfl⟩⟩
  · rw [decode]
    obtain ⟨rfl, hdec⟩ | ⟨rfl, hdec⟩ | ⟨hEND, hESC, hdec⟩ := decodePayloadByte_cases b
    · exact hdec ▸ ⟨rfl, _, exec_encStuffEnd_next_iff.mpr ⟨hph, hb, rfl⟩⟩
    · exact hdec ▸ ⟨rfl, _, exec_encStuffEsc_next_iff.mpr ⟨hph, hb, rfl⟩⟩
    · exact hdec ▸ ⟨rfl, _, exec_encLit_next_iff.mpr ⟨hEND, hESC, hph, hb, rfl⟩⟩
  · exact ⟨rfl, _, exec_encClose_next_iff.mpr ⟨hph, hend, rfl⟩⟩
  · exact ⟨rfl, _, exec_encWrite_next_iff.mpr ⟨hph, rfl⟩⟩
  · cases w with
    | ok => exact ⟨rfl, _, exec_encDoneOk_next_iff.mpr ⟨r, p, hcur, hph, hans, rfl⟩⟩
    | fail e => exact ⟨rfl, _, exec_encDoneFail_next_iff.mpr ⟨r, p, hcur, hph, hans, rfl⟩⟩

/-- A step of ENC that runs is the one its control state selects. -/
theorem selectEnc_of_exec (hi : i.isEncStep = true) (h : exec i s = .next t) :
    s.selectEnc.map decode = some i := by
  rw [Option.map_eq_some_iff]
  simp only [selectEnc_eq_some_iff]
  cases i with
  | encOpen =>
    obtain ⟨hph, -⟩ := exec_encOpen_next_iff.mp h
    exact ⟨_, .inl ⟨hph, rfl⟩, rfl⟩
  | encStuffEnd =>
    obtain ⟨hph, hb, -⟩ := exec_encStuffEnd_next_iff.mp h
    exact ⟨_, .inr (.inl ⟨hph, END, hb, rfl⟩), rfl⟩
  | encStuffEsc =>
    obtain ⟨hph, hb, -⟩ := exec_encStuffEsc_next_iff.mp h
    exact ⟨_, .inr (.inl ⟨hph, ESC, hb, rfl⟩), rfl⟩
  | encLit b =>
    obtain ⟨hEND, hESC, hph, hb, -⟩ := exec_encLit_next_iff.mp h
    exact ⟨_, .inr (.inl ⟨hph, b, hb, rfl⟩), by simp [decode, decodePayloadByte, hEND, hESC]⟩
  | encClose =>
    obtain ⟨hph, hend, -⟩ := exec_encClose_next_iff.mp h
    exact ⟨_, .inr (.inr (.inl ⟨hph, hend, rfl⟩)), rfl⟩
  | encWrite =>
    obtain ⟨hph, -⟩ := exec_encWrite_next_iff.mp h
    exact ⟨_, .inr (.inr (.inr (.inl ⟨hph, rfl⟩))), rfl⟩
  | encDoneOk =>
    obtain ⟨r, p, hcur, hph, hans, -⟩ := exec_encDoneOk_next_iff.mp h
    exact ⟨_, .inr (.inr (.inr (.inr ⟨hph, _, _, hcur, hans, rfl⟩))), rfl⟩
  | encDoneFail e =>
    obtain ⟨r, p, hcur, hph, hans, -⟩ := exec_encDoneFail_next_iff.mp h
    exact ⟨_, .inr (.inr (.inr (.inr ⟨hph, _, _, hcur, hans, rfl⟩))), rfl⟩
  | _ => simp [Instr.isEncStep] at hi

/-- What DEC's control state selects is one of its steps, and runs. -/
theorem exec_of_selectDec (h : s.selectDec = some x) :
    (decode x).isDecStep = true ∧ ∃ t, exec (decode x) s = .next t := by
  obtain ⟨hbusy, ⟨r, hcur⟩, hcase⟩ := selectDec_eq_some_iff.mp h
  obtain ⟨hrd, rfl⟩ | ⟨y, hans, rfl⟩ | ⟨y, hans, rfl⟩ := hcase
  · exact ⟨rfl, _, exec_decRead_next_iff.mpr ⟨hbusy, hrd, rfl⟩⟩
  · cases y with
    | nodata e => exact ⟨rfl, _, exec_decNFail_next_iff.mpr ⟨hans, r, hcur, rfl⟩⟩
    | data b =>
      rw [decode]
      obtain ⟨rfl, hdec⟩ | ⟨rfl, hdec⟩ | ⟨hEND, hESC, hdec⟩ := decodeNormal_data_cases s.dec.acc.isEmpty b
      · rw [hdec]
        split_ifs with hacc
        · exact ⟨rfl, _, exec_decNEndSkip_next_iff.mpr ⟨hans, List.isEmpty_iff.mp hacc, rfl⟩⟩
        · exact ⟨rfl, _, exec_decNEndDone_next_iff.mpr ⟨hans, mt List.isEmpty_iff.mpr hacc, r, hcur, rfl⟩⟩
      · exact hdec ▸ ⟨rfl, _, exec_decNEsc_next_iff.mpr ⟨hans, rfl⟩⟩
      · exact hdec ▸ ⟨rfl, _, exec_decNLit_next_iff.mpr ⟨hans, hEND, hESC, rfl⟩⟩
  · cases y with
    | nodata e => exact ⟨rfl, _, exec_decEFail_next_iff.mpr ⟨hans, r, hcur, rfl⟩⟩
    | data b =>
      rw [decode]
      obtain ⟨rfl, hdec⟩ | ⟨rfl, hdec⟩ | ⟨hEND, hESC, hdec⟩ := decodeEscaped_data_cases b
      · exact hdec ▸ ⟨rfl, _, exec_decEEnd_next_iff.mpr ⟨hans, rfl⟩⟩
      · exact hdec ▸ ⟨rfl, _, exec_decEEsc_next_iff.mpr ⟨hans, rfl⟩⟩
      · exact hdec ▸ ⟨rfl, _, exec_decELit_next_iff.mpr ⟨hans, hEND, hESC, rfl⟩⟩

/-- A step of DEC that runs while DEC serves a requester is the one its control state selects. -/
theorem selectDec_of_exec {r : ReqId} (hcur : s.dec.cur = some r) (hi : i.isDecStep = true)
    (h : exec i s = .next t) : s.selectDec.map decode = some i := by
  have normal {y : ReadResp} (hans : s.readAnswered .normal y)
      (hdec : decodeNormal s.dec.acc.isEmpty y = i) : s.selectDec.map decode = some i :=
    Option.map_eq_some_iff.mpr ⟨_, selectDec_eq_some_iff.mpr
      ⟨readAnswered_ne_idle hans nofun, ⟨r, hcur⟩, .inr (.inl ⟨y, hans, rfl⟩)⟩, hdec⟩
  have escaped {y : ReadResp} (hans : s.readAnswered .escaped y) (hdec : decodeEscaped y = i) :
      s.selectDec.map decode = some i :=
    Option.map_eq_some_iff.mpr ⟨_, selectDec_eq_some_iff.mpr
      ⟨readAnswered_ne_idle hans nofun, ⟨r, hcur⟩, .inr (.inr ⟨y, hans, rfl⟩)⟩, hdec⟩
  cases i with
  | decRead =>
    obtain ⟨hbusy, hrd, -⟩ := exec_decRead_next_iff.mp h
    exact Option.map_eq_some_iff.mpr
      ⟨_, selectDec_eq_some_iff.mpr ⟨hbusy, ⟨r, hcur⟩, .inl ⟨hrd, rfl⟩⟩, rfl⟩
  | decNFail e => exact normal (exec_decNFail_next_iff.mp h).1 rfl
  | decNEndSkip =>
    obtain ⟨hans, hacc, -⟩ := exec_decNEndSkip_next_iff.mp h
    exact normal hans (by simp [decodeNormal, hacc])
  | decNEndDone =>
    obtain ⟨hans, hacc, -⟩ := exec_decNEndDone_next_iff.mp h
    exact normal hans (by simp [decodeNormal, hacc])
  | decNEsc => exact normal (exec_decNEsc_next_iff.mp h).1 rfl
  | decNLit b =>
    obtain ⟨hans, hEND, hESC, -⟩ := exec_decNLit_next_iff.mp h
    exact normal hans (by simp [decodeNormal, hEND, hESC])
  | decEFail e => exact escaped (exec_decEFail_next_iff.mp h).1 rfl
  | decEEnd => exact escaped (exec_decEEnd_next_iff.mp h).1 rfl
  | decEEsc => exact escaped (exec_decEEsc_next_iff.mp h).1 rfl
  | decELit b =>
    obtain ⟨hans, hEND, hESC, -⟩ := exec_decELit_next_iff.mp h
    exact escaped hans (by simp [decodeEscaped, hEND, hESC])
  | _ => simp [Instr.isDecStep] at hi

/-- A step of DEC runs only inside an operation: R27 lists none from IDLE. -/
theorem phase_ne_idle_of_exec_decStep (hi : i.isDecStep = true) (h : exec i s = .next t) :
    s.dec.phase ≠ .idle := by
  intro hph
  have htr := exec_decTransition (.inl hi) h
  rw [hph] at htr
  cases i <;> simp [decTransition, Instr.isDecStep] at htr hi

/-! ## A busy agent selects -/

/-- A legal, busy ENC whose write, if it waits for one, is answered selects a step. -/
theorem exists_selectEnc (hs : s.enc.Legal) (hbusy : s.enc.phase ≠ .idle)
    (hans : s.enc.phase = .wait → s.outAns ≠ []) : ∃ x, s.selectEnc = some x := by
  simp only [selectEnc_eq_some_iff]
  have hctl := hs.1
  cases hph : s.enc.phase with
  | idle => exact absurd hph hbusy
  | opening => exact ⟨_, .inl ⟨rfl, rfl⟩⟩
  | stuff =>
    obtain ⟨r, p, hcur, hle, -⟩ := (Enc.control_stuff_iff hph).mp hctl
    obtain hlt | heq := hle.lt_or_eq
    · exact ⟨_, .inr (.inl ⟨rfl, p[s.enc.i],
        Enc.payloadByte_eq_some_iff.mpr ⟨r, p, hcur, List.getElem?_eq_getElem hlt⟩, rfl⟩)⟩
    · exact ⟨_, .inr (.inr (.inl ⟨rfl, Enc.atEnd_iff.mpr ⟨r, p, hcur, heq⟩, rfl⟩))⟩
  | close => exact ⟨_, .inr (.inr (.inr (.inl ⟨rfl, rfl⟩)))⟩
  | write => simp [Enc.control, hph] at hctl
  | wait =>
    obtain ⟨r, p, hcur, -⟩ := (Enc.control_framed_iff (.inr hph)).mp hctl
    obtain ⟨w, rest, hw⟩ := List.exists_cons_of_ne_nil (hans hph)
    exact ⟨_, .inr (.inr (.inr (.inr ⟨rfl, _, w, hcur, by rw [hw]; rfl, rfl⟩)))⟩

/-- A busy DEC that serves a requester, its read, if one is outstanding, answered, selects a step. -/
theorem exists_selectDec {r : ReqId} (hcur : s.dec.cur = some r) (hbusy : s.dec.phase ≠ .idle)
    (hans : s.dec.rd = true → s.inAns ≠ []) : ∃ x, s.selectDec = some x := by
  simp only [selectDec_eq_some_iff]
  cases hrd : s.dec.rd with
  | false => exact ⟨_, hbusy, ⟨r, hcur⟩, .inl ⟨rfl, rfl⟩⟩
  | true =>
    obtain ⟨y, rest, hy⟩ := List.exists_cons_of_ne_nil (hans hrd)
    have hhead : s.inAns.head? = some y := by rw [hy]; rfl
    cases hph : s.dec.phase with
    | idle => exact absurd hph hbusy
    | normal => exact ⟨_, nofun, ⟨r, hcur⟩, .inr (.inl ⟨y, ⟨hph, hrd, hhead⟩, rfl⟩)⟩
    | escaped => exact ⟨_, nofun, ⟨r, hcur⟩, .inr (.inr ⟨y, ⟨hph, hrd, hhead⟩, rfl⟩)⟩

end

/-- Settles O43: a busy agent selects a step, which runs, and any step that runs is the one selected; an idle
one selects nothing and has no step in R27. -/
theorem exactlyOneStepEnabled : Obligations.ExactlyOneStepEnabled := by
  unfold Obligations.ExactlyOneStepEnabled
  refine fun s => ⟨fun hs hbusy hans => ?_, fun hs hbusy hans => ?_, fun hph i t hi h => ?_,
    fun hph i t hi h => ?_⟩
  · obtain ⟨x, hx⟩ := exists_selectEnc hs hbusy hans
    refine ⟨decode x, exec_of_selectEnc hx, fun i ⟨hi, t, ht⟩ => ?_⟩
    simpa [hx, eq_comm] using selectEnc_of_exec hi ht
  · obtain ⟨r, hcur⟩ := (Dec.control_busy_iff hbusy).mp hs.1
    obtain ⟨x, hx⟩ := exists_selectDec hcur hbusy hans
    refine ⟨decode x, exec_of_selectDec hx, fun i ⟨hi, t, ht⟩ => ?_⟩
    simpa [hx, eq_comm] using selectDec_of_exec hcur hi ht
  · have hnone : s.selectEnc = none := by simp [State.selectEnc, hph]
    simpa [hnone] using selectEnc_of_exec hi h
  · exact phase_ne_idle_of_exec_decStep hi h hph

end Sys2Proof.Machine
end

section
/-! PROOF. One step of the machine: what the scheduled move selects runs (30_encoding.md R83, 60_exceptions.md R185,
R187), a selected step always answers (30_encoding.md R79, 60_exceptions.md R174), and a placed table word is selected
next. -/

namespace Sys2Proof.Machine

section

variable {s : State} {m : Move} {ms : List Move} {x : Select}

/-! ## The scheduled move -/

theorem step_of_sched_nil (h : s.sched = []) : step s = .next s := by
  simp [step, h]

theorem step_of_sched_cons (h : s.sched = m :: ms) : step s = runMove m (s.setSched ms) := by
  simp [step, h]

/-- What a move selects does not depend on the moves to come. -/
@[simp] theorem select_setSched (s : State) (ms : List Move) : (s.setSched ms).select = s.select := by
  funext m
  cases m <;> rfl

/-- A move that selects something runs what that decodes to. -/
theorem runMove_of_select (h : s.select m = some x) : runMove m s = exec (decode x) s := by
  cases m with
  | issueEncode r p => cases h
  | issueRead r => cases h
  | _ => simp only [runMove, h, runMove.runSelected]

/-- An agent whose move selects nothing waits (R187). -/
theorem runMove_of_select_none (hm : m = .enc ∨ m = .dec ∨ ∃ r, m = .encAccept r ∨ m = .decAccept r)
    (h : s.select m = none) : runMove m s = .next s := by
  obtain rfl | rfl | ⟨r, rfl | rfl⟩ := hm <;> simp only [runMove, h, runMove.runSelected]

theorem step_of_select (h : s.sched = m :: ms) (hx : s.select m = some x) :
    step s = exec (decode x) (s.setSched ms) := by
  rw [step_of_sched_cons h, runMove_of_select (by rwa [select_setSched])]

end

/-- Settles O33: the step is the scheduled move's, by the kind of the move. -/
theorem stepRunsTheSelectedInstruction : Obligations.StepRunsTheSelectedInstruction := by
  unfold Obligations.StepRunsTheSelectedInstruction
  refine fun s => ⟨step_of_sched_nil, fun m ms h => ⟨fun x hx => step_of_select h hx, ?_, ?_, ?_⟩⟩
  · rintro r p rfl
    exact step_of_sched_cons h
  · rintro r rfl
    exact step_of_sched_cons h
  · intro hm hnone
    rw [step_of_sched_cons h, runMove_of_select_none hm (by rwa [select_setSched])]
    rfl

/-! ## The rows -/

section

variable {s : State} {r : ReqId} {y : ReadResp} {rest : List ReadResp}

theorem selectEnc_eq_none (h : s.enc.phase = .idle ∨ s.enc.phase = .wait ∧ s.outAns = []) :
    s.selectEnc = none := by
  obtain hph | ⟨hph, hans⟩ := h
  · simp [State.selectEnc, hph]
  · simp [State.selectEnc, hph, hans]

theorem selectDec_eq_none (h : s.dec.phase = .idle ∨ s.dec.rd = true ∧ s.inAns = []) :
    s.selectDec = none := by
  rw [Option.eq_none_iff_forall_ne_some]
  intro x hx
  obtain ⟨hbusy, -, hcase⟩ := selectDec_eq_some_iff.mp hx
  obtain hph | ⟨hrd, hans⟩ := h
  · exact hbusy hph
  · simp [State.readAnswered, hrd, hans] at hcase

theorem selectDec_unread (hph : s.dec.phase = .normal ∨ s.dec.phase = .escaped) (hcur : s.dec.cur = some r)
    (hrd : s.dec.rd = false) : s.selectDec = some .decUnread := by
  have hbusy : s.dec.phase ≠ .idle := by
    obtain hph | hph := hph <;> simp [hph]
  exact selectDec_eq_some_iff.mpr ⟨hbusy, ⟨r, hcur⟩, .inl ⟨hrd, rfl⟩⟩

theorem selectDec_normal (hcur : s.dec.cur = some r) (h : s.readAnswered .normal y) :
    s.selectDec = some (.decNormal (decide (s.dec.acc = [])) y) :=
  selectDec_eq_some_iff.mpr ⟨readAnswered_ne_idle h nofun, ⟨r, hcur⟩,
    .inr (.inl ⟨y, h, by cases s.dec.acc <;> rfl⟩)⟩

theorem selectDec_escaped (hcur : s.dec.cur = some r) (h : s.readAnswered .escaped y) :
    s.selectDec = some (.decEscaped y) :=
  selectDec_eq_some_iff.mpr ⟨readAnswered_ne_idle h nofun, ⟨r, hcur⟩, .inr (.inr ⟨y, h, rfl⟩)⟩

end

/-- Settles O34: each row by the control state that selects it. -/
theorem controlStateSelectsTheRow : Obligations.ControlStateSelectsTheRow := by
  unfold Obligations.ControlStateSelectsTheRow
  intro s
  refine ⟨fun _ _ => rfl, fun _ => rfl, fun r p hph hp => ?_, fun hph => ?_, fun r p b hph hcur hb => ?_,
    fun r p hph hcur hend => ?_, fun hph => ?_, fun c w rest hph hcur hans => ?_, fun r hph hp => ?_,
    fun r hph hcur hrd => selectDec_unread hph hcur hrd, fun r x rest hph hcur hrd hans => ?_,
    fun r x rest hph hcur hrd hans => ?_, selectEnc_eq_none, selectDec_eq_none⟩
  · simp [State.select, hph, hp]
  · exact selectEnc_eq_some_iff.mpr (.inl ⟨hph, rfl⟩)
  · have hbyte := Enc.payloadByte_eq_some_iff.mpr ⟨r, p, hcur, hb⟩
    exact selectEnc_eq_some_iff.mpr (.inr (.inl ⟨hph, b, hbyte, rfl⟩))
  · have hlast := Enc.atEnd_iff.mpr ⟨r, p, hcur, hend⟩
    exact selectEnc_eq_some_iff.mpr (.inr (.inr (.inl ⟨hph, hlast, rfl⟩)))
  · exact selectEnc_eq_some_iff.mpr (.inr (.inr (.inr (.inl ⟨hph, rfl⟩))))
  · exact selectEnc_eq_some_iff.mpr (.inr (.inr (.inr (.inr ⟨hph, c, w, hcur, by simp [hans], rfl⟩))))
  · simp [State.select, hph, hp]
  · exact selectDec_normal hcur ⟨hph, hrd, by simp [hans]⟩
  · exact selectDec_escaped hcur ⟨hph, hrd, by simp [hans]⟩

/-! ## A selected step answers -/

section

variable {s : State} {m : Move} {x : Select}

/-- A whole ENCODE whose request is allowed answers. -/
theorem exec_encEncode_of_allows {r : ReqId} {p : Packet} (h : s.allows (.encode r p) = true) :
    ∃ t, exec (.encEncode r p) s = .next t := by
  obtain ⟨hr, ho⟩ : Config.isReqEnc r = true ∧ s.enc.outstanding r = false := by
    simpa [State.allows] using h
  simp only [exec_encEncode_next_iff]
  by_cases hph : s.enc.phase = .idle
  · cases hans : s.outAns with
    | nil => exact ⟨_, hr, ho, .inr (.inl ⟨hph, rfl, rfl⟩)⟩
    | cons w rest => exact ⟨_, hr, ho, .inr (.inr ⟨hph, w, rest, rfl, rfl⟩)⟩
  · exact ⟨_, hr, ho, .inl ⟨hph, rfl⟩⟩

/-- A whole READ_PACKET whose request is allowed answers: with no bound `rp` does not overflow. -/
theorem exec_decReadPacket_of_allows {r : ReqId} (h : s.allows (.readPacket r) = true) :
    ∃ t, exec (.decReadPacket r) s = .next t := by
  obtain ⟨hr, ho⟩ : Config.isReqDec r = true ∧ s.dec.outstanding r = false := by
    simpa [State.allows] using h
  simp only [exec_decReadPacket_next_iff]
  by_cases hph : s.dec.phase = .idle
  · cases hrp : rp Config.maxPacket [] .normal s.inAns 0 with
    | done v k => exact ⟨_, hr, ho, .inr (.inl ⟨hph, v, k, rfl, rfl⟩)⟩
    | blocked acc ph k => exact ⟨_, hr, ho, .inr (.inr ⟨hph, acc, ph, k, rfl, rfl⟩)⟩
    | overflow => exact absurd hrp (rp_maxPacket_ne_overflow _ _ _ _)
  · exact ⟨_, hr, ho, .inl ⟨hph, rfl⟩⟩

/-- What an allowed move selects runs. -/
theorem exec_of_select (ha : s.allows m = true) (h : s.select m = some x) :
    ∃ t, exec (decode x) s = .next t := by
  cases m with
  | issueEncode r p => cases h
  | issueRead r => cases h
  | encode r p =>
    cases h
    exact exec_encEncode_of_allows ha
  | readPacket r =>
    cases h
    exact exec_decReadPacket_of_allows ha
  | encAccept r =>
    obtain ⟨⟨hph, hp⟩, hx⟩ := Option.ite_none_right_eq_some.mp h
    cases hx
    obtain ⟨p, hp⟩ := Option.isSome_iff_exists.mp hp
    exact ⟨_, exec_encAccept_next_iff.mpr ⟨p, hp, hph, rfl⟩⟩
  | decAccept r =>
    obtain ⟨⟨hph, hp⟩, hx⟩ := Option.ite_none_right_eq_some.mp h
    cases hx
    exact ⟨_, exec_decAccept_next_iff.mpr ⟨hph, hp, rfl⟩⟩
  | enc => exact (exec_of_selectEnc h).2
  | dec => exact (exec_of_selectDec h).2

/-- An allowed move answers. -/
theorem runMove_of_allows (ha : s.allows m = true) : ∃ t, runMove m s = .next t := by
  cases hx : s.select m with
  | some x => exact runMove_of_select hx ▸ exec_of_select ha hx
  | none =>
    cases m with
    | issueEncode r p =>
      obtain ⟨hr, ho⟩ : Config.isReqEnc r = true ∧ s.enc.outstanding r = false := by
        simpa [State.allows] using ha
      exact ⟨_, issueEncode_next_iff.mpr ⟨hr, ho, rfl⟩⟩
    | issueRead r =>
      obtain ⟨hr, ho⟩ : Config.isReqDec r = true ∧ s.dec.outstanding r = false := by
        simpa [State.allows] using ha
      exact ⟨_, issueRead_next_iff.mpr ⟨hr, ho, rfl⟩⟩
    | encode r p => cases hx
    | readPacket r => cases hx
    | encAccept r => exact ⟨s, runMove_of_select_none (.inr (.inr ⟨r, .inl rfl⟩)) hx⟩
    | decAccept r => exact ⟨s, runMove_of_select_none (.inr (.inr ⟨r, .inr rfl⟩)) hx⟩
    | enc => exact ⟨s, runMove_of_select_none (.inl rfl) hx⟩
    | dec => exact ⟨s, runMove_of_select_none (.inr (.inl rfl)) hx⟩

/-! ## A forbidden request is refused -/

/-- The two names under which a request is refused (R7, I12; log entry 11). -/
def IsRequestRefusal (x : Result) : Prop := x = .refused .unknownRequester ∨ x = .refused .secondRequest

theorem issueEncode_of_not_allows {r : ReqId} {p : Packet} (h : s.allows (.issueEncode r p) = false) :
    IsRequestRefusal (issueEncode r p s) := by
  cases hr : Config.isReqEnc r with
  | false => exact .inl (issueEncode_of_not_isReqEnc hr)
  | true => exact .inr (issueEncode_of_outstanding hr (by simpa [State.allows, hr] using h))

theorem issueRead_of_not_allows {r : ReqId} (h : s.allows (.issueRead r) = false) :
    IsRequestRefusal (issueRead r s) := by
  cases hr : Config.isReqDec r with
  | false => exact .inl (issueRead_of_not_isReqDec hr)
  | true => exact .inr (issueRead_of_outstanding hr (by simpa [State.allows, hr] using h))

/-- A forbidden move is a request, alone or of a whole operation, and is refused as such. -/
theorem runMove_of_not_allows (h : s.allows m = false) : IsRequestRefusal (runMove m s) := by
  cases m with
  | issueEncode r p => exact issueEncode_of_not_allows h
  | issueRead r => exact issueRead_of_not_allows h
  | encode r p =>
    exact (issueEncode_of_not_allows h).imp exec_encEncode_of_issueEncode_refused
      exec_encEncode_of_issueEncode_refused
  | readPacket r =>
    exact (issueRead_of_not_allows h).imp exec_decReadPacket_of_issueRead_refused
      exec_decReadPacket_of_issueRead_refused
  | _ => cases h

end

/-- Settles O36: a forbidden move is refused as a request, and an allowed one answers. -/
theorem stepStopsOnlyOnForbiddenRequests : Obligations.StepStopsOnlyOnForbiddenRequests := by
  unfold Obligations.StepStopsOnlyOnForbiddenRequests
  refine fun s => ⟨fun m ms h ha => ?_, fun ha => ?_⟩
  · rw [step_of_sched_cons h]
    exact runMove_of_not_allows (s := s.setSched ms) ha
  · cases h : s.sched with
    | nil => exact ⟨s, step_of_sched_nil h⟩
    | cons m ms =>
      rw [step_of_sched_cons h]
      exact runMove_of_allows (s := s.setSched ms) (ha m ms h)

/-! ## A placed table word -/

section

variable {s : State} {m : Move} {ms : List Move} {x : Select}

/-- An agent scheduled next runs what its control state selects, one of its steps, and that answers. -/
theorem step_of_agent_select (h : s.sched = m :: ms) (hm : m = .enc ∨ m = .dec) (hx : s.select m = some x) :
    ∃ t, step s = exec (decode x) (s.setSched ms) ∧
      ((decode x).isEncStep = true ∨ (decode x).isDecStep = true) ∧
      exec (decode x) (s.setSched ms) = .next t := by
  have hx' : (s.setSched ms).select m = some x := by rwa [select_setSched]
  obtain rfl | rfl := hm
  · obtain ⟨hi, t, ht⟩ := exec_of_selectEnc hx'
    exact ⟨t, step_of_select h hx, .inl hi, ht⟩
  · obtain ⟨hi, t, ht⟩ := exec_of_selectDec hx'
    exact ⟨t, step_of_select h hx, .inr hi, ht⟩

/-- A placed byte is what the agent that reads it selects, and that agent is scheduled next (log entry 16). -/
theorem place_tableSelect (s : State) (b : Byte) :
    ∃ m, (s.place (tableSelect b)).sched = m :: s.sched ∧ (m = .enc ∨ m = .dec) ∧
      (s.place (tableSelect b)).select m = some (tableSelect b) := by
  unfold tableSelect
  split_ifs
  · exact ⟨.dec, rfl, .inr rfl, rfl⟩
  · exact ⟨.enc, rfl, .inl rfl, rfl⟩

end

/-- Settles O35: the placed word's selection is that of the agent scheduled next. -/
theorem placedWordRunsNext : Obligations.PlacedWordRunsNext := by
  unfold Obligations.PlacedWordRunsNext
  intro s w hw
  have hplace : s.withFetchWord 8 w = s.place (tableSelect (BitVec.ofNat 8 w)) := if_pos ⟨rfl, hw⟩
  obtain ⟨m, hsched, hm, hx⟩ := place_tableSelect s (BitVec.ofNat 8 w)
  obtain ⟨t, hstep, hi, ht⟩ := step_of_agent_select hsched hm hx
  rw [hplace]
  exact ⟨_, _, t, if_pos ⟨rfl, hw⟩, hstep, rfl, hi, ht⟩

end Sys2Proof.Machine
end

section
/-! PROOF. The shape of every DEC response (30_encoding.md R81, 42_decoder.md R143, 60_exceptions.md R171): it follows
the answer that ends its operation, and that answer decides the shape. -/

namespace Sys2Proof.Machine

/-! ## Legal shapes -/

/-- An answer `x` may end a READ_PACKET with the result `v`: complete, with at least one byte; or cut short,
with the error of `x` (R81). -/
def EndsWith (x : ReadResp) (v : DecResult) : Prop :=
  (v.isPrefix = false ∧ v.err = none ∧ 1 ≤ v.pkt.length) ∨ (v.isPrefix = true ∧ x = .nodata v.err)

/-- Every response in a stretch of DEC's history has one of the two shapes, an error in it being that of the
answer recorded just before it. -/
def RespondsLegally (evs : List DecEvent) : Prop :=
  ∀ before r v after, evs = before ++ [.rsp r v] ++ after →
    (v.isPrefix = false ∧ v.err = none ∧ 1 ≤ v.pkt.length) ∨
    (v.isPrefix = true ∧ ∃ before', before = before' ++ [.answer (.nodata v.err)])

section

variable {acc : Packet} {ph : DecPhase} {x : ReadResp} {xs : List ReadResp} {v : DecResult}
  {evs : List DecEvent} {r : ReqId}

theorem endsWith_prefixOf (acc : Packet) (e : Option ChanErr) : EndsWith (.nodata e) (prefixOf acc e) :=
  .inr ⟨rfl, rfl⟩

theorem endsWith_complete (h : acc ≠ []) (x : ReadResp) : EndsWith x (complete acc) :=
  .inl ⟨rfl, rfl, List.length_pos_iff.mpr h⟩

/-- The result that one answer decodes to is one it may end an operation with. -/
theorem endsWith_of_decodeStream (h : decodeStream acc ph [x] = ([v], [], .normal)) : EndsWith x v := by
  cases x with
  | nodata e =>
    obtain rfl : prefixOf acc e = v := by simpa [decodeStream] using h
    exact endsWith_prefixOf acc e
  | data b =>
    simp only [decodeStream] at h
    split_ifs at h with hph hEND hacc hESC
    · cases h
    · cases h
    · obtain rfl : complete acc = v := by simpa using h
      exact endsWith_complete hacc _
    · cases h
    · cases h

/-- `rp` responds on the last answer it takes, and that answer ends the operation (R149). -/
theorem endsWith_of_rp_done {bound : Option Nat} {k k' : Nat} (hph : ph ≠ .idle)
    (h : rp bound acc ph xs k = .done v k') :
    ∃ n ys x, k' = k + n ∧ xs.take n = ys ++ [x] ∧ EndsWith x v := by
  induction xs generalizing acc ph k with
  | nil => simp [rp] at h
  | cons x xs ih =>
    obtain hrp | ⟨v', hrp, hdec⟩ | ⟨acc', ph', hrp, hph', -⟩ := rp_cons_cases bound acc x xs k hph
    · simp [hrp] at h
    · obtain ⟨rfl, rfl⟩ : v' = v ∧ k + 1 = k' := by simpa [hrp] using h
      exact ⟨1, [], x, rfl, rfl, endsWith_of_decodeStream hdec⟩
    · obtain ⟨n, ys, y, rfl, hys, hv⟩ := ih hph' (hrp ▸ h)
      exact ⟨n + 1, x :: ys, y, by omega, by rw [List.take_succ_cons, hys, List.cons_append], hv⟩

/-! ## Histories -/

/-- Without a response there is nothing to show. -/
theorem RespondsLegally.of_decReplies_eq_nil (h : decReplies evs = []) : RespondsLegally evs := by
  rintro before r v after rfl
  simp [decReplies] at h

/-- One response, at the end of the stretch, after the answer that ends its operation. -/
theorem RespondsLegally.append_rsp (h : decReplies evs = []) (hv : EndsWith x v) (r : ReqId) :
    RespondsLegally (evs ++ [.answer x, .rsp r v]) := by
  intro before r' v' after heq
  obtain rfl | ⟨after, z, rfl⟩ := after.eq_nil_or_concat'
  · have heq' : (evs ++ [.answer x]) ++ [.rsp r v] = before ++ [.rsp r' v'] := by simpa using heq
    obtain ⟨rfl, hlast⟩ := List.append_inj' heq' rfl
    obtain ⟨-, rfl⟩ : r = r' ∧ v = v' := by simpa using hlast
    exact hv.imp_right fun ⟨hcut, hx⟩ => ⟨hcut, evs, hx ▸ rfl⟩
  · have heq' : (evs ++ [.answer x]) ++ [.rsp r v] = (before ++ [.rsp r' v'] ++ after) ++ [z] := by
      simpa using heq
    obtain ⟨hevs, -⟩ := List.append_inj' heq' rfl
    have hnil : decReplies (before ++ [.rsp r' v'] ++ after) = [] := by
      rw [← hevs]
      simp [h, decReplies]
    simp [decReplies] at hnil

end

section

variable {i : Instr} {s t : State}

/-- DEC's history in `t` is that in `s` and a stretch in which every response has a legal shape. -/
def State.AddsLegalResponses (s t : State) : Prop := ∃ evs, t.decLog = s.decLog ++ evs ∧ RespondsLegally evs

/-- A stretch without a response. -/
theorem State.AddsLegalResponses.silent {evs : List DecEvent} (hlog : t.decLog = s.decLog ++ evs)
    (h : decReplies evs = []) : s.AddsLegalResponses t :=
  ⟨evs, hlog, .of_decReplies_eq_nil h⟩

theorem State.AddsLegalResponses.refl (h : t.decLog = s.decLog) : s.AddsLegalResponses t :=
  .silent (h.trans (List.append_nil _).symm) rfl

/-- The end of a READ_PACKET, step by step. -/
theorem State.AddsLegalResponses.finish {v : DecResult} {x : ReadResp} {r : ReqId} (hv : EndsWith x v) :
    s.AddsLegalResponses ((takeAnswer x s.dec.toIdle s).logDec [.rsp r v]) :=
  ⟨[.answer x, .rsp r v], List.append_assoc _ _ _, .append_rsp (evs := []) rfl hv r⟩

/-- An instruction of DEC gives a response of a legal shape, or none. -/
theorem exec_addsLegalResponses (hi : i.isEnc = false) (h : exec i s = .next t) : s.AddsLegalResponses t := by
  cases i with
  | decReadPacket r =>
    obtain ⟨-, -, hcase⟩ := exec_decReadPacket_next_iff.mp h
    obtain ⟨-, rfl⟩ | ⟨-, v, k, hrp, rfl⟩ | ⟨-, acc, ph, k, -, rfl⟩ := hcase
    · exact .silent rfl rfl
    · obtain ⟨n, ys, x, rfl, hys, hv⟩ := endsWith_of_rp_done (by decide) hrp
      refine ⟨[.req r, .accept r] ++ readEvents ys ++ [.read] ++ [.answer x, .rsp r v], ?_,
        .append_rsp ?_ hv r⟩
      · simp [hys, readEvents]
      · simp [decReplies]
    · exact .silent rfl (by simp [decReplies])
  | decAccept r =>
    obtain ⟨-, -, rfl⟩ := exec_decAccept_next_iff.mp h
    exact .silent rfl rfl
  | decRead =>
    obtain ⟨-, -, rfl⟩ := exec_decRead_next_iff.mp h
    exact .silent rfl rfl
  | decNFail e =>
    obtain ⟨-, r, -, rfl⟩ := exec_decNFail_next_iff.mp h
    exact .finish (endsWith_prefixOf _ e)
  | decNEndSkip =>
    obtain ⟨-, -, rfl⟩ := exec_decNEndSkip_next_iff.mp h
    exact .silent rfl rfl
  | decNEndDone =>
    obtain ⟨-, hacc, r, -, rfl⟩ := exec_decNEndDone_next_iff.mp h
    exact .finish (endsWith_complete hacc _)
  | decNEsc =>
    obtain ⟨-, rfl⟩ := exec_decNEsc_next_iff.mp h
    exact .silent rfl rfl
  | decNLit b =>
    obtain ⟨-, -, -, rfl⟩ := exec_decNLit_next_iff.mp h
    exact .silent rfl rfl
  | decEFail e =>
    obtain ⟨-, r, -, rfl⟩ := exec_decEFail_next_iff.mp h
    exact .finish (endsWith_prefixOf _ e)
  | decEEnd =>
    obtain ⟨-, rfl⟩ := exec_decEEnd_next_iff.mp h
    exact .silent rfl rfl
  | decEEsc =>
    obtain ⟨-, rfl⟩ := exec_decEEsc_next_iff.mp h
    exact .silent rfl rfl
  | decELit b =>
    obtain ⟨-, -, -, rfl⟩ := exec_decELit_next_iff.mp h
    exact .silent rfl rfl
  | _ => contradiction

end

/-- Settles O49: a step waits, issues a request or runs one instruction, and of these only an instruction of
DEC responds for DEC. -/
theorem decResponsesHaveLegalShape : Obligations.DecResponsesHaveLegalShape := by
  unfold Obligations.DecResponsesHaveLegalShape
  intro s t h
  change s.AddsLegalResponses t
  obtain ⟨-, rfl⟩ | ⟨m, ms, -, hcase⟩ := step_next_cases h
  · exact .refl rfl
  · change (s.setSched ms).AddsLegalResponses t
    obtain rfl | ⟨r, p, -, hreq⟩ | ⟨r, -, hreq⟩ | ⟨x, -, hexec⟩ := hcase
    · exact .refl rfl
    · obtain ⟨-, -, rfl⟩ := issueEncode_next_iff.mp hreq
      exact .refl rfl
    · obtain ⟨-, -, rfl⟩ := issueRead_next_iff.mp hreq
      exact .silent rfl rfl
    · cases hi : (decode x).isEnc with
      | true => exact .refl ((congrArg State.decLog (eq_withEncSide_of_exec hi hexec)).trans rfl)
      | false => exact exec_addsLegalResponses hi hexec

end Sys2Proof.Machine
end

section
/-! PROOF. The steps of ENC one by one (41_encoder.md R101 to R109), and what any step does to a busy ENC: it queues a
request, goes on with the operation in service, or ends it (41_encoder.md R112). -/

namespace Sys2Proof.Machine

section

variable {s t : State} {i : Instr} {r : ReqId} {p : Packet} {w : WriteResp} {rest : List WriteResp}

/-! ## ACCEPT -/

theorem exec_encAccept_of_idle (hph : s.enc.phase = .idle) (hp : s.enc.pending r = some p) :
    exec (.encAccept r) s =
      .next ((s.setEnc { phase := .opening, cur := some (r, p), i := 0, fbuf := [],
                         pend := pendClear r s.enc.pend }).logEnc [.accept r p]) :=
  exec_encAccept_next_iff.mpr ⟨p, hp, hph, rfl⟩

/-- ACCEPT needs the lock free and a request pending (R83, R101). -/
theorem exec_encAccept_of_not_selected (h : s.enc.phase ≠ .idle ∨ s.enc.pending r = none) :
    exec (.encAccept r) s = .refused .notSelected := by
  simp only [exec, execEncAccept]
  split
  · rfl
  · rename_i q hq
    exact if_neg (h.resolve_right (by simp [hq]))

/-! ## The end of an operation -/

/-- ENC's elements and the next answer are gone, the rest stays (R108, R109). -/
theorem finished_eq (hans : s.outAns = w :: rest) (evs : List EncEvent) :
    ((s.setEnc s.enc.toIdle).dropOutAns 1).logEnc evs =
      { s with enc := { phase := .idle, cur := none, i := 0, fbuf := [], pend := s.enc.pend },
               outAns := rest, encLog := s.encLog ++ evs } := by
  simp [State.logEnc, State.dropOutAns, State.setEnc, Enc.toIdle, hans]

theorem finishEncode_eq (hph : s.enc.phase = .wait) (hcur : s.enc.cur = some (r, p))
    (hans : s.outAns = w :: rest) :
    finishEncode w s =
      .next { s with enc := { phase := .idle, cur := none, i := 0, fbuf := [], pend := s.enc.pend },
                     outAns := rest, encLog := s.encLog ++ [.answer w, .rsp r (statusOf w)] } :=
  finishEncode_next_iff.mpr ⟨r, p, hcur, hph, by simp [hans], (finished_eq hans _).symm⟩

/-! ## A busy ENC -/

/-- A step of ENC other than WRITE records nothing, or the answer and the response of DONE. -/
theorem encLog_of_exec_encStep (hi : i.isEncStep = true) (hne : i ≠ .encWrite)
    (h : exec i s = .next t) :
    t.encLog = s.encLog ∨ ∃ w r st, t.encLog = s.encLog ++ [.answer w, .rsp r st] := by
  cases i with
  | encOpen =>
    obtain ⟨-, rfl⟩ := exec_encOpen_next_iff.mp h
    exact .inl rfl
  | encStuffEnd =>
    obtain ⟨-, -, rfl⟩ := exec_encStuffEnd_next_iff.mp h
    exact .inl rfl
  | encStuffEsc =>
    obtain ⟨-, -, rfl⟩ := exec_encStuffEsc_next_iff.mp h
    exact .inl rfl
  | encLit b =>
    obtain ⟨-, -, -, -, rfl⟩ := exec_encLit_next_iff.mp h
    exact .inl rfl
  | encClose =>
    obtain ⟨-, -, rfl⟩ := exec_encClose_next_iff.mp h
    exact .inl rfl
  | encWrite => exact absurd rfl hne
  | encDoneOk =>
    obtain ⟨r, p, -, -, -, rfl⟩ := exec_encDoneOk_next_iff.mp h
    exact .inr ⟨_, _, _, rfl⟩
  | encDoneFail e =>
    obtain ⟨r, p, -, -, -, rfl⟩ := exec_encDoneFail_next_iff.mp h
    exact .inr ⟨_, _, _, rfl⟩
  | _ => simp [Instr.isEncStep] at hi

/-- ENC goes from `s` to `t` with at most its pending set changed. -/
def State.EncWaits (s t : State) : Prop :=
  t.enc = { s.enc with pend := t.enc.pend } ∧ t.outAns = s.outAns

/-- ENC goes on with the operation it serves, which was not yet waiting for its answer. -/
def State.EncGoesOn (s t : State) : Prop :=
  s.enc.phase ≠ .wait ∧ t.enc.phase ≠ .idle ∧ t.enc.cur = s.enc.cur

/-- ENC takes the next answer, responds with it to the requester it serves, and is idle. -/
def State.EncResponds (s t : State) : Prop :=
  ∃ r p w, s.enc.cur = some (r, p) ∧ s.outAns = w :: t.outAns ∧ t.enc = s.enc.toIdle ∧
    t.encLog = s.encLog ++ [.answer w, .rsp r (statusOf w)]

/-- The end of an ENCODE is a response. -/
theorem encResponds_of_finishEncode (h : finishEncode w s = .next t) : s.EncResponds t := by
  obtain ⟨r, p, hcur, -, hans, rfl⟩ := finishEncode_next_iff.mp h
  obtain ⟨rest, hrest⟩ := List.head?_eq_some_iff.mp hans
  exact ⟨r, p, w, hcur, by simp [hrest], rfl, rfl⟩

/-- What an instruction of ENC does to a busy ENC. -/
theorem exec_busyEnc_cases (hi : i.isEnc = true) (hbusy : s.enc.phase ≠ .idle)
    (h : exec i s = .next t) : s.EncWaits t ∨ s.EncGoesOn t ∨ s.EncResponds t := by
  cases i with
  | encEncode r p =>
    obtain ⟨-, -, hcase⟩ := exec_encEncode_next_iff.mp h
    obtain ⟨-, rfl⟩ | ⟨hph, -⟩ | ⟨hph, -⟩ := hcase
    · exact .inl ⟨rfl, rfl⟩
    · exact absurd hph hbusy
    · exact absurd hph hbusy
  | encAccept r =>
    obtain ⟨p, -, hph, -⟩ := exec_encAccept_next_iff.mp h
    exact absurd hph hbusy
  | encOpen =>
    obtain ⟨hph, rfl⟩ := exec_encOpen_next_iff.mp h
    exact .inr (.inl ⟨by simp [hph], nofun, rfl⟩)
  | encStuffEnd =>
    obtain ⟨hph, -, rfl⟩ := exec_encStuffEnd_next_iff.mp h
    exact .inr (.inl ⟨by simp [hph], hbusy, rfl⟩)
  | encStuffEsc =>
    obtain ⟨hph, -, rfl⟩ := exec_encStuffEsc_next_iff.mp h
    exact .inr (.inl ⟨by simp [hph], hbusy, rfl⟩)
  | encLit b =>
    obtain ⟨-, -, hph, -, rfl⟩ := exec_encLit_next_iff.mp h
    exact .inr (.inl ⟨by simp [hph], hbusy, rfl⟩)
  | encClose =>
    obtain ⟨hph, -, rfl⟩ := exec_encClose_next_iff.mp h
    exact .inr (.inl ⟨by simp [hph], nofun, rfl⟩)
  | encWrite =>
    obtain ⟨hph, rfl⟩ := exec_encWrite_next_iff.mp h
    exact .inr (.inl ⟨by simp [hph], nofun, rfl⟩)
  | encDoneOk => exact .inr (.inr (encResponds_of_finishEncode h))
  | encDoneFail e => exact .inr (.inr (encResponds_of_finishEncode h))
  | _ => contradiction

/-- What a step does to a busy ENC; where it is a request or a step of DEC, ENC at most has one more request
pending. -/
theorem step_busyEnc_cases (hbusy : s.enc.phase ≠ .idle) (h : step s = .next t) :
    s.EncWaits t ∨ s.EncGoesOn t ∨ s.EncResponds t := by
  obtain ⟨-, rfl⟩ | ⟨m, ms, -, hcase⟩ := step_next_cases h
  · exact .inl ⟨rfl, rfl⟩
  · obtain rfl | ⟨r, p, -, hreq⟩ | ⟨r, -, hreq⟩ | ⟨x, -, hexec⟩ := hcase
    · exact .inl ⟨rfl, rfl⟩
    · obtain ⟨-, -, rfl⟩ := issueEncode_next_iff.mp hreq
      exact .inl ⟨rfl, rfl⟩
    · obtain ⟨-, -, rfl⟩ := issueRead_next_iff.mp hreq
      exact .inl ⟨rfl, rfl⟩
    · cases hi : (decode x).isEnc with
      | true => exact exec_busyEnc_cases (s := s.setSched ms) hi hbusy hexec
      | false =>
        have hside := eq_withDecSide_of_exec hi hexec
        have henc : t.enc = s.enc := (congrArg State.enc hside).trans rfl
        exact .inl ⟨by rw [henc], (congrArg State.outAns hside).trans rfl⟩

/-- While its write is unanswered ENC goes on waiting (R107, R200). -/
theorem step_unansweredEnc (hph : s.enc.phase = .wait) (hans : s.outAns = [])
    (h : step s = .next t) : t.enc = { s.enc with pend := t.enc.pend } ∧ t.outAns = [] := by
  obtain ⟨henc, hout⟩ | ⟨hnot, -⟩ | ⟨r, p, w, -, hout, -⟩ := step_busyEnc_cases (by simp [hph]) h
  · exact ⟨henc, hout.trans hans⟩
  · exact absurd hph hnot
  · simp [hans] at hout

/-- A legal ENC that serves a requester is busy (R21). -/
theorem Enc.Legal.phase_ne_idle {e : Enc} {c : ReqId × Packet} (h : e.Legal) (hcur : e.cur = some c) :
    e.phase ≠ .idle := by
  intro hph
  simp [h.cur_eq_none hph] at hcur

end

/-- Settles O44: a step queues a request, goes on with the operation in service, or responds. -/
theorem encLockHeldUntilResponse : Obligations.EncLockHeldUntilResponse := by
  unfold Obligations.EncLockHeldUntilResponse
  intro s t c hs hcur h
  have hbusy := hs.1.phase_ne_idle hcur
  obtain ⟨henc, -⟩ | ⟨-, hph, hsame⟩ | ⟨r, p, w, hcur', hans, henc, hlog⟩ := step_busyEnc_cases hbusy h
  · rw [henc]
    exact .inl ⟨hcur, hbusy⟩
  · exact .inl ⟨hsame.trans hcur, hph⟩
  · obtain rfl : c = (r, p) := by simpa [hcur] using hcur'
    exact .inr ⟨by rw [henc]; rfl, by rw [henc]; rfl, w, hans, hlog⟩

/-- Settles O6: ACCEPT runs when the lock is free and the request pending, and clears that entry alone. -/
theorem encAcceptLatchesAnyPendingRequest : Obligations.EncAcceptLatchesAnyPendingRequest := by
  unfold Obligations.EncAcceptLatchesAnyPendingRequest
  intro s r
  refine ⟨fun p hph hp => ?_, fun hph => exec_encAccept_of_not_selected (.inl hph),
    fun hp => exec_encAccept_of_not_selected (.inr hp)⟩
  exact ⟨_, exec_encAccept_of_idle hph hp, rfl, rfl, rfl, rfl, lookup_pendClear_self r s.enc.pend,
    fun r' hne => lookup_pendClear_ne r r' hne s.enc.pend, rfl, rfl, rfl, rfl⟩

/-- Settles O7: OPEN runs in its phase. -/
theorem encOpenEmitsLeadingEnd : Obligations.EncOpenEmitsLeadingEnd := by
  unfold Obligations.EncOpenEmitsLeadingEnd
  exact fun s hph => exec_encOpen_next_iff.mpr ⟨hph, rfl⟩

/-- Settles O8: the payload byte at `enc_i` is END. -/
theorem encStuffEndEscapesEnd : Obligations.EncStuffEndEscapesEnd := by
  unfold Obligations.EncStuffEndEscapesEnd
  intro s r p hph hcur hget
  have hbyte := Enc.payloadByte_eq_some_iff.mpr ⟨r, p, hcur, hget⟩
  exact exec_encStuffEnd_next_iff.mpr ⟨hph, hbyte, rfl⟩

/-- Settles O9: the payload byte at `enc_i` is ESC. -/
theorem encStuffEscEscapesEsc : Obligations.EncStuffEscEscapesEsc := by
  unfold Obligations.EncStuffEscEscapesEsc
  intro s r p hph hcur hget
  have hbyte := Enc.payloadByte_eq_some_iff.mpr ⟨r, p, hcur, hget⟩
  exact exec_encStuffEsc_next_iff.mpr ⟨hph, hbyte, rfl⟩

/-- Settles O10: the payload byte at `enc_i` is neither. -/
theorem encLitCopiesOtherByte : Obligations.EncLitCopiesOtherByte := by
  unfold Obligations.EncLitCopiesOtherByte
  intro s r p b hph hcur hget hEND hESC
  have hbyte := Enc.payloadByte_eq_some_iff.mpr ⟨r, p, hcur, hget⟩
  exact exec_encLit_next_iff.mpr ⟨hEND, hESC, hph, hbyte, rfl⟩

/-- Settles O11: `enc_i` is at the end of the packet. -/
theorem encCloseEmitsTrailingEnd : Obligations.EncCloseEmitsTrailingEnd := by
  unfold Obligations.EncCloseEmitsTrailingEnd
  intro s r p hph hcur hlast
  have hend := Enc.atEnd_iff.mpr ⟨r, p, hcur, hlast⟩
  exact exec_encClose_next_iff.mpr ⟨hph, hend, rfl⟩

/-- Settles O12: WRITE runs in CLOSE alone, no other step records a write, and an unanswered ENC waits. -/
theorem encWriteIssuesWholeFrame : Obligations.EncWriteIssuesWholeFrame := by
  unfold Obligations.EncWriteIssuesWholeFrame
  exact fun s => ⟨fun hph => exec_encWrite_next_iff.mpr ⟨hph, rfl⟩, fun hph => if_neg hph,
    fun i t => encLog_of_exec_encStep, fun t => step_unansweredEnc⟩

/-- Settles O13: DONE_OK ends the operation, and a free ENC accepts any pending request. -/
theorem encDoneOkResponds : Obligations.EncDoneOkResponds := by
  unfold Obligations.EncDoneOkResponds
  exact fun s r p rest hph hcur hans =>
    ⟨_, finishEncode_eq hph hcur hans, rfl, fun r' q hq => ⟨_, exec_encAccept_of_idle rfl hq⟩⟩

/-- Settles O14: DONE_FAIL ends the operation as DONE_OK does, with the error of the answer. -/
theorem encDoneFailRespondsUnchanged : Obligations.EncDoneFailRespondsUnchanged := by
  unfold Obligations.EncDoneFailRespondsUnchanged
  exact fun s r p e rest hph hcur hans =>
    ⟨_, finishEncode_eq hph hcur hans, rfl, fun r' q hq => ⟨_, exec_encAccept_of_idle rfl hq⟩⟩

end Sys2Proof.Machine
end

section
/-! PROOF. The two whole operations as one step each (41_encoder.md R100, 42_decoder.md R130; log entry 9): answered,
queued at a held lock, or waiting at a silent channel. -/

namespace Sys2Proof.Machine

section

variable {s : State} {r : ReqId} {p : Packet} {w : WriteResp} {rest : List WriteResp}

/-- The frame of R71 with the stuffing of R72 written out. -/
theorem frame_eq_flatMap (p : Packet) :
    frame p = [0xC0#8] ++ p.flatMap (fun b =>
      if b = 0xC0#8 then [0xDB#8, 0xDC#8]
      else if b = 0xDB#8 then [0xDB#8, 0xDD#8] else [b]) ++ [0xC0#8] := rfl

/-- An ENCODE whose write is answered (R100). -/
theorem exec_encEncode_answered (hr : Config.isReqEnc r = true) (ho : s.enc.outstanding r = false)
    (hph : s.enc.phase = .idle) (hans : s.outAns = w :: rest) :
    exec (.encEncode r p) s =
      .next (((s.setEnc s.enc.toIdle).dropOutAns 1).logEnc
        [.req r p, .accept r p, .write (frame p), .answer w, .rsp r (statusOf w)]) :=
  exec_encEncode_next_iff.mpr ⟨hr, ho, .inr (.inr ⟨hph, w, rest, hans, rfl⟩)⟩

/-- An ENCODE whose write is not answered (R112). -/
theorem exec_encEncode_unanswered (hr : Config.isReqEnc r = true) (ho : s.enc.outstanding r = false)
    (hph : s.enc.phase = .idle) (hans : s.outAns = []) :
    exec (.encEncode r p) s =
      .next ((s.setEnc { s.enc with phase := .wait, cur := some (r, p), i := p.length,
                                    fbuf := frame p }).logEnc
        [.req r p, .accept r p, .write (frame p)]) :=
  exec_encEncode_next_iff.mpr ⟨hr, ho, .inr (.inl ⟨hph, hans, rfl⟩)⟩

/-- An ENCODE while the lock is held (R101, R112). -/
theorem exec_encEncode_queued (hr : Config.isReqEnc r = true) (ho : s.enc.outstanding r = false)
    (hph : s.enc.phase ≠ .idle) :
    exec (.encEncode r p) s =
      .next ((s.setEnc { s.enc with pend := pendSet r p s.enc.pend }).logEnc [.req r p]) :=
  exec_encEncode_next_iff.mpr ⟨hr, ho, .inl ⟨hph, rfl⟩⟩

/-- A READ_PACKET while the lock is held (R131, R145). -/
theorem exec_decReadPacket_queued (hr : Config.isReqDec r = true) (ho : s.dec.outstanding r = false)
    (hph : s.dec.phase ≠ .idle) :
    exec (.decReadPacket r) s =
      .next ((s.setDec { s.dec with pend := readPendSet r s.dec.pend }).logDec [.req r]) :=
  exec_decReadPacket_next_iff.mpr ⟨hr, ho, .inl ⟨hph, rfl⟩⟩

/-- A READ_PACKET that has taken every answer there is and goes on reading (R145, R149). -/
theorem exec_decReadPacket_blocked {acc : Packet} {ph : DecPhase} {k : Nat}
    (hr : Config.isReqDec r = true) (ho : s.dec.outstanding r = false) (hph : s.dec.phase = .idle)
    (hrp : rp Config.maxPacket [] .normal s.inAns 0 = .blocked acc ph k) :
    exec (.decReadPacket r) s =
      .next { s with dec := { phase := ph, rd := true, cur := some r, acc := acc, pend := s.dec.pend },
                     inAns := [],
                     decLog := s.decLog ++
                       ([.req r, .accept r] ++ readEvents s.inAns ++ [.read]) } := by
  obtain ⟨hk, -⟩ := decodeStream_of_rp_blocked (by decide) hrp
  rw [exec_decReadPacket_next_iff.mpr ⟨hr, ho, .inr (.inr ⟨hph, acc, ph, k, hrp, rfl⟩)⟩]
  simp [State.logDec, State.dropInAns, State.setDec, hk]

end

/-- Settles O26: the answered ENCODE, its frame written out. -/
theorem encodeWritesFrameOnceAndResponds : Obligations.EncodeWritesFrameOnceAndResponds := by
  unfold Obligations.EncodeWritesFrameOnceAndResponds
  intro s r p w rest hr ho hph hans
  rw [exec_encEncode_answered hr ho hph hans, finished_eq hans, ← frame_eq_flatMap]
  rfl

/-- Settles O28: each operation queues while its agent is busy, and waits where its answers run out. -/
theorem wholeOperationQueuesOrWaits : Obligations.WholeOperationQueuesOrWaits := by
  unfold Obligations.WholeOperationQueuesOrWaits
  refine ⟨fun s r p hr ho => ⟨fun hph => ?_, exec_encEncode_unanswered hr ho⟩,
    fun s r hr ho => ⟨fun hph => ?_, fun acc ph k => exec_decReadPacket_blocked hr ho⟩⟩
  · exact ⟨_, exec_encEncode_queued hr ho hph, lookup_pendSet_self r p s.enc.pend,
      fun r' hne => lookup_pendSet_ne r r' hne p s.enc.pend, rfl⟩
  · exact ⟨_, exec_decReadPacket_queued hr ho hph, fun r' => contains_readPendSet r r' s.dec.pend, rfl⟩

end Sys2Proof.Machine
end

section
/-! PROOF. Runs of ENC's steps: OPEN through CLOSE assemble the frame (41_encoder.md R110), and with the request,
ACCEPT, WRITE and DONE they are the whole ENCODE (41_encoder.md R100). -/

namespace Sys2Proof.Machine

section

variable {s t u : State} {r : ReqId} {p : Packet} {w : WriteResp} {ms : List Move}

/-! ## Runs -/

/-- A run of a machine answers where its first step does and the rest of the run does from there. -/
theorem run_succ_eq_next_iff (M : Host.Core) {k : Nat} {a c : M.State} :
    M.run (k + 1) a = .next c ↔ ∃ b, M.step a = .next b ∧ M.run k b = .next c := by
  rw [Host.Core.run]
  cases M.step a <;> simp

/-- From `s`, `k` steps of the machine answer and end in `t`. -/
def State.RunsTo (s : State) (k : Nat) (t : State) : Prop := Sys2Proof.core.run k s = .next t

theorem State.RunsTo.zero (s : State) : s.RunsTo 0 s := rfl

theorem State.RunsTo.cons {k : Nat} (h : step s = .next t) (h' : t.RunsTo k u) : s.RunsTo (k + 1) u :=
  (run_succ_eq_next_iff Sys2Proof.core).mpr ⟨t, h, h'⟩

theorem State.RunsTo.one (h : step s = .next t) : s.RunsTo 1 t := .cons h (.zero t)

/-- One run after another. -/
theorem State.RunsTo.append {k j : Nat} (h : s.RunsTo k t) (h' : t.RunsTo j u) : s.RunsTo (k + j) u := by
  induction k generalizing s with
  | zero =>
    obtain rfl := next_eq_next_iff.mp h
    rwa [Nat.zero_add]
  | succ k ih =>
    obtain ⟨v, hstep, hrun⟩ := (run_succ_eq_next_iff Sys2Proof.core).mp h
    rw [Nat.succ_add]
    exact .cons hstep (ih hrun)

/-! ## One scheduled move -/

theorem step_issueEncode (hm : s.sched = .issueEncode r p :: ms) (hr : Config.isReqEnc r = true)
    (ho : s.enc.outstanding r = false) :
    step s = .next (((s.setSched ms).setEnc
      { s.enc with pend := pendSet r p s.enc.pend }).logEnc [.req r p]) :=
  (step_of_sched_cons hm).trans (issueEncode_next_iff.mpr ⟨hr, ho, rfl⟩)

theorem step_encAccept (hm : s.sched = .encAccept r :: ms) (hph : s.enc.phase = .idle)
    (hp : s.enc.pending r = some p) :
    step s = .next (((s.setSched ms).setEnc
      { phase := .opening, cur := some (r, p), i := 0, fbuf := [],
        pend := pendClear r s.enc.pend }).logEnc [.accept r p]) := by
  have hx : s.select (.encAccept r) = some (.encPending r) :=
    if_pos ⟨hph, Option.isSome_of_eq_some hp⟩
  exact (step_of_select hm hx).trans (exec_encAccept_of_idle (s := s.setSched ms) hph hp)

theorem step_encOpen (hm : s.sched = .enc :: ms) (hph : s.enc.phase = .opening) :
    step s = .next ((s.setSched ms).setEnc { s.enc with fbuf := [END], phase := .stuff }) :=
  (step_of_select hm (selectEnc_eq_some_iff.mpr (.inl ⟨hph, rfl⟩))).trans
    (exec_encOpen_next_iff.mpr ⟨hph, rfl⟩)

/-- Whichever of the three stuffing steps a payload byte selects, it appends the byte's stuffed form
(R72, R76, R103 to R105). -/
theorem exec_decodePayloadByte {b : Byte} (hph : s.enc.phase = .stuff)
    (hb : s.enc.payloadByte = some b) :
    exec (decodePayloadByte b) s =
      .next (s.setEnc { s.enc with fbuf := s.enc.fbuf ++ stuff b, i := s.enc.i + 1 }) := by
  obtain ⟨rfl, hdec⟩ | ⟨rfl, hdec⟩ | ⟨hEND, hESC, hdec⟩ := decodePayloadByte_cases b
  · rw [hdec]
    exact exec_encStuffEnd_next_iff.mpr ⟨hph, hb, rfl⟩
  · rw [hdec]
    exact exec_encStuffEsc_next_iff.mpr ⟨hph, hb, rfl⟩
  · rw [hdec, stuff_literal hEND hESC]
    exact exec_encLit_next_iff.mpr ⟨hEND, hESC, hph, hb, rfl⟩

theorem step_encByte {b : Byte} (hm : s.sched = .enc :: ms) (hph : s.enc.phase = .stuff)
    (hb : s.enc.payloadByte = some b) :
    step s = .next ((s.setSched ms).setEnc
      { s.enc with fbuf := s.enc.fbuf ++ stuff b, i := s.enc.i + 1 }) :=
  (step_of_select hm (selectEnc_eq_some_iff.mpr (.inr (.inl ⟨hph, b, hb, rfl⟩)))).trans
    (exec_decodePayloadByte (s := s.setSched ms) hph hb)

theorem step_encClose (hm : s.sched = .enc :: ms) (hph : s.enc.phase = .stuff)
    (hend : s.enc.atEnd = true) :
    step s = .next ((s.setSched ms).setEnc { s.enc with fbuf := s.enc.fbuf ++ [END], phase := .close }) :=
  (step_of_select hm (selectEnc_eq_some_iff.mpr (.inr (.inr (.inl ⟨hph, hend, rfl⟩))))).trans
    (exec_encClose_next_iff.mpr ⟨hph, hend, rfl⟩)

theorem step_encWrite (hm : s.sched = .enc :: ms) (hph : s.enc.phase = .close) :
    step s = .next (((s.setSched ms).setEnc { s.enc with phase := .wait }).logEnc [.write s.enc.fbuf]) :=
  (step_of_select hm (selectEnc_eq_some_iff.mpr (.inr (.inr (.inr (.inl ⟨hph, rfl⟩)))))).trans
    (exec_encWrite_next_iff.mpr ⟨hph, rfl⟩)

/-- Whichever of the two DONE steps the answer selects, it ends the operation (R108, R109). -/
theorem exec_decodeWriteResp (w : WriteResp) (s : State) :
    exec (decodeWriteResp w) s = finishEncode w s := by
  cases w <;> rfl

theorem step_encDone (hm : s.sched = .enc :: ms) (hph : s.enc.phase = .wait)
    (hcur : s.enc.cur = some (r, p)) (hans : s.outAns.head? = some w) :
    step s = .next ((((s.setSched ms).setEnc s.enc.toIdle).dropOutAns 1).logEnc
      [.answer w, .rsp r (statusOf w)]) := by
  have hx : s.selectEnc = some (.encAnswer w) :=
    selectEnc_eq_some_iff.mpr (.inr (.inr (.inr (.inr ⟨hph, _, w, hcur, hans, rfl⟩))))
  rw [step_of_select hm hx, decode, exec_decodeWriteResp]
  exact finishEncode_next_iff.mpr ⟨r, p, hcur, hph, hans, rfl⟩

/-- With no answer to its write ENC waits (R187, R200). -/
theorem step_encUnanswered (hm : s.sched = .enc :: ms) (hph : s.enc.phase = .wait)
    (hans : s.outAns = []) : step s = .next (s.setSched ms) := by
  rw [step_of_sched_cons hm]
  exact runMove_of_select_none (.inl rfl) (selectEnc_eq_none (.inr ⟨hph, hans⟩))

/-! ## OPEN through CLOSE -/

/-- In STUFF, one step for each payload byte still to come appends their stuffed forms (R103 to R105). -/
theorem runsTo_stuffed {before after : Packet} (hph : s.enc.phase = .stuff)
    (hcur : s.enc.cur = some (r, before ++ after)) (hi : s.enc.i = before.length)
    (hm : s.sched = List.replicate after.length .enc ++ ms) :
    s.RunsTo after.length ((s.setSched ms).setEnc
      { s.enc with fbuf := s.enc.fbuf ++ stuffAll after, i := (before ++ after).length }) := by
  induction after generalizing s before with
  | nil =>
    refine next_eq_next_iff.mpr ?_
    simp [State.setSched, State.setEnc, stuffAll_nil, ← hi, ← hm.trans (List.nil_append ms)]
  | cons b after ih =>
    have hbyte : s.enc.payloadByte = some b :=
      Enc.payloadByte_eq_some_iff.mpr ⟨r, before ++ b :: after, hcur, by simp [hi]⟩
    refine .cons (step_encByte hm hph hbyte) ?_
    simpa [State.setSched, State.setEnc, stuffAll_cons] using
      ih (s := (s.setSched _).setEnc { s.enc with fbuf := s.enc.fbuf ++ stuff b, i := s.enc.i + 1 })
        (before := before ++ [b]) hph (by simp [hcur]) (by simp [hi]) rfl

/-- OPEN, a stuffing step for each payload byte, and CLOSE assemble the frame (R110). -/
theorem runsTo_assembled (hph : s.enc.phase = .opening) (hcur : s.enc.cur = some (r, p))
    (hi : s.enc.i = 0) (hm : s.sched = List.replicate (p.length + 2) .enc ++ ms) :
    s.RunsTo (p.length + 2) ((s.setSched ms).setEnc
      { s.enc with phase := .close, i := p.length, fbuf := frame p }) := by
  have hm' : s.sched = .enc :: (List.replicate p.length .enc ++ .enc :: ms) := by
    rw [hm, List.replicate_succ, List.replicate_succ', List.cons_append, List.append_assoc,
      List.singleton_append]
  have hopen := step_encOpen hm' hph
  have hstuff := runsTo_stuffed (before := []) (after := p) (ms := .enc :: ms)
    (s := (s.setSched (List.replicate p.length .enc ++ .enc :: ms)).setEnc
      { s.enc with fbuf := [END], phase := .stuff }) rfl hcur hi rfl
  exact .cons hopen (hstuff.append (.one
    (step_encClose rfl rfl (Enc.atEnd_iff.mpr ⟨r, p, hcur, rfl⟩))))

/-! ## Before and after -/

/-- The request and its ACCEPT: the pending set is as before the request (R101, R185). -/
theorem runsTo_accepted (hr : Config.isReqEnc r = true) (ho : s.enc.outstanding r = false)
    (hph : s.enc.phase = .idle) (hm : s.sched = .issueEncode r p :: .encAccept r :: ms) :
    s.RunsTo 2 (((s.setSched ms).setEnc
      { s.enc with phase := .opening, cur := some (r, p), i := 0, fbuf := [] }).logEnc
      [.req r p, .accept r p]) := by
  have hclear := pendClear_pendSet (p := p) (Enc.outstanding_eq_false.mp ho).1
  have haccept := step_encAccept (r := r) (p := p) (ms := ms)
    (s := ((s.setSched (.encAccept r :: ms)).setEnc
      { s.enc with pend := pendSet r p s.enc.pend }).logEnc [.req r p])
    rfl hph (lookup_pendSet_self r p s.enc.pend)
  refine .cons (step_issueEncode hm hr ho) (.one (haccept.trans (next_eq_next_iff.mpr ?_)))
  simp [State.setSched, State.setEnc, State.logEnc, hclear]

/-- WRITE and the DONE step that its answer selects (R107 to R109). -/
theorem runsTo_done (hph : s.enc.phase = .close) (hcur : s.enc.cur = some (r, p))
    (hans : s.outAns.head? = some w) (hm : s.sched = .enc :: .enc :: ms) :
    s.RunsTo 2 ((((s.setSched ms).setEnc s.enc.toIdle).dropOutAns 1).logEnc
      [.write s.enc.fbuf, .answer w, .rsp r (statusOf w)]) := by
  have hdone := step_encDone (ms := ms) (r := r) (p := p) (w := w)
    (s := ((s.setSched (.enc :: ms)).setEnc { s.enc with phase := .wait }).logEnc [.write s.enc.fbuf])
    rfl rfl hcur hans
  refine .cons (step_encWrite hm hph) (.one (hdone.trans (next_eq_next_iff.mpr ?_)))
  simp [State.setSched, State.setEnc, State.dropOutAns, State.logEnc, Enc.toIdle]

/-- WRITE, and a step that finds no answer. -/
theorem runsTo_unanswered (hph : s.enc.phase = .close) (hans : s.outAns = [])
    (hm : s.sched = .enc :: .enc :: ms) :
    s.RunsTo 2 (((s.setSched ms).setEnc { s.enc with phase := .wait }).logEnc [.write s.enc.fbuf]) :=
  .cons (step_encWrite hm hph) (.one (step_encUnanswered rfl rfl hans))

/-- Request through CLOSE: ENC has the frame ready, its pending set as before (R101 to R106). -/
theorem runsTo_closed (hr : Config.isReqEnc r = true) (ho : s.enc.outstanding r = false)
    (hph : s.enc.phase = .idle)
    (hm : s.sched = .issueEncode r p :: .encAccept r :: (List.replicate (p.length + 2) .enc ++ ms)) :
    s.RunsTo (2 + (p.length + 2)) (((s.setSched ms).setEnc
      { s.enc with phase := .close, cur := some (r, p), i := p.length, fbuf := frame p }).logEnc
      [.req r p, .accept r p]) :=
  (runsTo_accepted hr ho hph hm).append (runsTo_assembled rfl rfl rfl rfl)

/-- Request through DONE, or through a step that finds no answer, end as ENCODE in one step does (R100). -/
theorem runsTo_encode (hr : Config.isReqEnc r = true) (ho : s.enc.outstanding r = false)
    (hph : s.enc.phase = .idle)
    (hm : s.sched = .issueEncode r p :: .encAccept r ::
      (List.replicate (p.length + 2) .enc ++ .enc :: .enc :: ms))
    (h : exec (.encEncode r p) (s.setSched ms) = .next t) : s.RunsTo (2 + (p.length + 2) + 2) t := by
  have hclosed := runsTo_closed hr ho hph hm
  obtain ⟨-, -, hcase⟩ := exec_encEncode_next_iff.mp h
  obtain ⟨hbusy, -⟩ | ⟨-, hans, rfl⟩ | ⟨-, w, rest, hans, rfl⟩ := hcase
  · exact absurd hph hbusy
  · simpa [State.setSched, State.setEnc, State.logEnc] using
      hclosed.append (runsTo_unanswered rfl hans rfl)
  · simpa [State.setSched, State.setEnc, State.dropOutAns, State.logEnc, Enc.toIdle] using
      hclosed.append (runsTo_done (w := w) rfl rfl (List.head?_eq_some_iff.mpr ⟨rest, hans⟩) rfl)

end

/-- Settles O32: the run from OPEN through CLOSE. -/
theorem assemblyIsOneStepToFrame : Obligations.AssemblyIsOneStepToFrame := by
  unfold Obligations.AssemblyIsOneStepToFrame
  exact fun s r p ms hph hcur hi =>
    runsTo_assembled (s := s.setSched (List.replicate (p.length + 2) Move.enc ++ ms)) hph hcur hi rfl

/-- Settles O29: ENCODE, its request allowed, answers, and its steps run to the state it answers. -/
theorem encodeEqualsItsSteps : Obligations.EncodeEqualsItsSteps := by
  unfold Obligations.EncodeEqualsItsSteps
  intro s r p ms hr ho hph
  have hsched : [.issueEncode r p, .encAccept r] ++ List.replicate (p.length + 4) .enc ++ ms =
      .issueEncode r p :: .encAccept r ::
        (List.replicate (p.length + 2) .enc ++ .enc :: .enc :: ms) := by
    simp [List.replicate_add p.length 4, List.replicate_add p.length 2]
  obtain ⟨t, ht⟩ := exec_encEncode_of_allows (s := s.setSched ms) (r := r) (p := p)
    (by simp [State.allows, hr, ho])
  have hlen : p.length + 6 = 2 + (p.length + 2) + 2 := by omega
  rw [hlen]
  exact (runsTo_encode (s := s.setSched (_ ++ ms)) hr ho hph hsched ht).trans ht.symm

end Sys2Proof.Machine
end

section
/-! PROOF. Payload bytes are never interpreted (00_scope.md R10, 41_encoder.md R115, 42_decoder.md R150): a renaming
that keeps the four reserved values apart commutes with stuffing, unescaping and `rp`. -/

namespace Sys2Proof.Machine

section

variable {f : Byte → Byte}

/-! ## Renaming bytes -/

theorem KeepsReserved.map_END (hf : KeepsReserved f) : f END = END := (hf END).1.mpr rfl

theorem KeepsReserved.map_ESC (hf : KeepsReserved f) : f ESC = ESC := (hf ESC).2.1.mpr rfl

theorem KeepsReserved.map_ESC_END (hf : KeepsReserved f) : f ESC_END = ESC_END :=
  (hf ESC_END).2.2.1.mpr rfl

theorem KeepsReserved.map_ESC_ESC (hf : KeepsReserved f) : f ESC_ESC = ESC_ESC :=
  (hf ESC_ESC).2.2.2.mpr rfl

theorem KeepsReserved.stuff_apply (hf : KeepsReserved f) (b : Byte) : stuff (f b) = (stuff b).map f := by
  obtain ⟨rfl, hs⟩ | ⟨rfl, hs⟩ | ⟨hEND, hESC, hs⟩ := stuff_cases b
  · simp [hf.map_END, hf.map_ESC, hf.map_ESC_END, hs]
  · simp [hf.map_ESC, hf.map_ESC_ESC, hs]
  · rw [hs, stuff_literal (mt (hf b).1.mp hEND) (mt (hf b).2.1.mp hESC), List.map_singleton]

theorem KeepsReserved.stuffAll_map (hf : KeepsReserved f) (p : Packet) :
    stuffAll (p.map f) = (stuffAll p).map f := by
  induction p with
  | nil => rfl
  | cons b p ih => rw [List.map_cons, stuffAll_cons, stuffAll_cons, List.map_append, hf.stuff_apply, ih]

theorem KeepsReserved.frame_map (hf : KeepsReserved f) (p : Packet) : frame (p.map f) = (frame p).map f := by
  simp [frame_eq, hf.stuffAll_map, hf.map_END]

theorem KeepsReserved.unescape_apply (hf : KeepsReserved f) (b : Byte) :
    unescape (f b) = f (unescape b) := by
  simp only [unescape, hf b]
  split_ifs
  · exact hf.map_END.symm
  · exact hf.map_ESC.symm
  · rfl

/-- `rp` compares bytes with the reserved values alone (R149). -/
theorem KeepsReserved.rp_map (hf : KeepsReserved f) (bound : Option Nat) (acc : Packet) (ph : DecPhase)
    (xs : List ReadResp) (k : Nat) :
    rp bound (acc.map f) ph (xs.map (renameAnswer f)) k = renameOutcome f (rp bound acc ph xs k) := by
  induction xs generalizing acc ph k with
  | nil => rfl
  | cons x xs ih =>
    cases x with
    | nodata e => rfl
    | data b =>
      have happend (c : Byte) : acc.map f ++ [f c] = (acc ++ [c]).map f := by simp
      have hnil := ih [] .normal (k + 1)
      simp only [List.map_cons, renameAnswer, rp, hf b, hf.unescape_apply, List.length_map,
        List.map_eq_nil_iff, happend, ih]
      split_ifs
      · exact hnil
      all_goals rfl

/-- An ENCODE's responses and the answers it takes, whatever its packet. -/
theorem exec_encEncode_other_packet {r : ReqId} {p : Packet} (q : Packet) {s t : State}
    (h : exec (.encEncode r p) s = .next t) :
    ∃ u, exec (.encEncode r q) s = .next u ∧ encReplies u.encLog = encReplies t.encLog ∧
      u.outAns = t.outAns := by
  obtain ⟨hr, ho, hcase⟩ := exec_encEncode_next_iff.mp h
  obtain ⟨hbusy, rfl⟩ | ⟨hidle, hans, rfl⟩ | ⟨hidle, w, rest, hans, rfl⟩ := hcase
  · exact ⟨_, exec_encEncode_queued hr ho hbusy, by simp [encReplies], rfl⟩
  · exact ⟨_, exec_encEncode_unanswered hr ho hidle hans, by simp [encReplies], rfl⟩
  · exact ⟨_, exec_encEncode_answered hr ho hidle hans, by simp [encReplies], rfl⟩

end

/-- Settles O51: frames and `rp` commute with the renaming, and ENCODE's three cases do not look at the
packet. -/
theorem payloadNeverInterpreted : Obligations.PayloadNeverInterpreted := by
  unfold Obligations.PayloadNeverInterpreted
  exact ⟨fun f hf => ⟨hf.frame_map, hf.rp_map none⟩, fun r p q s t => exec_encEncode_other_packet q⟩

end Sys2Proof.Machine
end

section
/-! PROOF. Finite bounds (00_scope.md R7, 41_encoder.md R114, 42_decoder.md R146; log entry 8): an operation that goes
past its bound is refused, and every other is as without one. -/

namespace Sys2Proof.Machine

section

variable {s : State} {r : ReqId} {p : Packet} {n : Nat}

/-- A choice by a finite bound: past it the second, else the first. -/
theorem ite_fits_some {α : Type} (n m : Nat) (x y : α) :
    (if Config.fits (some n) m then x else y) = if m > n then y else x := by
  simp only [Config.fits, decide_eq_true_eq]
  by_cases h : m ≤ n
  · rw [if_pos h, if_neg (Nat.not_lt.mpr h)]
  · rw [if_neg h, if_pos (Nat.lt_of_not_le h)]

/-! ## ENC -/

theorem assemble_some (n : Nat) (e : Enc) (s : State) :
    assemble (some n) e s = if e.fbuf.length > n then .refused .frameCapacity else assemble none e s :=
  ite_fits_some _ _ _ _

theorem encodeIdle_some (n : Nat) (r : ReqId) (p : Packet) (s : State) :
    encodeIdle (some n) r p s =
      if (frame p).length > n then .refused .frameCapacity else encodeIdle none r p s :=
  ite_fits_some _ _ _ _

/-- An allowed ENCODE that finds the lock free starts, under any bound. -/
theorem encodeWhole_of_starts (bound : Option Nat) (hr : Config.isReqEnc r = true)
    (ho : s.enc.outstanding r = false) (hph : s.enc.phase = .idle) :
    encodeWhole bound r p s = encodeIdle bound r p s := by
  rw [encodeWhole, issueEncode_next_iff.mpr ⟨hr, ho, rfl⟩]
  exact if_pos hph

/-- One that does not start does not look at its bound. -/
theorem encodeWhole_of_not_starts (bound bound' : Option Nat)
    (h : ¬ (Config.isReqEnc r = true ∧ s.enc.outstanding r = false ∧ s.enc.phase = .idle)) :
    encodeWhole bound r p s = encodeWhole bound' r p s := by
  unfold encodeWhole
  cases hreq : issueEncode r p s with
  | next t =>
    obtain ⟨hr, ho, -⟩ := issueEncode_next_iff.mp hreq
    have hph : s.enc.phase ≠ .idle := fun hph => h ⟨hr, ho, hph⟩
    simp [hph]
  | fault x => rfl
  | refused x => rfl

theorem encodeWhole_some (n : Nat) (r : ReqId) (p : Packet) (s : State) :
    encodeWhole (some n) r p s =
      if Config.isReqEnc r = true ∧ s.enc.outstanding r = false ∧ s.enc.phase = .idle ∧
          (frame p).length > n then .refused .frameCapacity
      else encodeWhole none r p s := by
  by_cases hstart : Config.isReqEnc r = true ∧ s.enc.outstanding r = false ∧ s.enc.phase = .idle
  · obtain ⟨hr, ho, hph⟩ := hstart
    simp only [encodeWhole_of_starts _ hr ho hph, encodeIdle_some, hr, ho, hph, true_and]
  · rw [encodeWhole_of_not_starts (some n) none hstart, if_neg]
    exact fun ⟨hr, ho, hph, _⟩ => hstart ⟨hr, ho, hph⟩

/-! ## DEC -/

theorem appendByte_some (n : Nat) (b : Byte) (x : ReadResp) (s : State) :
    appendByte (some n) b x s =
      if s.dec.acc.length + 1 > n then .refused .packetCapacity else appendByte none b x s :=
  ite_fits_some _ _ _ _

/-- The bytes a READ_PACKET has gathered in the end. -/
def RpResult.gathered : RpResult → Packet
  | .done v _ => v.pkt
  | .blocked acc _ _ => acc
  | .overflow => []

/-- What a result without a bound is under the bound `n` (R146). -/
def RpResult.under (n : Nat) (x : RpResult) : RpResult := if x.gathered.length > n then .overflow else x

theorem RpResult.under_of_le {x : RpResult} (h : x.gathered.length ≤ n) : x.under n = x :=
  if_neg (Nat.not_lt.mpr h)

theorem RpResult.under_of_lt {x : RpResult} (h : n < x.gathered.length) : x.under n = .overflow :=
  if_pos h

theorem RpResult.under_eq_match (n : Nat) (x : RpResult) :
    x.under n = match x with
      | .done v k => if v.pkt.length > n then .overflow else .done v k
      | .blocked acc ph k => if acc.length > n then .overflow else .blocked acc ph k
      | .overflow => .overflow := by
  cases x with
  | done v k => rfl
  | blocked acc ph k => rfl
  | overflow => exact ite_self _

/-- A READ_PACKET drops no byte that it has gathered (R146, R149). -/
theorem length_le_gathered_rp (acc : Packet) (ph : DecPhase) (xs : List ReadResp) (k : Nat) :
    acc.length ≤ (rp none acc ph xs k).gathered.length := by
  induction xs generalizing acc ph k with
  | nil => exact le_rfl
  | cons x xs ih =>
    cases x with
    | nodata e => exact le_rfl
    | data b =>
      have happend (c : Byte) : acc.length ≤ (rp none (acc ++ [c]) .normal xs (k + 1)).gathered.length :=
        le_trans (by simp) (ih (acc ++ [c]) .normal (k + 1))
      simp only [rp, fits_none, if_true]
      split_ifs with hph hEND hacc hESC
      · simp [hacc]
      · exact le_rfl
      · exact ih acc .escaped (k + 1)
      · exact happend b
      · exact happend (unescape b)

/-- `rp` under a bound is `rp` without one, but for the results past the bound (R146). -/
theorem rp_some {acc : Packet} (hacc : acc.length ≤ n) (ph : DecPhase) (xs : List ReadResp) (k : Nat) :
    rp (some n) acc ph xs k = (rp none acc ph xs k).under n := by
  induction xs generalizing acc ph k with
  | nil => exact (RpResult.under_of_le hacc).symm
  | cons x xs ih =>
    cases x with
    | nodata e => exact (RpResult.under_of_le hacc).symm
    | data b =>
      have happend (c : Byte) :
          (if Config.fits (some n) (acc.length + 1) then rp (some n) (acc ++ [c]) .normal xs (k + 1)
            else .overflow) = (rp none (acc ++ [c]) .normal xs (k + 1)).under n := by
        rw [ite_fits_some]
        split_ifs with hpast
        · have hle := length_le_gathered_rp (acc ++ [c]) .normal xs (k + 1)
          rw [List.length_append, List.length_singleton] at hle
          exact (RpResult.under_of_lt (lt_of_lt_of_le hpast hle)).symm
        · exact ih (by simpa using hpast) _ _
      simp only [rp, happend, fits_none, if_true]
      split_ifs
      · exact ih (acc := []) n.zero_le _ _
      · exact (RpResult.under_of_le hacc).symm
      · exact ih hacc _ _
      · rfl
      · rfl

theorem readIdle_some (n : Nat) (r : ReqId) (s : State) :
    readIdle (some n) r s =
      if rp (some n) [] .normal s.inAns 0 = .overflow then .refused .packetCapacity
      else readIdle none r s := by
  have hrp : rp (some n) [] .normal s.inAns 0 = .overflow ∨
      rp (some n) [] .normal s.inAns 0 = rp none [] .normal s.inAns 0 := by
    rw [rp_some n.zero_le]
    exact ite_eq_or_eq _ _ _
  by_cases hover : rp (some n) [] .normal s.inAns 0 = .overflow
  · rw [readIdle, hover, if_pos rfl]
  · rw [if_neg hover, readIdle, readIdle, hrp.resolve_left hover]

/-- An allowed READ_PACKET that finds the lock free starts, under any bound. -/
theorem readWhole_of_starts (bound : Option Nat) (hr : Config.isReqDec r = true)
    (ho : s.dec.outstanding r = false) (hph : s.dec.phase = .idle) :
    readWhole bound r s = readIdle bound r s := by
  rw [readWhole, issueRead_next_iff.mpr ⟨hr, ho, rfl⟩]
  exact if_pos hph

/-- One that does not start does not look at its bound. -/
theorem readWhole_of_not_starts (bound bound' : Option Nat)
    (h : ¬ (Config.isReqDec r = true ∧ s.dec.outstanding r = false ∧ s.dec.phase = .idle)) :
    readWhole bound r s = readWhole bound' r s := by
  unfold readWhole
  cases hreq : issueRead r s with
  | next t =>
    obtain ⟨hr, ho, -⟩ := issueRead_next_iff.mp hreq
    have hph : s.dec.phase ≠ .idle := fun hph => h ⟨hr, ho, hph⟩
    simp [hph]
  | fault x => rfl
  | refused x => rfl

theorem readWhole_some (n : Nat) (r : ReqId) (s : State) :
    readWhole (some n) r s =
      if Config.isReqDec r = true ∧ s.dec.outstanding r = false ∧ s.dec.phase = .idle ∧
          rp (some n) [] .normal s.inAns 0 = .overflow then .refused .packetCapacity
      else readWhole none r s := by
  by_cases hstart : Config.isReqDec r = true ∧ s.dec.outstanding r = false ∧ s.dec.phase = .idle
  · obtain ⟨hr, ho, hph⟩ := hstart
    simp only [readWhole_of_starts _ hr ho hph, readIdle_some, hr, ho, hph, true_and]
  · rw [readWhole_of_not_starts (some n) none hstart, if_neg]
    exact fun ⟨hr, ho, hph, _⟩ => hstart ⟨hr, ho, hph⟩

end

/-- Settles O53: one equation for each operation that takes a bound. -/
theorem finiteBoundsRefuse : Obligations.FiniteBoundsRefuse := by
  unfold Obligations.FiniteBoundsRefuse
  exact ⟨encodeWhole_some, assemble_some,
    fun n acc ph xs k hacc => (rp_some hacc ph xs k).trans (RpResult.under_eq_match n _),
    readWhole_some, appendByte_some⟩

end Sys2Proof.Machine
end

section
/-! PROOF. The steps of DEC one by one (42_decoder.md R131 to R141), and what any step does to a busy DEC: it queues a
request, issues a read, takes an answer and goes on, or responds (42_decoder.md R142, R145). -/

namespace Sys2Proof.Machine

section

variable {s t : State} {i : Instr} {r : ReqId} {ph : DecPhase} {acc : Packet} {x : ReadResp}
  {v : DecResult} {rest : List ReadResp}

/-! ## ACCEPT -/

/-- `dec_pend` after `dec_pend r <- false`. -/
theorem contains_readPendClear (r r' : ReqId) (l : List ReqId) :
    (readPendClear r l).contains r' = (r' != r && l.contains r') := by
  rw [Bool.eq_iff_iff]
  simp [mem_readPendClear]

theorem exec_decAccept_of_idle (hph : s.dec.phase = .idle) (hp : s.dec.pending r = true) :
    exec (.decAccept r) s =
      .next ((s.setDec { phase := .normal, rd := false, cur := some r, acc := [],
                         pend := readPendClear r s.dec.pend }).logDec [.accept r]) :=
  exec_decAccept_next_iff.mpr ⟨hph, hp, rfl⟩

/-- ACCEPT needs the lock free and a request pending (R83, R131). -/
theorem exec_decAccept_of_not_selected (h : s.dec.phase ≠ .idle ∨ s.dec.pending r = false) :
    exec (.decAccept r) s = .refused .notSelected := by
  refine if_neg fun ⟨hph, hp⟩ => ?_
  obtain hbusy | hnot := h
  · exact hbusy hph
  · simp [hp] at hnot

/-! ## Taking an answer -/

theorem readAnswered_of_cons (hph : s.dec.phase = ph) (hrd : s.dec.rd = true)
    (hans : s.inAns = x :: rest) : s.readAnswered ph x :=
  ⟨hph, hrd, by simp [hans]⟩

/-- Taking an answer changes DEC's elements, its channel's answers and its history alone. -/
theorem takeAnswer_eq (hans : s.inAns = x :: rest) (d : Dec) :
    takeAnswer x d s = { s with dec := d, inAns := rest, decLog := s.decLog ++ [.answer x] } := by
  simp [takeAnswer, State.logDec, State.dropInAns, State.setDec, hans]

/-- The end of a READ_PACKET, element by element (R142). -/
theorem respond_eq (hans : s.inAns = x :: rest) (r : ReqId) (v : DecResult) :
    (takeAnswer x s.dec.toIdle s).logDec [.rsp r v] =
      { s with dec := { phase := .idle, rd := false, cur := none, acc := [], pend := s.dec.pend },
               inAns := rest, decLog := s.decLog ++ [.answer x, .rsp r v] } := by
  simp [takeAnswer_eq hans, State.logDec, Dec.toIdle]

/-! ## What a step of DEC does -/

/-- DEC issues a read (R132). -/
def State.DecReads (s t : State) : Prop :=
  s.dec.rd = false ∧ s.dec.phase ≠ .idle ∧ t = (s.setDec { s.dec with rd := true }).logDec [.read]

/-- DEC takes an answer that decodes to no result and goes on with what it leaves over (R134, R136, R137,
R139 to R141). -/
def State.DecTakes (s t : State) : Prop :=
  ∃ x acc ph, s.readAnswered s.dec.phase x ∧ ph ≠ .idle ∧
    decodeStream s.dec.acc s.dec.phase [x] = ([], acc, ph) ∧
    t = takeAnswer x { s.dec with phase := ph, rd := false, acc := acc } s

/-- DEC takes an answer that decodes to a result, responds with that to the requester it serves, and is idle
(R133, R135, R138, R142). -/
def State.DecResponds (s t : State) : Prop :=
  ∃ r x v, s.dec.cur = some r ∧ s.readAnswered s.dec.phase x ∧
    decodeStream s.dec.acc s.dec.phase [x] = ([v], [], .normal) ∧
    t = (takeAnswer x s.dec.toIdle s).logDec [.rsp r v]

theorem State.DecTakes.of_readAnswered {ph' : DecPhase} (hans : s.readAnswered ph x) (hph' : ph' ≠ .idle)
    (hdec : decodeStream s.dec.acc ph [x] = ([], acc, ph')) :
    s.DecTakes (takeAnswer x { s.dec with phase := ph', rd := false, acc := acc } s) := by
  obtain ⟨rfl, hrd, hhead⟩ := hans
  exact ⟨x, acc, ph', ⟨rfl, hrd, hhead⟩, hph', hdec, rfl⟩

theorem State.DecResponds.of_readAnswered (hans : s.readAnswered ph x) (hcur : s.dec.cur = some r)
    (hdec : decodeStream s.dec.acc ph [x] = ([v], [], .normal)) :
    s.DecResponds ((takeAnswer x s.dec.toIdle s).logDec [.rsp r v]) := by
  obtain ⟨rfl, hrd, hhead⟩ := hans
  exact ⟨r, x, v, hcur, ⟨rfl, hrd, hhead⟩, hdec, rfl⟩

/-- A step of DEC issues a read, or does with the answer it takes what that decodes to (R77, R78). -/
theorem exec_decStep_cases (hi : i.isDecStep = true) (h : exec i s = .next t) :
    s.DecReads t ∨ s.DecTakes t ∨ s.DecResponds t := by
  cases i with
  | decRead =>
    obtain ⟨hph, hrd, rfl⟩ := exec_decRead_next_iff.mp h
    exact .inl ⟨hrd, hph, rfl⟩
  | decNFail e =>
    obtain ⟨hans, r, hcur, rfl⟩ := exec_decNFail_next_iff.mp h
    exact .inr (.inr (.of_readAnswered hans hcur rfl))
  | decNEndSkip =>
    obtain ⟨hans, hacc, rfl⟩ := exec_decNEndSkip_next_iff.mp h
    have hdec : decodeStream s.dec.acc .normal [.data END] = ([], s.dec.acc, s.dec.phase) := by
      simp [decodeStream, hacc, hans.1]
    exact .inr (.inl (.of_readAnswered hans (readAnswered_ne_idle hans nofun) hdec))
  | decNEndDone =>
    obtain ⟨hans, hacc, r, hcur, rfl⟩ := exec_decNEndDone_next_iff.mp h
    exact .inr (.inr (.of_readAnswered hans hcur (by simp [decodeStream, hacc])))
  | decNEsc =>
    obtain ⟨hans, rfl⟩ := exec_decNEsc_next_iff.mp h
    exact .inr (.inl (.of_readAnswered hans nofun (by simp [decodeStream])))
  | decNLit b =>
    obtain ⟨hans, hEND, hESC, rfl⟩ := exec_decNLit_next_iff.mp h
    exact .inr (.inl (.of_readAnswered hans nofun (by simp [decodeStream, hEND, hESC])))
  | decEFail e =>
    obtain ⟨hans, r, hcur, rfl⟩ := exec_decEFail_next_iff.mp h
    exact .inr (.inr (.of_readAnswered hans hcur rfl))
  | decEEnd =>
    obtain ⟨hans, rfl⟩ := exec_decEEnd_next_iff.mp h
    exact .inr (.inl (.of_readAnswered hans nofun (by simp [decodeStream, unescape_ESC_END])))
  | decEEsc =>
    obtain ⟨hans, rfl⟩ := exec_decEEsc_next_iff.mp h
    exact .inr (.inl (.of_readAnswered hans nofun (by simp [decodeStream, unescape_ESC_ESC])))
  | decELit b =>
    obtain ⟨hans, hne, hne', rfl⟩ := exec_decELit_next_iff.mp h
    exact .inr (.inl (.of_readAnswered hans nofun (by simp [decodeStream, unescape_other hne hne'])))
  | _ => simp [Instr.isDecStep] at hi

/-- In IDLE DEC takes no answer: none of its steps runs, and ACCEPT takes none (R132). -/
theorem inAns_of_exec_of_idle (hph : s.dec.phase = .idle) (hi : i.isDecStep = true ∨ ∃ r, i = .decAccept r)
    (h : exec i s = .next t) : t.inAns = s.inAns := by
  obtain hstep | ⟨r, rfl⟩ := hi
  · exact absurd hph (phase_ne_idle_of_exec_decStep hstep h)
  · obtain ⟨-, -, rfl⟩ := exec_decAccept_next_iff.mp h
    rfl

/-! ## A busy DEC -/

/-- DEC goes from `s` to `t` with at most its pending set changed. -/
def State.DecWaits (s t : State) : Prop :=
  t.dec = { s.dec with pend := t.dec.pend } ∧ t.inAns = s.inAns

/-- What an instruction of DEC does to a busy DEC. -/
theorem exec_busyDec_cases (hi : i.isEnc = false) (hbusy : s.dec.phase ≠ .idle) (h : exec i s = .next t) :
    s.DecWaits t ∨ s.DecReads t ∨ s.DecTakes t ∨ s.DecResponds t := by
  cases hstep : i.isDecStep with
  | true => exact .inr (exec_decStep_cases hstep h)
  | false =>
    cases i with
    | decReadPacket r =>
      obtain ⟨-, -, hcase⟩ := exec_decReadPacket_next_iff.mp h
      obtain ⟨-, rfl⟩ | ⟨hph, -⟩ | ⟨hph, -⟩ := hcase
      · exact .inl ⟨rfl, rfl⟩
      · exact absurd hph hbusy
      · exact absurd hph hbusy
    | decAccept r => exact absurd (exec_decAccept_next_iff.mp h).1 hbusy
    | _ => contradiction

/-- What a step does to a busy DEC; where it is a request or a step of ENC, DEC at most has one more request
pending. -/
theorem step_busyDec_cases (hbusy : s.dec.phase ≠ .idle) (h : step s = .next t) :
    s.DecWaits t ∨
      ∃ ms, (s.setSched ms).DecReads t ∨ (s.setSched ms).DecTakes t ∨ (s.setSched ms).DecResponds t := by
  obtain ⟨-, rfl⟩ | ⟨m, ms, -, hcase⟩ := step_next_cases h
  · exact .inl ⟨rfl, rfl⟩
  · obtain rfl | ⟨r, p, -, hreq⟩ | ⟨r, -, hreq⟩ | ⟨sel, -, hexec⟩ := hcase
    · exact .inl ⟨rfl, rfl⟩
    · obtain ⟨-, -, rfl⟩ := issueEncode_next_iff.mp hreq
      exact .inl ⟨rfl, rfl⟩
    · obtain ⟨-, -, rfl⟩ := issueRead_next_iff.mp hreq
      exact .inl ⟨rfl, rfl⟩
    · cases hi : (decode sel).isEnc with
      | true =>
        have hside := eq_withEncSide_of_exec hi hexec
        have hdec : t.dec = s.dec := (congrArg State.dec hside).trans rfl
        exact .inl ⟨by rw [hdec], (congrArg State.inAns hside).trans rfl⟩
      | false =>
        exact (exec_busyDec_cases (s := s.setSched ms) hi hbusy hexec).imp_right fun hmove => ⟨ms, hmove⟩

/-- While its read is unanswered DEC goes on waiting (R132, R200). -/
theorem step_unansweredDec (hbusy : s.dec.phase ≠ .idle) (hrd : s.dec.rd = true) (hans : s.inAns = [])
    (h : step s = .next t) : t.dec = { s.dec with pend := t.dec.pend } ∧ t.inAns = [] := by
  have hno (ms : List Move) (x : ReadResp) : ¬ (s.setSched ms).readAnswered s.dec.phase x := by
    simp [State.readAnswered, hans]
  obtain ⟨hdec, hin⟩ | ⟨ms, ⟨hunread, -⟩ | ⟨x, _, _, htake, -⟩ | ⟨_, x, _, -, hend, -⟩⟩ :=
    step_busyDec_cases hbusy h
  · exact ⟨hdec, hin.trans hans⟩
  · simp [hrd] at hunread
  · exact absurd htake (hno ms x)
  · exact absurd hend (hno ms x)

/-- A legal DEC that serves a requester is busy (R23). -/
theorem Dec.Legal.phase_ne_idle {d : Dec} (h : d.Legal) (hcur : d.cur = some r) : d.phase ≠ .idle := by
  intro hph
  simp [(h.idle_empty hph).1] at hcur

/-- The result that one answer decodes to holds the bytes gathered before it (R81). -/
theorem pkt_of_decodeStream (h : decodeStream acc ph [x] = ([v], [], .normal)) : v.pkt = acc := by
  cases x with
  | nodata e =>
    obtain rfl : prefixOf acc e = v := by simpa [decodeStream] using h
    rfl
  | data b =>
    simp only [decodeStream] at h
    split_ifs at h with hph hEND hacc hESC
    · cases h
    · cases h
    · obtain rfl : complete acc = v := by simpa using h
      rfl
    · cases h
    · cases h

end

/-- Settles O45: a step queues a request, issues a read, takes an answer and goes on, or responds. -/
theorem decLockHeldUntilResponse : Obligations.DecLockHeldUntilResponse := by
  unfold Obligations.DecLockHeldUntilResponse
  intro s t r hs hcur h
  have hbusy := hs.2.phase_ne_idle hcur
  obtain ⟨hdec, -⟩ | ⟨ms, ⟨-, -, rfl⟩ | ⟨x, acc, ph, -, hph, -, rfl⟩ | ⟨r', x, v, hcur', -, hres, rfl⟩⟩ :=
    step_busyDec_cases hbusy h
  · rw [hdec]
    exact .inl ⟨hcur, hbusy⟩
  · exact .inl ⟨hcur, hbusy⟩
  · exact .inl ⟨hcur, hph⟩
  · obtain rfl : r = r' := by simpa [hcur] using hcur'
    exact .inr ⟨rfl, rfl, rfl, rfl, x, v, List.append_assoc _ _ _, pkt_of_decodeStream hres⟩

/-- Settles O15: ACCEPT runs when the lock is free and the request pending, and clears that entry alone. -/
theorem decAcceptStartsEmpty : Obligations.DecAcceptStartsEmpty := by
  unfold Obligations.DecAcceptStartsEmpty
  intro s r
  refine ⟨fun hph hp => ?_, fun hph => exec_decAccept_of_not_selected (.inl hph),
    fun hp => exec_decAccept_of_not_selected (.inr hp)⟩
  have hpend := contains_readPendClear r (l := s.dec.pend)
  exact ⟨_, exec_decAccept_of_idle hph hp, rfl, rfl, rfl, rfl, (hpend r).trans (by simp),
    fun r' hne => (hpend r').trans (by simp [hne, Dec.pending]), rfl, rfl, rfl, rfl⟩

/-- Settles O16: READ runs in an operation with no read outstanding, only a busy DEC takes answers, and an
unanswered one waits. -/
theorem decReadIssuesOneRead : Obligations.DecReadIssuesOneRead := by
  unfold Obligations.DecReadIssuesOneRead
  refine fun s => ⟨fun hph hrd => ?_, fun hph => if_neg fun hsel => hsel.1 hph, fun hrd => if_neg ?_,
    fun i t => inAns_of_exec_of_idle, fun t => step_unansweredDec⟩
  · have hbusy : s.dec.phase ≠ .idle := by
      obtain hph | hph := hph <;> simp [hph]
    exact exec_decRead_next_iff.mpr ⟨hbusy, hrd, rfl⟩
  · simp [hrd]

/-- Settles O17: the answer is NODATA in NORMAL. -/
theorem decNFailRespondsTruncated : Obligations.DecNFailRespondsTruncated := by
  unfold Obligations.DecNFailRespondsTruncated
  intro s r e rest hph hrd hcur hans
  exact exec_decNFail_next_iff.mpr
    ⟨readAnswered_of_cons hph hrd hans, r, hcur, (respond_eq hans r _).symm⟩

/-- Settles O18: the answer is END in NORMAL with nothing gathered, and no read is outstanding after it. -/
theorem decNEndSkipDiscardsEnd : Obligations.DecNEndSkipDiscardsEnd := by
  unfold Obligations.DecNEndSkipDiscardsEnd
  intro s rest hph hrd hacc hans
  have hread := readAnswered_of_cons hph hrd hans
  have hbusy : s.dec.phase ≠ .idle := readAnswered_ne_idle hread nofun
  exact ⟨_, exec_decNEndSkip_next_iff.mpr ⟨hread, hacc, (takeAnswer_eq hans _).symm⟩, rfl, _,
    exec_decRead_next_iff.mpr ⟨hbusy, rfl, rfl⟩⟩

/-- Settles O19: the answer is END in NORMAL with bytes gathered. -/
theorem decNEndDoneCompletesPacket : Obligations.DecNEndDoneCompletesPacket := by
  unfold Obligations.DecNEndDoneCompletesPacket
  intro s r rest hph hrd hcur hacc hans
  exact exec_decNEndDone_next_iff.mpr
    ⟨readAnswered_of_cons hph hrd hans, hacc, r, hcur, (respond_eq hans r _).symm⟩

/-- Settles O20: the answer is ESC in NORMAL. -/
theorem decNEscEntersEscape : Obligations.DecNEscEntersEscape := by
  unfold Obligations.DecNEscEntersEscape
  intro s rest hph hrd hans
  exact exec_decNEsc_next_iff.mpr ⟨readAnswered_of_cons hph hrd hans, (takeAnswer_eq hans _).symm⟩

/-- Settles O21: the answer is neither END nor ESC in NORMAL, and NORMAL is where N_LIT leaves DEC. -/
theorem decNLitAppendsByte : Obligations.DecNLitAppendsByte := by
  unfold Obligations.DecNLitAppendsByte
  intro s b rest hph hrd hans hEND hESC
  rw [exec_decNLit_next_iff.mpr ⟨readAnswered_of_cons hph hrd hans, hEND, hESC, rfl⟩, takeAnswer_eq hans,
    ← hph]

/-- Settles O22: the answer is NODATA in ESCAPED, and any ACCEPT starts in NORMAL with nothing gathered. -/
theorem decEFailDropsPendingEscape : Obligations.DecEFailDropsPendingEscape := by
  unfold Obligations.DecEFailDropsPendingEscape
  intro s r e rest hph hrd hcur hans
  refine ⟨_, exec_decEFail_next_iff.mpr
    ⟨readAnswered_of_cons hph hrd hans, r, hcur, (respond_eq hans r _).symm⟩, rfl, fun r' u hu => ?_⟩
  obtain ⟨-, -, rfl⟩ := exec_decAccept_next_iff.mp hu
  exact ⟨rfl, rfl⟩

/-- Settles O23: the answer is ESC_END in ESCAPED. -/
theorem decEEndAppendsEnd : Obligations.DecEEndAppendsEnd := by
  unfold Obligations.DecEEndAppendsEnd
  intro s rest hph hrd hans
  exact exec_decEEnd_next_iff.mpr ⟨readAnswered_of_cons hph hrd hans, (takeAnswer_eq hans _).symm⟩

/-- Settles O24: the answer is ESC_ESC in ESCAPED. -/
theorem decEEscAppendsEsc : Obligations.DecEEscAppendsEsc := by
  unfold Obligations.DecEEscAppendsEsc
  intro s rest hph hrd hans
  exact exec_decEEsc_next_iff.mpr ⟨readAnswered_of_cons hph hrd hans, (takeAnswer_eq hans _).symm⟩

/-- Settles O25: the answer is any other byte in ESCAPED. -/
theorem decELitPassesByteThrough : Obligations.DecELitPassesByteThrough := by
  unfold Obligations.DecELitPassesByteThrough
  intro s x rest hph hrd hans hEND hESC
  exact exec_decELit_next_iff.mpr
    ⟨readAnswered_of_cons hph hrd hans, hEND, hESC, (takeAnswer_eq hans _).symm⟩

end Sys2Proof.Machine
end

section
/-! PROOF. The function `rp` of a READ_PACKET (42_decoder.md R149) on the answers of a stuffed packet, of a frame and
of a run of ENDs, and the whole operation that follows it (42_decoder.md R130, R147, R148). -/

namespace Sys2Proof.Machine

section

variable {s : State} {r : ReqId} {acc acc' : Packet} {ph ph' : DecPhase} {xs ys : List ReadResp} {k : Nat}

/-! ## Answers within an operation -/

/-- Where a stream decodes to no result, its first answer does to none either, and the rest from what that
leaves over. -/
theorem decodeStream_cons_split {x : ReadResp} (h : decodeStream acc ph (x :: xs) = ([], acc', ph')) :
    ∃ acc₁ ph₁, decodeStream acc ph [x] = ([], acc₁, ph₁) ∧
      decodeStream acc₁ ph₁ xs = ([], acc', ph') := by
  rw [← List.singleton_append, decodeStream_append] at h
  obtain ⟨hres, hleft⟩ := Prod.mk.inj h
  obtain ⟨hfirst, hrest⟩ := List.append_eq_nil_iff.mp hres
  exact ⟨_, _, Prod.ext hfirst rfl, Prod.ext hrest hleft⟩

/-- Without a bound `rp` goes past answers that decode to no result, on to what they leave over (R149). -/
theorem rp_none_append (hph : ph ≠ .idle) (h : decodeStream acc ph xs = ([], acc', ph')) :
    rp none acc ph (xs ++ ys) k = rp none acc' ph' ys (k + xs.length) := by
  induction xs generalizing acc ph k with
  | nil =>
    obtain ⟨rfl, rfl⟩ : acc = acc' ∧ ph = ph' := by simpa [decodeStream] using h
    rfl
  | cons x xs ih =>
    obtain ⟨acc₁, ph₁, hx, hxs⟩ := decodeStream_cons_split h
    rw [List.cons_append]
    obtain hover | ⟨v, -, hdec⟩ | ⟨acc₂, ph₂, hrp, hph₂, hdec⟩ := rp_cons_cases none acc x (xs ++ ys) k hph
    · exact absurd hover (rp_maxPacket_ne_overflow _ _ _ _)
    · simp [hx] at hdec
    · obtain ⟨rfl, rfl⟩ : acc₁ = acc₂ ∧ ph₁ = ph₂ := by simpa [hx] using hdec
      rw [hrp, ih hph₂ hxs, List.length_cons, Nat.add_assoc, Nat.add_comm 1]

/-- The stuffed bytes of a packet are gathered as the packet (R73, R148). -/
theorem rp_none_stuffAll (acc p : Packet) (k : Nat) :
    rp none acc .normal ((stuffAll p).map .data ++ ys) k =
      rp none (acc ++ p) .normal ys (k + (stuffAll p).length) := by
  have hdec : decodeStream acc .normal ((stuffAll p).map .data) = ([], acc ++ p, .normal) := by
    rw [← List.append_nil (List.map _ _), decodeStream_stuffAll]
    rfl
  simpa using rp_none_append (ys := ys) (k := k) (by decide) hdec

/-- ENDs with nothing gathered are skipped, however many (R134, R147). -/
theorem rp_none_replicate_END (n : Nat) :
    rp none [] .normal (List.replicate n (.data END) ++ ys) 0 = rp none [] .normal ys n := by
  have hdec : decodeStream [] .normal (List.replicate n (.data END)) = ([], [], .normal) := by
    induction n with
    | zero => rfl
    | succ n ih => simpa [List.replicate_succ, decodeStream] using ih
  simpa using rp_none_append (ys := ys) (k := 0) (by decide) hdec

/-- An END after payload completes the packet (R135). -/
theorem rp_none_END (hacc : acc ≠ []) :
    rp none acc .normal (.data END :: ys) k = .done (complete acc) (k + 1) := by
  simp [rp, hacc]

/-! ## Frames -/

theorem map_data_frame_append (p : Packet) (ys : List ReadResp) :
    (frame p).map .data ++ ys = .data END :: ((stuffAll p).map .data ++ .data END :: ys) := by
  simp [frame_eq]

/-- From behind the leading END of a frame, `rp` responds on the trailing one (R148). -/
theorem rp_none_frame_tail {p : Packet} (hne : acc ++ p ≠ []) :
    rp none acc .normal ((stuffAll p).map .data ++ .data END :: ys) k =
      .done (complete (acc ++ p)) (k + ((frame p).length - 1)) := by
  rw [rp_none_stuffAll, rp_none_END hne, length_frame_eq_stuffAll]
  rfl

/-- At the start of a frame of a non-empty packet, `rp` returns the packet and consumes the frame (R148). -/
theorem rp_none_frame {p : Packet} (hp : p ≠ []) :
    rp none [] .normal ((frame p).map .data ++ ys) 0 = .done (complete p) (frame p).length := by
  have hlen : (frame p).length = 1 + ((frame p).length - 1) := by rw [length_frame_eq_stuffAll]; omega
  rw [map_data_frame_append, hlen]
  exact rp_none_frame_tail (acc := []) hp

/-- In ESCAPED the leading END of a frame is payload (R141, R148). -/
theorem rp_none_escaped_frame (n p : Packet) (k : Nat) :
    rp none n .escaped ((frame p).map .data ++ ys) k =
      .done (complete (n ++ [END] ++ p)) (k + (frame p).length) := by
  have hlen : k + (frame p).length = k + 1 + ((frame p).length - 1) := by
    rw [length_frame_eq_stuffAll]; omega
  rw [map_data_frame_append, hlen]
  exact rp_none_frame_tail (acc := n ++ [END]) (by simp)

/-! ## The whole operation -/

/-- A READ_PACKET that responds after `k` reads (R130, R149). -/
theorem exec_decReadPacket_done {v : DecResult} (hr : Config.isReqDec r = true)
    (ho : s.dec.outstanding r = false) (hph : s.dec.phase = .idle)
    (hrp : rp none [] .normal s.inAns 0 = .done v k) :
    exec (.decReadPacket r) s =
      .next (((s.setDec s.dec.toIdle).dropInAns k).logDec
        ([.req r, .accept r] ++ readEvents (s.inAns.take k) ++ [.rsp r v])) :=
  exec_decReadPacket_next_iff.mpr ⟨hr, ho, .inr (.inl ⟨hph, v, k, hrp, rfl⟩)⟩

end

/-- Settles O27: the equations of `rp`, byte by byte, and the operation that responds. -/
theorem readPacketFollowsRp : Obligations.ReadPacketFollowsRp := by
  unfold Obligations.ReadPacketFollowsRp
  refine ⟨fun acc ph k => rfl, fun acc ph e t k => rfl, fun acc b t k => ?_, fun acc b t k => rfl,
    fun s r v k => exec_decReadPacket_done⟩
  simp [rp, complete]

/-- Settles O54: `rp` on a frame, from each of the points where one may meet an operation. -/
theorem frameRecovery : Obligations.FrameRecovery := by
  unfold Obligations.FrameRecovery
  refine ⟨fun s r p rest hp hr ho hph hans => ?_, fun n p rest k hn hp => ⟨?_, ?_⟩,
    fun n p rest => rp_none_escaped_frame n p, fun rest k => rfl⟩
  · have hrp : rp none [] .normal s.inAns 0 = .done (complete p) (frame p).length := by
      rw [hans, rp_none_frame hp]
    have htake : s.inAns.take (frame p).length = (frame p).map .data := by simp [hans]
    have hdrop : s.inAns.drop (frame p).length = rest := by simp [hans]
    rw [exec_decReadPacket_done hr ho hph hrp, htake]
    simp [State.logDec, State.dropInAns, State.setDec, Dec.toIdle, hdrop, readEvents, complete,
      List.flatMap_map]
  · rw [map_data_frame_append]
    exact rp_none_END hn
  · rw [map_data_frame_append, List.drop_one, List.tail_cons, rp_none_frame_tail (acc := []) hp, Nat.zero_add]
    rfl

/-- Settles O55: `rp` skips the ENDs, and then responds to NODATA or waits. -/
theorem emptyFramesSuppressed : Obligations.EmptyFramesSuppressed := by
  unfold Obligations.EmptyFramesSuppressed
  intro s r n hr ho hph
  refine ⟨fun e rest hans => ?_, fun hans => ?_⟩
  · have hrp : rp none [] .normal s.inAns 0 = .done (prefixOf [] e) (n + 1) := by
      rw [hans, rp_none_replicate_END]
      rfl
    refine ⟨_, exec_decReadPacket_done hr ho hph hrp, ?_, ?_⟩
    · simp [hans, List.drop_append]
    · simp [decReplies, prefixOf]
  · have hrp : rp none [] .normal s.inAns 0 = .blocked [] .normal n := by
      rw [hans, ← List.append_nil (List.replicate _ _), rp_none_replicate_END]
      rfl
    exact ⟨_, exec_decReadPacket_blocked hr ho hph hrp, rfl, rfl, rfl, rfl, by simp [decReplies]⟩

end Sys2Proof.Machine
end

section
/-! PROOF. Runs of DEC's steps: a READ and the step its answer selects for each read of `rp`, from any point where a
read is due (20_memory.md R61, 42_decoder.md R142, R149), and with the request and ACCEPT the whole READ_PACKET
(42_decoder.md R130). -/

namespace Sys2Proof.Machine

section

variable {s t : State} {r : ReqId} {acc acc' : Packet} {ph ph' : DecPhase} {x : ReadResp}
  {xs ys : List ReadResp} {v : DecResult} {k k' : Nat} {ms : List Move}

/-! ## The answers that `rp` takes -/

/-- Decoding leaves an escape state of R22, never IDLE. -/
theorem decodeStream_phase_ne_idle (hph : ph ≠ .idle) : (decodeStream acc ph xs).2.2 ≠ .idle := by
  induction xs generalizing acc ph with
  | nil => exact hph
  | cons x xs ih =>
    cases x with
    | nodata e => exact ih (by decide)
    | data b =>
      simp only [decodeStream]
      split_ifs <;> exact ih (by decide)

/-- Where `rp` responds, the last answer it takes decodes to the result, and those before it to none (R149). -/
theorem rp_done_split {bound : Option Nat} (hph : ph ≠ .idle) (h : rp bound acc ph xs k = .done v k') :
    ∃ ys x zs acc' ph', xs = ys ++ x :: zs ∧ k' = k + (ys.length + 1) ∧
      decodeStream acc ph ys = ([], acc', ph') ∧ decodeStream acc' ph' [x] = ([v], [], .normal) := by
  induction xs generalizing acc ph k with
  | nil => simp [rp] at h
  | cons x xs ih =>
    obtain hrp | ⟨v', hrp, hdec⟩ | ⟨acc₁, ph₁, hrp, hph₁, hdec⟩ := rp_cons_cases bound acc x xs k hph
    · simp [hrp] at h
    · obtain ⟨rfl, rfl⟩ : v' = v ∧ k + 1 = k' := by simpa [hrp] using h
      exact ⟨[], x, xs, acc, ph, rfl, rfl, rfl, hdec⟩
    · obtain ⟨ys, y, zs, acc', ph', rfl, rfl, hys, hy⟩ := ih hph₁ (hrp ▸ h)
      refine ⟨x :: ys, y, zs, acc', ph', rfl, ?_, (decodeStream_cons_of_no_result hdec).trans hys, hy⟩
      rw [List.length_cons]
      omega

/-! ## One scheduled move -/

theorem step_issueRead (hm : s.sched = .issueRead r :: ms) (hr : Config.isReqDec r = true)
    (ho : s.dec.outstanding r = false) :
    step s = .next (((s.setSched ms).setDec
      { s.dec with pend := readPendSet r s.dec.pend }).logDec [.req r]) :=
  (step_of_sched_cons hm).trans (issueRead_next_iff.mpr ⟨hr, ho, rfl⟩)

theorem step_decAccept (hm : s.sched = .decAccept r :: ms) (hph : s.dec.phase = .idle)
    (hp : s.dec.pending r = true) :
    step s = .next (((s.setSched ms).setDec
      { phase := .normal, rd := false, cur := some r, acc := [],
        pend := readPendClear r s.dec.pend }).logDec [.accept r]) := by
  have hx : s.select (.decAccept r) = some (.decPending r) := if_pos ⟨hph, hp⟩
  exact (step_of_select hm hx).trans (exec_decAccept_of_idle (s := s.setSched ms) hph hp)

theorem step_decRead (hm : s.sched = .dec :: ms) (hph : s.dec.phase ≠ .idle) (hcur : s.dec.cur = some r)
    (hrd : s.dec.rd = false) :
    step s = .next (((s.setSched ms).setDec { s.dec with rd := true }).logDec [.read]) :=
  (step_of_select hm (selectDec_eq_some_iff.mpr ⟨hph, ⟨r, hcur⟩, .inl ⟨hrd, rfl⟩⟩)).trans
    (exec_decRead_next_iff.mpr ⟨hph, hrd, rfl⟩)

/-- A DEC whose read is answered takes the answer (R83). -/
theorem step_answeredDec (hm : s.sched = .dec :: ms) (hph : s.dec.phase ≠ .idle)
    (hcur : s.dec.cur = some r) (hans : s.readAnswered s.dec.phase x) :
    ∃ t, step s = .next t ∧ ((s.setSched ms).DecTakes t ∨ (s.setSched ms).DecResponds t) := by
  obtain ⟨-, hrd, hhead⟩ := hans
  have hne : s.inAns ≠ [] := by
    rintro hnil
    simp [hnil] at hhead
  obtain ⟨sel, hsel⟩ := exists_selectDec (s := s.setSched ms) hcur hph fun _ => hne
  obtain ⟨hi, t, ht⟩ := exec_of_selectDec hsel
  have hsel' : s.select .dec = some sel := hsel
  refine ⟨t, (step_of_select hm hsel').trans ht, ?_⟩
  obtain ⟨hunread, -⟩ | hmove := exec_decStep_cases hi ht
  · simp [hrd] at hunread
  · exact hmove

/-- An answer that decodes to no result is taken within the operation. -/
theorem step_decTakes (hm : s.sched = .dec :: ms) (hph : s.dec.phase ≠ .idle) (hcur : s.dec.cur = some r)
    (hans : s.readAnswered s.dec.phase x) (hdec : decodeStream s.dec.acc s.dec.phase [x] = ([], acc, ph)) :
    step s = .next (takeAnswer x { s.dec with phase := ph, rd := false, acc := acc } (s.setSched ms)) := by
  obtain ⟨t, hstep, ⟨x', acc', ph', hans', -, hdec', rfl⟩ | ⟨r', x', v, -, hans', hdec', -⟩⟩ :=
    step_answeredDec hm hph hcur hans
  all_goals obtain rfl : x = x' := Option.some.inj (hans.2.2.symm.trans hans'.2.2)
  · obtain ⟨rfl, rfl⟩ : acc = acc' ∧ ph = ph' := by simpa [hdec] using hdec'
    exact hstep
  · simp [hdec] at hdec'

/-- An answer that decodes to a result ends the operation. -/
theorem step_decResponds (hm : s.sched = .dec :: ms) (hph : s.dec.phase ≠ .idle)
    (hcur : s.dec.cur = some r) (hans : s.readAnswered s.dec.phase x)
    (hdec : decodeStream s.dec.acc s.dec.phase [x] = ([v], [], .normal)) :
    step s = .next ((takeAnswer x s.dec.toIdle (s.setSched ms)).logDec [.rsp r v]) := by
  obtain ⟨t, hstep, ⟨x', acc', ph', hans', -, hdec', -⟩ | ⟨r', x', v', hcur', hans', hdec', rfl⟩⟩ :=
    step_answeredDec hm hph hcur hans
  all_goals obtain rfl : x = x' := Option.some.inj (hans.2.2.symm.trans hans'.2.2)
  · simp [hdec] at hdec'
  · obtain rfl : r = r' := Option.some.inj (hcur.symm.trans hcur')
    obtain rfl : v = v' := by simpa [hdec] using hdec'
    exact hstep

/-! ## Inside an operation -/

/-- The state in which the reads answered `xs` leave DEC, `acc` and `ph` being what they decode to. -/
def State.afterReads (s : State) (xs : List ReadResp) (acc : Packet) (ph : DecPhase) : State :=
  ((s.setDec { s.dec with phase := ph, acc := acc }).dropInAns xs.length).logDec (readEvents xs)

theorem State.afterReads_inAns (hans : s.inAns = xs ++ ys) (acc : Packet) (ph : DecPhase) :
    (s.afterReads xs acc ph).inAns = ys := by
  simp [State.afterReads, hans]

theorem State.afterReads_nil (s : State) : s.afterReads [] s.dec.acc s.dec.phase = s := by
  simp [State.afterReads, State.setDec, State.dropInAns, State.logDec, readEvents]

theorem State.afterReads_afterReads (s : State) (xs ys : List ReadResp) (acc acc' : Packet)
    (ph ph' : DecPhase) :
    (s.afterReads xs acc ph).afterReads ys acc' ph' = s.afterReads (xs ++ ys) acc' ph' := by
  simp [State.afterReads, State.setDec, State.dropInAns, State.logDec, readEvents]

/-- A READ and the step its answer selects, where that answer decodes to no result. -/
theorem runsTo_afterRead (hph : s.dec.phase ≠ .idle) (hcur : s.dec.cur = some r) (hrd : s.dec.rd = false)
    (hans : s.inAns = x :: ys) (hdec : decodeStream s.dec.acc s.dec.phase [x] = ([], acc, ph))
    (hm : s.sched = .dec :: .dec :: ms) : s.RunsTo 2 ((s.setSched ms).afterReads [x] acc ph) := by
  have htake := step_decTakes (ms := ms) (r := r)
    (s := ((s.setSched (.dec :: ms)).setDec { s.dec with rd := true }).logDec [.read])
    rfl hph hcur (readAnswered_of_cons rfl rfl hans) hdec
  refine .cons (step_decRead hm hph hcur hrd) (.one (htake.trans (next_eq_next_iff.mpr ?_)))
  simp [State.afterReads, takeAnswer, State.setSched, State.setDec, State.dropInAns, State.logDec,
    readEvents, hrd]

/-- A READ and the step its answer selects, where that answer decodes to a result. -/
theorem runsTo_respond (hph : s.dec.phase ≠ .idle) (hcur : s.dec.cur = some r) (hrd : s.dec.rd = false)
    (hans : s.inAns = x :: ys) (hdec : decodeStream s.dec.acc s.dec.phase [x] = ([v], [], .normal))
    (hm : s.sched = .dec :: .dec :: ms) :
    s.RunsTo 2 ((((s.setSched ms).setDec s.dec.toIdle).dropInAns 1).logDec [.read, .answer x, .rsp r v]) := by
  have hend := step_decResponds (ms := ms) (r := r)
    (s := ((s.setSched (.dec :: ms)).setDec { s.dec with rd := true }).logDec [.read])
    rfl hph hcur (readAnswered_of_cons rfl rfl hans) hdec
  refine .cons (step_decRead hm hph hcur hrd) (.one (hend.trans (next_eq_next_iff.mpr ?_)))
  simp [takeAnswer, State.setSched, State.setDec, State.dropInAns, State.logDec, Dec.toIdle]

/-- Reads whose answers decode to no result, two steps each. -/
theorem runsTo_afterReads (hph : s.dec.phase ≠ .idle) (hcur : s.dec.cur = some r) (hrd : s.dec.rd = false)
    (hans : s.inAns = xs ++ ys) (hdec : decodeStream s.dec.acc s.dec.phase xs = ([], acc, ph))
    (hm : s.sched = List.replicate (2 * xs.length) Move.dec ++ ms) :
    s.RunsTo (2 * xs.length) ((s.setSched ms).afterReads xs acc ph) := by
  induction xs generalizing s with
  | nil =>
    obtain ⟨rfl, rfl⟩ : s.dec.acc = acc ∧ s.dec.phase = ph := by simpa [decodeStream] using hdec
    obtain rfl : s.sched = ms := hm
    rw [State.setSched_self, State.afterReads_nil]
    exact .zero s
  | cons x xs ih =>
    obtain ⟨acc₁, ph₁, hx, hxs⟩ := decodeStream_cons_split hdec
    have hph₁ : ph₁ ≠ .idle := by
      simpa only [hx] using decodeStream_phase_ne_idle (acc := s.dec.acc) (xs := [x]) hph
    have hm' : s.sched = .dec :: .dec :: (List.replicate (2 * xs.length) Move.dec ++ ms) := hm
    have hfirst := runsTo_afterRead hph hcur hrd hans hx hm'
    have hrest := ih (s := (s.setSched (List.replicate (2 * xs.length) Move.dec ++ ms)).afterReads [x] acc₁ ph₁)
      hph₁ hcur hrd (State.afterReads_inAns (xs := [x]) hans acc₁ ph₁) hxs rfl
    rw [List.length_cons, Nat.mul_succ, Nat.add_comm]
    exact State.afterReads_afterReads _ [x] xs _ _ _ _ ▸ hfirst.append hrest

/-- Where `rp` responds after `k` reads, `2 * k` steps respond (R142, R149). -/
theorem runsTo_rp_done (hph : s.dec.phase ≠ .idle) (hcur : s.dec.cur = some r) (hrd : s.dec.rd = false)
    (hrp : rp none s.dec.acc s.dec.phase s.inAns 0 = .done v k)
    (hm : s.sched = List.replicate (2 * k) Move.dec ++ ms) :
    s.RunsTo (2 * k) ((((s.setSched ms).setDec s.dec.toIdle).dropInAns k).logDec
      (readEvents (s.inAns.take k) ++ [.rsp r v])) := by
  obtain ⟨xs, x, ys, acc, ph, hans, rfl, hxs, hx⟩ := rp_done_split hph hrp
  have hph' : ph ≠ .idle := by
    simpa only [hxs] using decodeStream_phase_ne_idle (acc := s.dec.acc) (xs := xs) hph
  have hm' : s.sched = List.replicate (2 * xs.length) Move.dec ++ Move.dec :: .dec :: ms := by
    simpa [Nat.mul_succ, List.replicate_add] using hm
  have htake : s.inAns.take (xs.length + 1) = xs ++ [x] := by simp [hans, List.take_length_add_append]
  have hreads := runsTo_afterReads hph hcur hrd hans hxs hm'
  have hend := runsTo_respond (s := (s.setSched (.dec :: .dec :: ms)).afterReads xs acc ph) hph' hcur hrd
    (State.afterReads_inAns hans acc ph) hx rfl
  simpa [State.afterReads, State.setSched, State.setDec, State.dropInAns, State.logDec, Dec.toIdle, readEvents,
    htake, Nat.mul_succ] using hreads.append hend

/-- Where the answers run out after `k` reads, `2 * k` steps and one more READ leave DEC waiting (R145, R149). -/
theorem runsTo_rp_blocked (hph : s.dec.phase ≠ .idle) (hcur : s.dec.cur = some r) (hrd : s.dec.rd = false)
    (hrp : rp none s.dec.acc s.dec.phase s.inAns 0 = .blocked acc ph k)
    (hm : s.sched = List.replicate (2 * k + 1) Move.dec ++ ms) :
    s.RunsTo (2 * k + 1) ((((s.setSched ms).setDec
      { s.dec with phase := ph, rd := true, acc := acc }).dropInAns k).logDec
      (readEvents (s.inAns.take k) ++ [.read])) := by
  obtain ⟨rfl, hdec⟩ := decodeStream_of_rp_blocked hph hrp
  have hph' := rp_blocked_phase_ne_idle hph hrp
  have hm' : s.sched = List.replicate (2 * s.inAns.length) Move.dec ++ Move.dec :: ms := by
    simpa [List.replicate_add] using hm
  have hreads := runsTo_afterReads hph hcur hrd (List.append_nil _).symm hdec hm'
  have hread := step_decRead (s := (s.setSched (.dec :: ms)).afterReads s.inAns acc ph) rfl hph' hcur hrd
  simpa [State.afterReads, State.setSched, State.setDec, State.dropInAns, State.logDec] using
    hreads.append (.one hread)

/-! ## The request and ACCEPT before it -/

/-- The request and its ACCEPT: the pending set is as before the request (R131, R185). -/
theorem runsTo_readAccepted (hr : Config.isReqDec r = true) (ho : s.dec.outstanding r = false)
    (hph : s.dec.phase = .idle) (hm : s.sched = .issueRead r :: .decAccept r :: ms) :
    s.RunsTo 2 (((s.setSched ms).setDec
      { phase := .normal, rd := false, cur := some r, acc := [], pend := s.dec.pend }).logDec
      [.req r, .accept r]) := by
  have hclear := readPendClear_readPendSet (Dec.outstanding_eq_false.mp ho).1
  have hp : (readPendSet r s.dec.pend).contains r = true := by simp [mem_readPendSet]
  have haccept := step_decAccept (r := r) (ms := ms)
    (s := ((s.setSched (.decAccept r :: ms)).setDec
      { s.dec with pend := readPendSet r s.dec.pend }).logDec [.req r]) rfl hph hp
  refine .cons (step_issueRead hm hr ho) (.one (haccept.trans (next_eq_next_iff.mpr ?_)))
  simp [State.setSched, State.setDec, State.logDec, hclear]

/-- The request through the response end as READ_PACKET in one step does (R130, R149). -/
theorem runsTo_readPacket_done (hr : Config.isReqDec r = true) (ho : s.dec.outstanding r = false)
    (hph : s.dec.phase = .idle) (hrp : rp none [] .normal s.inAns 0 = .done v k)
    (hm : s.sched = .issueRead r :: .decAccept r :: (List.replicate (2 * k) Move.dec ++ ms)) :
    s.RunsTo (2 + 2 * k) ((((s.setSched ms).setDec s.dec.toIdle).dropInAns k).logDec
      ([.req r, .accept r] ++ readEvents (s.inAns.take k) ++ [.rsp r v])) := by
  simpa [State.setSched, State.setDec, State.dropInAns, State.logDec, Dec.toIdle] using
    (runsTo_readAccepted hr ho hph hm).append (runsTo_rp_done nofun rfl rfl hrp rfl)

/-- The request through the READ that is not answered end as READ_PACKET in one step does (R145, R149). -/
theorem runsTo_readPacket_blocked (hr : Config.isReqDec r = true) (ho : s.dec.outstanding r = false)
    (hph : s.dec.phase = .idle) (hrp : rp none [] .normal s.inAns 0 = .blocked acc ph k)
    (hm : s.sched = .issueRead r :: .decAccept r :: (List.replicate (2 * k + 1) Move.dec ++ ms)) :
    s.RunsTo (2 + (2 * k + 1)) { s.setSched ms with
      dec := { phase := ph, rd := true, cur := some r, acc := acc, pend := s.dec.pend }, inAns := [],
      decLog := s.decLog ++ ([.req r, .accept r] ++ readEvents s.inAns ++ [.read]) } := by
  obtain ⟨hk, -⟩ := decodeStream_of_rp_blocked (by decide) hrp
  simpa [State.setSched, State.setDec, State.dropInAns, State.logDec, hk] using
    (runsTo_readAccepted hr ho hph hm).append (runsTo_rp_blocked nofun rfl rfl hrp rfl)

end

/-- Settles O31: the run of `rp` that responds. -/
theorem runningOperationFollowsRp : Obligations.RunningOperationFollowsRp := by
  unfold Obligations.RunningOperationFollowsRp
  intro s r v k ms hph hrd hcur hrp
  have hbusy : s.dec.phase ≠ .idle := by
    obtain hph | hph := hph <;> simp [hph]
  exact runsTo_rp_done (s := s.setSched (List.replicate (2 * k) Move.dec ++ ms)) hbusy hcur hrd hrp rfl

/-- Settles O30: the steps and the whole operation end in one state, whether `rp` responds or waits. -/
theorem readPacketEqualsItsSteps : Obligations.ReadPacketEqualsItsSteps := by
  unfold Obligations.ReadPacketEqualsItsSteps
  intro s r ms hr ho hph
  refine ⟨fun v k hrp => ?_, fun acc ph k hrp => ?_⟩
  · have hlen : 2 * k + 2 = 2 + 2 * k := by omega
    have hrun := runsTo_readPacket_done (ms := ms)
      (s := s.setSched ([Move.issueRead r, Move.decAccept r] ++ List.replicate (2 * k) Move.dec ++ ms))
      hr ho hph hrp rfl
    rw [hlen]
    exact hrun.trans (exec_decReadPacket_done (s := s.setSched ms) hr ho hph hrp).symm
  · have hlen : 2 * k + 3 = 2 + (2 * k + 1) := by omega
    have hrun := runsTo_readPacket_blocked (ms := ms)
      (s := s.setSched ([Move.issueRead r, Move.decAccept r] ++ List.replicate (2 * k + 1) Move.dec ++ ms))
      hr ho hph hrp rfl
    rw [hlen]
    exact hrun.trans (exec_decReadPacket_blocked (s := s.setSched ms) hr ho hph hrp).symm

end Sys2Proof.Machine
end

section
/-! PROOF. Hazards of the stream (70_reset_and_hazards.md): a channel that does not answer (R200), an escape pending
at a failed read (R193), a stray ESC (R195, R196), and a stream with no END (R201). -/

namespace Sys2Proof.Machine

section

variable {acc p q : Packet} {ph : DecPhase} {ys : List ReadResp} {k : Nat}

/-! ## Literal bytes and escape sequences in `rp` -/

/-- A packet with no END and no ESC is its own stuffing (R72). -/
theorem stuffAll_of_literal (hq : ∀ x ∈ q, x ≠ END ∧ x ≠ ESC) : stuffAll q = q := by
  induction q with
  | nil => rfl
  | cons b q ih =>
    obtain ⟨⟨hEND, hESC⟩, hrest⟩ := List.forall_mem_cons.mp hq
    rw [stuffAll_cons, stuff_literal hEND hESC, ih hrest, List.singleton_append]

/-- Bytes that are neither END nor ESC are gathered as they are (R137). -/
theorem rp_none_literal (hq : ∀ x ∈ q, x ≠ END ∧ x ≠ ESC) :
    rp none acc .normal (q.map .data ++ ys) k = rp none (acc ++ q) .normal ys (k + q.length) := by
  simpa only [stuffAll_of_literal hq] using rp_none_stuffAll (ys := ys) acc q k

/-- ESC and the byte after it, whichever that is, are gathered as one payload byte (R136, R139 to R141). -/
theorem rp_none_ESC (b : Byte) :
    rp none acc .normal (.data ESC :: .data b :: ys) k = rp none (acc ++ [unescape b]) .normal ys (k + 2) :=
  rfl

/-- Without a bound a byte other than END ends no operation (R136, R137, R139 to R141). -/
theorem rp_none_cons_ne_END {b : Byte} (hb : b ≠ END) :
    ∃ acc' ph', rp none acc ph (.data b :: ys) k = rp none acc' ph' ys (k + 1) := by
  by_cases hph : ph = .normal
  · by_cases hESC : b = ESC
    · exact ⟨acc, .escaped, by simp [rp, hph, hESC]⟩
    · exact ⟨acc ++ [b], .normal, by simp [rp, hph, hb, hESC]⟩
  · exact ⟨acc ++ [unescape b], .normal, by simp [rp, hph]⟩

/-- On bytes with no END among them an operation reads all and still waits (R201). -/
theorem rp_none_blocked_of_no_END {xs : Packet} (hxs : ∀ x ∈ xs, x ≠ END) :
    ∃ acc' ph', rp none acc ph (xs.map .data) k = .blocked acc' ph' (k + xs.length) := by
  induction xs generalizing acc ph k with
  | nil => exact ⟨acc, ph, rfl⟩
  | cons b xs ih =>
    obtain ⟨hb, hrest⟩ := List.forall_mem_cons.mp hxs
    obtain ⟨acc₁, ph₁, hstep⟩ := rp_none_cons_ne_END (acc := acc) (ph := ph) (ys := xs.map .data) (k := k) hb
    obtain ⟨acc', ph', hblocked⟩ := ih (acc := acc₁) (ph := ph₁) (k := k + 1) hrest
    refine ⟨acc', ph', ?_⟩
    rw [List.map_cons, hstep, hblocked, List.length_cons, Nat.add_assoc, Nat.add_comm 1]

/-! ## Stray escapes -/

/-- ESC, END after literal bytes is payload, and the next END completes the packet (R195). -/
theorem rp_none_stray_ESC_END (hq : ∀ x ∈ q, x ≠ END ∧ x ≠ ESC) :
    rp none [] .normal (.data END :: (q.map .data ++ .data ESC :: .data END :: .data END :: ys)) 0 =
      .done (complete (q ++ [END])) (q.length + 4) := by
  calc rp none [] .normal (.data END :: (q.map .data ++ .data ESC :: .data END :: .data END :: ys)) 0
      = rp none [] .normal (q.map .data ++ .data ESC :: .data END :: .data END :: ys) 1 := rfl
    _ = rp none q .normal (.data ESC :: .data END :: .data END :: ys) (1 + q.length) := rp_none_literal hq
    _ = rp none (q ++ [END]) .normal (.data END :: ys) (1 + q.length + 2) := rp_none_ESC END
    _ = .done (complete (q ++ [END])) (1 + q.length + 2 + 1) := rp_none_END (by simp)
    _ = .done (complete (q ++ [END])) (q.length + 4) := by rw [Nat.add_comm 1]

/-- An escape pending at a failed read leaves no trace in what `rp` returns (R138, R193). -/
theorem rp_none_ESC_nodata (hq : ∀ x ∈ q, x ≠ END ∧ x ≠ ESC) (e : Option ChanErr) :
    rp none [] .normal (q.map .data ++ .data ESC :: .nodata e :: ys) k =
      .done (prefixOf q e) (k + q.length + 2) := by
  rw [rp_none_literal hq]
  rfl

/-- A literal byte and END are a whole packet (R135, R137). -/
theorem rp_none_literal_END {b : Byte} (hEND : b ≠ END) (hESC : b ≠ ESC) :
    rp none [] .normal (.data b :: .data END :: ys) 0 = .done (complete [b]) 2 := by
  have hb : ∀ x ∈ [b], x ≠ END ∧ x ≠ ESC := by simp [hEND, hESC]
  exact (rp_none_literal hb).trans (rp_none_END (by simp))

/-! ## Two operations, one after the other -/

/-- Whoever has nothing outstanding has nothing outstanding when the operation in service ends (R142). -/
theorem Dec.outstanding_toIdle {d : Dec} {r : ReqId} (h : d.outstanding r = false) :
    d.toIdle.outstanding r = false := by
  obtain ⟨hpend, -⟩ := Dec.outstanding_eq_false.mp h
  exact Dec.outstanding_eq_false.mpr ⟨hpend, by simp [Dec.toIdle]⟩

/-- What a READ_PACKET that responds leaves: the answers not read, DEC idle, and one more response (R130). -/
theorem exec_decReadPacket_responds {s : State} {r : ReqId} {xs : List ReadResp} {v : DecResult}
    (hr : Config.isReqDec r = true) (ho : s.dec.outstanding r = false) (hph : s.dec.phase = .idle)
    (hans : s.inAns = xs ++ ys) (hrp : rp none [] .normal (xs ++ ys) 0 = .done v xs.length) :
    ∃ t, exec (.decReadPacket r) s = .next t ∧ t.dec = s.dec.toIdle ∧ t.inAns = ys ∧
      decReplies t.decLog = decReplies s.decLog ++ [(r, v)] := by
  refine ⟨_, exec_decReadPacket_done hr ho hph (by rw [hans, hrp]), rfl, ?_, ?_⟩
  · simp [hans]
  · simp [decReplies]

end

/-- Settles O50: both agents go on waiting. -/
theorem unansweredChannelBlocksAgent : Obligations.UnansweredChannelBlocksAgent := by
  unfold Obligations.UnansweredChannelBlocksAgent
  exact fun s t h => ⟨fun hph hans => step_unansweredEnc hph hans h,
    fun hbusy hrd hans => step_unansweredDec hbusy hrd hans h⟩

/-- Settles O58: the first operation ends at the failed read, and the next starts in NORMAL, where the second
byte of the escape is a literal. -/
theorem escapeLostAtFailedRead : Obligations.EscapeLostAtFailedRead := by
  unfold Obligations.EscapeLostAtFailedRead
  intro s r r' q e b rest hr hr' ho ho' hph hq hb hans
  have hlit : b ≠ END ∧ b ≠ ESC := by
    obtain rfl | rfl := hb
    · decide
    · decide
  obtain ⟨t, ht, hdec, hin, hlog⟩ := exec_decReadPacket_responds (v := prefixOf q e) hr ho hph
    (hans.trans (List.append_assoc _ _ _)) (by
      simpa using rp_none_ESC_nodata (ys := .data b :: .data END :: rest) (k := 0) hq e)
  obtain ⟨u, hu, -, hin', hlog'⟩ := exec_decReadPacket_responds (s := t) (v := complete [b]) hr'
    (by rw [hdec]; exact Dec.outstanding_toIdle ho') (by rw [hdec]; rfl) hin
    (rp_none_literal_END hlit.1 hlit.2)
  refine ⟨t, u, ht, hu, ?_, hin'⟩
  rw [hlog', hlog, List.append_assoc]
  rfl

/-- Settles O59: the ENDs and ESCs of each stream, one after the other. -/
theorem strayEscapeHazards : Obligations.StrayEscapeHazards := by
  unfold Obligations.StrayEscapeHazards
  refine ⟨fun q p rest hp hq => ?_, fun acc t k => ?_⟩
  · have hstream : ([END] ++ q ++ [ESC, END] ++ frame p).map ReadResp.data ++ rest =
        ([END] ++ q ++ [ESC, END, END]).map .data ++ ((stuffAll p).map .data ++ .data END :: rest) := by
      simp [frame_eq]
    have hlen : (([END] ++ q ++ [ESC, END, END]).map ReadResp.data).length = q.length + 4 := by simp
    rw [hstream, List.drop_left' hlen]
    constructor
    · simpa [complete] using rp_none_stray_ESC_END (ys := (stuffAll p).map .data ++ .data END :: rest) hq
    · simpa [complete] using rp_none_frame_tail (acc := []) (ys := rest) (k := 0) hp
  · calc rp none acc .normal (.data ESC :: .data ESC :: .data ESC_END :: t) k
        = rp none (acc ++ [ESC]) .normal (.data ESC_END :: t) (k + 2) := rp_none_ESC ESC
      _ = rp none (acc ++ [ESC] ++ [ESC_END]) .normal t (k + 3) := rp_none_literal (q := [ESC_END]) (by simp)
      _ = rp none (acc ++ [ESC, ESC_END]) .normal t (k + 3) := by rw [List.append_assoc]; rfl

/-- Settles O60: no byte of the stream ends the operation, and its literal bytes are gathered as they are. -/
theorem streamWithoutEndNeverCompletes : Obligations.StreamWithoutEndNeverCompletes := by
  unfold Obligations.StreamWithoutEndNeverCompletes
  refine fun acc xs k hEND => ⟨rp_none_blocked_of_no_END hEND, fun hESC => ?_⟩
  simpa [rp] using rp_none_literal (acc := acc) (ys := []) (k := k) fun x hx => ⟨hEND x hx, hESC x hx⟩

end Sys2Proof.Machine
end
